-- ==== Sys2Proof/Word.lean ====
section
/-! DEFINITION. The interface words of the block: a command word and a response datum are 32 bits, a response code is 4 bits (00_scope.md R7). -/

namespace Sys2Proof

/-- A command word, and a response datum `RDATA` (00_scope.md R7, 30_encoding.md R60, R63). -/
abbrev Word := BitVec 32

/-- A response code `RC` as it crosses its port (30_encoding.md R63, R69). -/
abbrev RcBits := BitVec 4

end Sys2Proof
end

