-- ==== Sys2Proof/Config.lean ====
section
/-! DEFINITION. The two open parameters of an instance of the block and the sizes that follow from them
(00_scope.md R4 to R7). An instance's parameters are hardwired in its register `PARAM` (10_state.md R31), which
`Machine.State` holds: every definition of the model is for every legal instance. The spec leaves no result value
open, so there is no free value here. -/

namespace Sys2Proof

/-- The parameters an instance is built with (00_scope.md R4, R5): what register `PARAM` shows (10_state.md R31). -/
structure Param where
  /-- `SYMW`, the width of a symbol in bits (R4). -/
  symw : Nat
  /-- `CNTW`, the width of a frequency in bits (R5). -/
  cntw : Nat
  deriving DecidableEq, Repr

/-- The default instance: `SYMW = 8`, `CNTW = 32` (R4, R5). -/
def Param.default : Param := { symw := 8, cntw := 32 }

/-- The parameters are those of an instance of this hardware: `SYMW` 1 to 16, `CNTW` 1 to 32 (R4, R5). -/
def Param.legal (p : Param) : Bool :=
  decide (1 ≤ p.symw) && decide (p.symw ≤ 16) && decide (1 ≤ p.cntw) && decide (p.cntw ≤ 32)

/-- `NSYM`, the number of symbol values (R4). -/
def Param.nsym (p : Param) : Nat := 2 ^ p.symw

/-- `CNTMAX`, the largest frequency (R5). -/
def Param.cntMax (p : Param) : Nat := 2 ^ p.cntw - 1

/-- `NIDXW`, the width of a node index (R6). -/
def Param.nidxw (p : Param) : Nat := p.symw + 1

/-- `MAXNODE`, the number of entries of the node arena (R6). -/
def Param.maxNode (p : Param) : Nat := 2 * p.nsym - 1

/-- `MAXLEN`, the longest possible code in bits (R6). -/
def Param.maxLen (p : Param) : Nat := p.nsym - 1

/-- `PQCAP`, the most members the queue ever holds (R6). -/
def Param.pqCap (p : Param) : Nat := p.nsym

end Sys2Proof
end

