-- ==== Sys2Proof/Syntax.lean ====
section
/-! DEFINITION. The 15 commands of the block, one constructor per row of spec/opcode_table.json (30_encoding.md R65).
Operands are unsigned integers used as they are (R64); a bit operand is a `Bool` (`true` is 1). -/

namespace Sys2Proof

/-- A command with its operand (30_encoding.md R61, R65): form `N` has none, form `S` a symbol, form `B` a bit,
form `X` an index. -/
inductive Instr where
  /-- `CLR`: start a new session (47_system.md R152). -/
  | clr
  /-- `CNT s`: count one symbol (41_frequency_counter.md R81). -/
  | cnt (sym : Nat)
  /-- `BLD`: build the prefix tree (43_tree_builder.md R101). -/
  | bld
  /-- `DRV`: derive the code table (44_code_table.md R116). -/
  | drv
  /-- `ENC s`: emit the code of a symbol (45_encoder.md R126). -/
  | enc (sym : Nat)
  /-- `DEC b`: walk the tree by one bit (46_decoder.md R136). -/
  | dec (bit : Bool)
  /-- `FIN`: the bit stream is exhausted (46_decoder.md R141). -/
  | fin
  /-- `ABT`: the host reports a stream failure (47_system.md R153). -/
  | abt
  /-- `RDS x`: read a status register (47_system.md R154). -/
  | rds (idx : Nat)
  /-- `RDF s`: read a frequency (41_frequency_counter.md R85). -/
  | rdf (sym : Nat)
  /-- `RDL s`: read a code length (44_code_table.md R120). -/
  | rdl (sym : Nat)
  /-- `RDNK x`: read kind and symbol of a node (43_tree_builder.md R109). -/
  | rdnk (idx : Nat)
  /-- `RDNF x`: read the frequency of a node (43_tree_builder.md R110). -/
  | rdnf (idx : Nat)
  /-- `RDNL x`: read the left child of a node (43_tree_builder.md R111). -/
  | rdnl (idx : Nat)
  /-- `RDNR x`: read the right child of a node (43_tree_builder.md R112). -/
  | rdnr (idx : Nat)
  deriving DecidableEq, Repr

end Sys2Proof
end

