-- ==== Sys2Proof/WellFormed.lean ====
section
/-! DEFINITION. Which operands a command can carry in a command word of an instance with symbol width `symw`
(30_encoding.md R61). -/

namespace Sys2Proof

/-- The operand fits its form (30_encoding.md R61): a symbol is below `NSYM = 2^SYMW`, an index is a 17-bit number. -/
def Instr.wellFormed (symw : Nat) : Instr → Bool
  | .clr => true
  | .cnt s => decide (s < 2 ^ symw)
  | .bld => true
  | .drv => true
  | .enc s => decide (s < 2 ^ symw)
  | .dec _ => true
  | .fin => true
  | .abt => true
  | .rds x => decide (x < 2 ^ 17)
  | .rdf s => decide (s < 2 ^ symw)
  | .rdl s => decide (s < 2 ^ symw)
  | .rdnk x => decide (x < 2 ^ 17)
  | .rdnf x => decide (x < 2 ^ 17)
  | .rdnl x => decide (x < 2 ^ 17)
  | .rdnr x => decide (x < 2 ^ 17)

end Sys2Proof
end

