-- ==== Sys2Proof/Decode.lean ====
section
/-! DEFINITION. Decoding a command word, total and by name, and the encoder written from the same table
(30_encoding.md R60 to R62, R64 to R66, R70, R71). -/

namespace Sys2Proof

/-- Why a word is illegal: the cases of 30_encoding.md R66, by name. All of them answer `R_ILLEGAL`. -/
inductive Illegal where
  /-- `op` is none of `0x01` to `0x08`, `0x10` to `0x13` (R66, R67). -/
  | reservedOp
  /-- The `z` field is not 0 (R60, R66). -/
  | reservedBits
  /-- `sub` is not 0 and `op` is not `0x13` (R62, R66). -/
  | subNotZero
  /-- `op` is `0x13` and `sub` is 4 to 15 (R62, R66). -/
  | subReserved
  /-- Form `N` with `arg` not 0 (R61). -/
  | argNotZero
  /-- Form `S` with `arg >= NSYM` (R61). -/
  | argNotSymbol
  /-- Form `B` with `arg > 1` (R61). -/
  | argNotBit
  deriving DecidableEq, Repr

/-- Field `op`, bits 31:24 (R60). -/
def opField (w : Word) : Nat := (w.extractLsb' 24 8).toNat

/-- Field `sub`, bits 23:20 (R60). -/
def subField (w : Word) : Nat := (w.extractLsb' 20 4).toNat

/-- Field `z`, bits 19:17 (R60). -/
def zField (w : Word) : Nat := (w.extractLsb' 17 3).toNat

/-- Field `arg`, bits 16:0 (R60). -/
def argField (w : Word) : Nat := (w.extractLsb' 0 17).toNat

/-- The opcodes R65 assigns. -/
def assignedOp (op : Nat) : Bool :=
  (decide (0x01 ≤ op) && decide (op ≤ 0x08)) || (decide (0x10 ≤ op) && decide (op ≤ 0x13))

/-- Form `N`: `arg = 0` (R61). -/
def formN (i : Instr) (arg : Nat) : Except Illegal Instr :=
  if arg = 0 then .ok i else .error .argNotZero

/-- Form `S`: `arg < NSYM`, and the operand is `arg` (R61, R64). -/
def formS (symw : Nat) (mk : Nat → Instr) (arg : Nat) : Except Illegal Instr :=
  if arg < 2 ^ symw then .ok (mk arg) else .error .argNotSymbol

/-- Form `B`: `arg <= 1`, and the operand is `arg[0]` (R61, R64). -/
def formB (mk : Bool → Instr) (arg : Nat) : Except Illegal Instr :=
  if arg ≤ 1 then .ok (mk (decide (arg = 1))) else .error .argNotBit

/-- Form `X`: no constraint at decode, the operand is all 17 bits (R61, R64). -/
def formX (mk : Nat → Instr) (arg : Nat) : Except Illegal Instr := .ok (mk arg)

/-- The opcode map of R65 over the fields of a word whose `z` field is 0. -/
def decodeFields (symw op sub arg : Nat) : Except Illegal Instr :=
  match op, sub with
  | 0x01, 0 => formN .clr arg
  | 0x02, 0 => formS symw .cnt arg
  | 0x03, 0 => formN .bld arg
  | 0x04, 0 => formN .drv arg
  | 0x05, 0 => formS symw .enc arg
  | 0x06, 0 => formB .dec arg
  | 0x07, 0 => formN .fin arg
  | 0x08, 0 => formN .abt arg
  | 0x10, 0 => formX .rds arg
  | 0x11, 0 => formS symw .rdf arg
  | 0x12, 0 => formS symw .rdl arg
  | 0x13, 0 => formX .rdnk arg
  | 0x13, 1 => formX .rdnf arg
  | 0x13, 2 => formX .rdnl arg
  | 0x13, 3 => formX .rdnr arg
  | 0x13, _ => .error .subReserved
  | _, _ => .error (if assignedOp op then .subNotZero else .reservedOp)

/-- Decoding a word: a total function of the word and of the instance's `SYMW`, of no state (R70). -/
def decode (symw : Nat) (w : Word) : Except Illegal Instr :=
  if zField w = 0 then decodeFields symw (opField w) (subField w) (argField w) else .error .reservedBits

/-- The `op` of a command (R65). -/
def Instr.op : Instr → Nat
  | .clr => 0x01
  | .cnt _ => 0x02
  | .bld => 0x03
  | .drv => 0x04
  | .enc _ => 0x05
  | .dec _ => 0x06
  | .fin => 0x07
  | .abt => 0x08
  | .rds _ => 0x10
  | .rdf _ => 0x11
  | .rdl _ => 0x12
  | .rdnk _ => 0x13
  | .rdnf _ => 0x13
  | .rdnl _ => 0x13
  | .rdnr _ => 0x13

/-- The `sub` of a command (R62, R65). -/
def Instr.sub : Instr → Nat
  | .clr => 0
  | .cnt _ => 0
  | .bld => 0
  | .drv => 0
  | .enc _ => 0
  | .dec _ => 0
  | .fin => 0
  | .abt => 0
  | .rds _ => 0
  | .rdf _ => 0
  | .rdl _ => 0
  | .rdnk _ => 0
  | .rdnf _ => 1
  | .rdnl _ => 2
  | .rdnr _ => 3

/-- The `arg` of a command: its operand, or 0 (R60, R71). -/
def Instr.arg : Instr → Nat
  | .clr => 0
  | .cnt s => s
  | .bld => 0
  | .drv => 0
  | .enc s => s
  | .dec b => if b then 1 else 0
  | .fin => 0
  | .abt => 0
  | .rds x => x
  | .rdf s => s
  | .rdl s => s
  | .rdnk x => x
  | .rdnf x => x
  | .rdnl x => x
  | .rdnr x => x

/-- The word of a command: `(op << 24) | (sub << 20) | arg` (R71). -/
def encode (i : Instr) : Word :=
  ((BitVec.ofNat 32 i.op) <<< 24) ||| ((BitVec.ofNat 32 i.sub) <<< 20) ||| BitVec.ofNat 32 i.arg

/-- The word whose low `nbits` bits are `w` and whose other bits are 0. A command word crosses its port in one
transfer, so there is no byte order to apply (20_memory.md R47). -/
def tableWord (nbits w : Nat) : Word := BitVec.ofNat 32 (w % 2 ^ nbits)

/-- What the decoder of the default instance (`SYMW = 8`, the instance of the opcode table's `mask`, R65) reads from
a table word. -/
def decodeTableWord (nbits w : Nat) : Option Instr :=
  (decode Param.default.symw (tableWord nbits w)).toOption

end Sys2Proof
end

