-- ==== Sys2Proof/Machine/State.lean ====
section
/-! DEFINITION. The state of the block as plain data: every element 10_state.md R13 lists, the hardwired `PARAM`, the
output transfers of the command in flight, the output histories and the host's input pins (20_memory.md R44, R55,
R56), with the state after reset (10_state.md R36, 70_reset_and_hazards.md R190). -/

namespace Sys2Proof.Machine

/-- `NODE[i].kind` (10_state.md R16). -/
inductive NodeKind where
  /-- Coded 0. -/
  | leaf
  /-- Coded 1. -/
  | internal
  deriving DecidableEq, Repr

/-- One entry of the node arena (10_state.md R16). -/
structure Node where
  kind : NodeKind
  /-- The node's frequency. -/
  freq : Nat
  /-- The leaf's symbol; 0 in an internal node. -/
  sym : Nat
  /-- Index of the left child; 0 in a leaf. -/
  left : Nat
  /-- Index of the right child; 0 in a leaf. -/
  right : Nat
  deriving DecidableEq, Repr

/-- The part of a code-table entry that holds a value only while `CODEV[s] = 1` (10_state.md R22). -/
structure Code where
  /-- `CLEN[s]`. -/
  clen : Nat
  /-- `CBITS[s]`, index 0 first; `true` is 1. -/
  cbits : List Bool
  deriving DecidableEq, Repr

/-- A member of the priority queue with its key `(NODE[i].freq, i)` (42_priority_queue.md R90). -/
structure Key where
  freq : Nat
  idx : Nat
  deriving DecidableEq, Repr

/-- The sequencer register (10_state.md R25). The value 3 is never taken. -/
inductive Phase where
  /-- `PH_COUNT`, coded 0. -/
  | count
  /-- `PH_TREE`, coded 1. -/
  | tree
  /-- `PH_CODE`, coded 2. -/
  | code
  deriving DecidableEq, Repr

/-- The fatal errors (30_encoding.md R69, 60_exceptions.md R166 to R169). -/
inductive Fatal where
  /-- `E_IO`, code 1. -/
  | io
  /-- `E_CONSIST`, code 2. -/
  | consist
  /-- `E_TRUNC`, code 3. -/
  | trunc
  /-- `E_CAP`, code 4. -/
  | cap
  deriving DecidableEq, Repr

/-- The reasons a command is turned away (30_encoding.md R69, 60_exceptions.md R170 to R172, R182). -/
inductive Reason where
  /-- `R_ILLEGAL`, code 8. -/
  | illegal
  /-- `R_ORDER`, code 9. -/
  | order
  /-- `R_RANGE`, code 10. -/
  | range
  /-- `R_HALTED`, code 11. -/
  | halted
  deriving DecidableEq, Repr

/-- The response codes `RC` (30_encoding.md R69). -/
inductive Rc where
  /-- `OK`, code 0. -/
  | ok
  | error (e : Fatal)
  | refusal (r : Reason)
  deriving DecidableEq, Repr

/-- The response of one command (30_encoding.md R63). -/
structure Response where
  rc : Rc
  rdata : Word
  deriving DecidableEq, Repr

/-- One transfer on an output channel (20_memory.md R55, R56). -/
inductive Transfer where
  /-- One bit of `BITOUT`. -/
  | bit (b : Bool)
  /-- One symbol of `SYMOUT`. -/
  | sym (s : Nat)
  /-- The response. -/
  | rsp (r : Response)
  deriving DecidableEq, Repr

/-- The block's input pins as sampled at one rising edge of `clk` (20_memory.md R55). -/
structure HostPins where
  rst : Bool
  cmdValid : Bool
  cmdWord : Word
  rspReady : Bool
  bitReady : Bool
  symReady : Bool
  deriving DecidableEq, Repr

/-- The whole state (10_state.md R13). -/
structure State where
  /-- `PARAM`: the instance's hardwired parameters (R31). -/
  param : Param
  /-- `FREQ[0 .. NSYM-1]` (R14). -/
  freq : List Nat
  /-- `TOTAL` (R15). -/
  total : Nat
  /-- The entries of `NODE` that hold values, index 0 first (R13, R16). -/
  node : List Node
  /-- `NLEAF` (R17). -/
  nleaf : Nat
  /-- `NNODE` (R18). -/
  nnode : Nat
  /-- `ROOT` (R19). -/
  root : Nat
  /-- `TREEV` (R20). -/
  treev : Bool
  /-- `CUR` (R21). -/
  cur : Nat
  /-- The code table (R22): entry `s` is present exactly when `CODEV[s] = 1`. -/
  code : List (Option Code)
  /-- `PQ` (R23): its members in ascending order of key, so that equal sets are equal lists. -/
  pq : List Key
  /-- `ERR` (R24): `none` is 0. -/
  err : Option Fatal
  /-- `PHASE` (R25). -/
  phase : Phase
  /-- The output transfers of the command in flight that the host has not taken yet, the next one first
  (20_memory.md R56). -/
  out : List Transfer
  /-- The history `BITOUT`, first bit first (20_memory.md R44). -/
  bitout : List Bool
  /-- The history `SYMOUT`, first symbol first (20_memory.md R44). -/
  symout : List Nat
  /-- The model's own history of the responses delivered, first one first. -/
  rspout : List Response
  /-- The model's own list of the input pins at the rising edges to come: the host's choices (00_scope.md R9). -/
  input : List HostPins
  deriving DecidableEq, Repr

/-- Why a step can stop. None of these is an outcome of a command the spec gives an effect: a fatal error and a
refusal of the spec are NEXT states (60_exceptions.md R175, R176). -/
inductive Fault where
  /-- Raised by `step` when the parameters are those of no instance of this hardware (00_scope.md R4, R5;
  93_implementation_defined.md Part 2: no step is defined). Safe. -/
  | notAnInstance
  /-- Raised by `DRV`, `DEC` and the four node reads when they would read an arena entry that holds no value; no state
  the block can reach does so (10_state.md R13). Safe. -/
  | noValue
  /-- Raised by `DRV` when its walk pops more pairs than there are nodes, so that the arena is no tree; no state the
  block can reach does so (10_state.md R32). Safe. -/
  | notATree
  deriving DecidableEq, Repr

/-- Why an instruction has no meaning. -/
inductive Refusal where
  /-- Raised by `exec` for an instruction that is not modelled yet; no arm raises it in this model. Safe. -/
  | notModelled (mnemonic : String)
  deriving DecidableEq, Repr

/-- The reset state of the instance with parameters `p` (10_state.md R36, 70_reset_and_hazards.md R190), with empty
histories and no edge waiting. -/
def State.resetOf (p : Param) : State where
  param := p
  freq := List.replicate p.nsym 0
  total := 0
  node := []
  nleaf := 0
  nnode := 0
  root := 0
  treev := false
  cur := 0
  code := List.replicate p.nsym none
  pq := []
  err := none
  phase := .count
  out := []
  bitout := []
  symout := []
  rspout := []
  input := []

/-- The default instance right after reset. -/
def State.reset : State := State.resetOf Param.default

end Sys2Proof.Machine
end

