-- ==== Sys2Proof/Machine/Ops.lean ====
section
/-! DEFINITION. The named operations over the state that every command's rule is written with (00_scope.md section 6):
answering, emitting, raising a fatal error and refusing, the block's return to its reset state, and the delivery of
pending output transfers. -/

namespace Sys2Proof.Machine

/-- The outcome of a step of this machine. -/
abbrev Outcome := Host.Outcome State Fault Refusal

/-- `zext_32(v)` (00_scope.md section 6). -/
def zext32 (v : Nat) : Word := BitVec.ofNat 32 v

/-- The code of a fatal error, in `RC` and in `ERR` (30_encoding.md R69, 10_state.md R24). -/
def Fatal.code : Fatal → RcBits
  | .io => 1
  | .consist => 2
  | .trunc => 3
  | .cap => 4

/-- The code of a refusal (30_encoding.md R69). -/
def Reason.code : Reason → RcBits
  | .illegal => 8
  | .order => 9
  | .range => 10
  | .halted => 11

/-- `RC` as it crosses its port (30_encoding.md R69). -/
def Rc.code : Rc → RcBits
  | .ok => 0
  | .error e => e.code
  | .refusal r => r.code

/-- Queue transfers of the command in flight, in the order they will be made (20_memory.md R56). -/
def State.send (ts : List Transfer) (s : State) : State := { s with out := s.out ++ ts }

/-- `emit_bits(b)`: the bits of `b`, index 0 first (00_scope.md section 6, 20_memory.md R46). -/
def State.emitBits (b : List Bool) (s : State) : State := s.send (b.map Transfer.bit)

/-- `emit_sym(s)` (00_scope.md section 6). -/
def State.emitSym (sym : Nat) (s : State) : State := s.send [Transfer.sym sym]

/-- `ERR <- code` (10_state.md R24). -/
def State.setErr (e : Fatal) (s : State) : State := { s with err := some e }

/-- `PHASE <- v` (10_state.md R25). -/
def State.setPhase (p : Phase) (s : State) : State := { s with phase := p }

/-- `CUR <- v` (10_state.md R21). -/
def State.setCur (i : Nat) (s : State) : State := { s with cur := i }

/-- `respond(rc, data)`: the one response of the command, after whatever it emitted (30_encoding.md R63,
20_memory.md R56). -/
def respond (rc : Rc) (data : Word) (s : State) : Outcome := .next (s.send [Transfer.rsp ⟨rc, data⟩])

/-- `raise E_x`: `ERR` takes the code, nothing else changes, the response carries the code and the datum 0
(60_exceptions.md R175). This is the block's one exception entry; it saves nothing and goes nowhere. -/
def raise (e : Fatal) (s : State) : Outcome := respond (.error e) 0 (s.setErr e)

/-- `refuse R_x`: no state changes, the response carries the reason and the datum 0 (60_exceptions.md R176). -/
def refuse (r : Reason) (s : State) : Outcome := respond (.refusal r) 0 s

/-- The halted check, then the phase check of a working command: `adm` says which phases accept it
(47_system.md R151, R155; order of the checks 60_exceptions.md R174). -/
def ifAdmitted (adm : Phase → Bool) (s : State) (run : Outcome) : Outcome :=
  if s.err.isSome then refuse .halted s
  else if adm s.phase then run
  else refuse .order s

/-- The block's state elements at their reset values: what `CLR` and `rst` both do (47_system.md R152,
70_reset_and_hazards.md R190, R191). This is the return from a fatal error (60_exceptions.md R177). The output
channels, the histories and the host's pins are not touched. -/
def State.clear (s : State) : State :=
  { s with
    freq := List.replicate s.param.nsym 0
    total := 0
    node := []
    nleaf := 0
    nnode := 0
    root := 0
    treev := false
    cur := 0
    code := List.replicate s.param.nsym none
    pq := []
    err := none
    phase := .count }

/-- A rising edge with `rst = 1`: the reset state, and the transfers of the command in flight that were not made are
never made (70_reset_and_hazards.md R190); the histories stay (10_state.md R36). -/
def State.resetBlock (s : State) : State := { s.clear with out := [] }

/-- A transfer on an output channel adds its datum to the channel's history (20_memory.md R44). -/
def State.record (s : State) : Transfer → State
  | .bit b => { s with bitout := s.bitout ++ [b] }
  | .sym x => { s with symout := s.symout ++ [x] }
  | .rsp r => { s with rspout := s.rspout ++ [r] }

/-- The bit a transfer carries, if it is one on the bit channel. -/
def Transfer.asBit : Transfer → Option Bool
  | .bit b => some b
  | .sym _ => none
  | .rsp _ => none

/-- The symbol a transfer carries, if it is one on the symbol channel. -/
def Transfer.asSym : Transfer → Option Nat
  | .bit _ => none
  | .sym x => some x
  | .rsp _ => none

/-- The response a transfer carries, if it is one on the response channel. -/
def Transfer.asRsp : Transfer → Option Response
  | .bit _ => none
  | .sym _ => none
  | .rsp r => some r

/-- The host has taken every pending transfer, in order (20_memory.md R52, R56). -/
def State.deliver (s : State) : State := s.out.foldl State.record { s with out := [] }

/-- The fetch of a record `NODE[i]` that the rule says holds a value (20_memory.md R42); where it holds none the
machine stops (10_state.md R13). -/
def readNode (i : Nat) (s : State) (use : Node → Outcome) : Outcome :=
  match s.node[i]? with
  | some nd => use nd
  | none => .fault .noValue

end Sys2Proof.Machine
end

