-- ==== Sys2Proof/Machine/Flags.lean ====
section
/-! DEFINITION. The derived flags and the status registers (10_state.md R26 to R31). The block has no arithmetic
condition codes (R28). -/

namespace Sys2Proof.Machine

/-- `MID`: the decoder is mid-code (10_state.md R26). -/
def State.mid (s : State) : Bool := s.treev && decide (s.cur ≠ s.root)

/-- `HALTED` (10_state.md R27). -/
def State.halted (s : State) : Bool := s.err.isSome

/-- The code of `PHASE` (10_state.md R25). -/
def Phase.bits : Phase → BitVec 2
  | .count => 0
  | .tree => 1
  | .code => 2

/-- The 4 bits of `ERR` (10_state.md R24). -/
def errBits : Option Fatal → BitVec 4
  | none => 0
  | some e => e.code

/-- The 1 bit of `NODE[i].kind` (10_state.md R16). -/
def NodeKind.bit : NodeKind → BitVec 1
  | .leaf => 0
  | .internal => 1

/-- `STATUS`: `(ERR << 4) | (MID << 3) | (TREEV << 2) | PHASE` (10_state.md R29, 47_system.md R154). -/
def State.status (s : State) : Word :=
  ((errBits s.err).setWidth 32 <<< 4) ||| ((BitVec.ofBool s.mid).setWidth 32 <<< 3)
    ||| ((BitVec.ofBool s.treev).setWidth 32 <<< 2) ||| s.phase.bits.setWidth 32

/-- `PARAM`: `(CNTW << 8) | SYMW` (10_state.md R31, 47_system.md R154). -/
def State.paramWord (s : State) : Word := (zext32 s.param.cntw <<< 8) ||| zext32 s.param.symw

/-- The status register of number `x`, where there is one (10_state.md R30, 47_system.md R154). -/
def State.statusReg (s : State) : Nat → Option Word
  | 0 => some s.status
  | 1 => some (zext32 s.total)
  | 2 => some (zext32 s.nleaf)
  | 3 => some (zext32 s.nnode)
  | 4 => some (zext32 s.root)
  | 5 => some (zext32 s.cur)
  | 6 => some s.paramWord
  | _ => none

end Sys2Proof.Machine
end

