-- ==== Sys2Proof/Machine/Operands.lean ====
section
/-! DEFINITION. The operand forms as a command's rule meets them (30_encoding.md R61) and the reads of the arrays by
operand (20_memory.md R41 to R43). Form `N` has no operand; form `B` is a `Bool`, legal at both values. -/

namespace Sys2Proof.Machine

/-- Form `S`: a word whose operand is no symbol of the instance is illegal (30_encoding.md R61, R66), the first check
of every command with a symbol operand. From a decoded word this check always passes. -/
def withSymbol (sym : Nat) (s : State) (run : Outcome) : Outcome :=
  if sym < s.param.nsym then run else refuse .illegal s

/-- `FREQ[s]` (10_state.md R14, 20_memory.md R41). -/
def State.freqAt (s : State) (sym : Nat) : Nat := s.freq.getD sym 0

/-- The code-table entry of `s`, absent when `CODEV[s] = 0` (10_state.md R22, 20_memory.md R43). -/
def State.codeAt (s : State) (sym : Nat) : Option Code := s.code.getD sym none

/-- Form `X` for the four node reads: an index at or above `NNODE` names nothing (43_tree_builder.md R109,
60_exceptions.md R172). -/
def withNode (x : Nat) (s : State) (use : Node → Outcome) : Outcome :=
  if x < s.nnode then readNode x s use else refuse .range s

end Sys2Proof.Machine
end

