-- ==== Sys2Proof/Machine/Queue.lean ====
section
/-! DEFINITION. The min-priority queue (42_priority_queue.md). Its storage form is free as long as `extractMin` returns
the member R93 names (R96): here the members stand in ascending order of key. -/

namespace Sys2Proof.Machine

/-- The order of keys: frequency first, then node index (42_priority_queue.md R92, R93). -/
def Key.before (a b : Key) : Bool :=
  decide (a.freq < b.freq) || (decide (a.freq = b.freq) && decide (a.idx < b.idx))

/-- `PQ.clear()` (42_priority_queue.md R91). -/
def pqClear : List Key := []

/-- `PQ.insert(i)`, with the key of node `i` (42_priority_queue.md R92). -/
def pqInsert (k : Key) : List Key → List Key
  | [] => [k]
  | a :: q => if k.before a then k :: a :: q else a :: pqInsert k q

/-- `PQ.extractMin()`: the least member and the queue without it; nothing from the empty queue
(42_priority_queue.md R93). -/
def pqExtractMin : List Key → Option (Key × List Key)
  | [] => none
  | a :: q => some (a, q)

/-- `PQ.size` (42_priority_queue.md R94). -/
def pqSize (q : List Key) : Nat := q.length

end Sys2Proof.Machine
end

