-- ==== Sys2Proof/Machine/Builder.lean ====
section
/-! DEFINITION. The prefix-tree builder `BLD` and the node reads `RDNK`, `RDNF`, `RDNL`, `RDNR`
(43_tree_builder.md). -/

namespace Sys2Proof.Machine

/-- The working storage of `BLD`: the arena written so far and the queue (43_tree_builder.md R101). -/
structure Build where
  node : List Node
  pq : List Key
  deriving DecidableEq, Repr

/-- `NODE[k] <- nd ; PQ.insert(k)` for the next index `k` (43_tree_builder.md R101, 42_priority_queue.md R95). -/
def Build.add (b : Build) (nd : Node) : Build :=
  { node := b.node ++ [nd], pq := pqInsert ⟨nd.freq, b.node.length⟩ b.pq }

/-- The leaf of symbol `sym` (43_tree_builder.md R101 step 1). -/
def leafNode (freq sym : Nat) : Node := { kind := .leaf, freq := freq, sym := sym, left := 0, right := 0 }

/-- The internal node over `a`, removed first, and `b`, removed second (43_tree_builder.md R101 step 2, R103). A
member's frequency is that of its node, which is never rewritten while it is a member (42_priority_queue.md R92). -/
def internalNode (a b : Key) : Node :=
  { kind := .internal, freq := a.freq + b.freq, sym := 0, left := a.idx, right := b.idx }

/-- Step 1: one leaf per key of the map, in ascending symbol order, from symbol `sym` on (43_tree_builder.md R102). -/
def addLeaves : List Nat → Nat → Build → Build
  | [], _, b => b
  | f :: fs, sym, b => addLeaves fs (sym + 1) (if f ≠ 0 then b.add (leafNode f sym) else b)

/-- One pass of the loop of step 2, or nothing when fewer than two members remain (43_tree_builder.md R103). -/
def mergeOnce (b : Build) : Build :=
  match pqExtractMin b.pq with
  | none => b
  | some (x, q) =>
    match pqExtractMin q with
    | none => b
    | some (y, q') => Build.add { b with pq := q' } (internalNode x y)

/-- The loop of step 2. Each pass lowers `PQ.size` by one, so `PQ.size` passes are enough (43_tree_builder.md R104). -/
def mergeAll : Nat → Build → Build
  | 0, b => b
  | n + 1, b => if 1 < pqSize b.pq then mergeAll n (mergeOnce b) else b

/-- What `BLD` writes besides `CUR` and `PHASE`. -/
structure Built where
  node : List Node
  nleaf : Nat
  nnode : Nat
  root : Nat
  treev : Bool
  pq : List Key
  deriving DecidableEq, Repr

/-- What `BLD` builds, a function of `FREQ` and of nothing else (43_tree_builder.md R101, R113). The queue is empty
whenever `BLD` is admitted (42_priority_queue.md R91) and may be local to it (10_state.md R23). -/
def buildTree (freq : List Nat) : Built :=
  let b := addLeaves freq 0 { node := [], pq := pqClear }
  let k := b.node.length
  if k = 0 then
    { node := [], nleaf := 0, nnode := 0, root := 0, treev := false, pq := b.pq }
  else
    let m := mergeAll (pqSize b.pq) b
    { node := m.node, nleaf := k, nnode := m.node.length,
      root := match pqExtractMin m.pq with
        | some (r, _) => r.idx
        | none => 0
      treev := true, pq := m.pq }

/-- The tree is written and the decoder set to its root (43_tree_builder.md R101 step 3, R107). -/
def State.installTree (t : Built) (s : State) : State :=
  { s with
    node := t.node
    nleaf := t.nleaf
    nnode := t.nnode
    root := t.root
    treev := t.treev
    pq := t.pq
    cur := t.root }

/-- The phases that accept `BLD` (47_system.md R151). -/
def admBld : Phase → Bool
  | .count => true
  | .tree => false
  | .code => false

/-- `BLD` (43_tree_builder.md R101). -/
def execBld (s : State) : Outcome :=
  ifAdmitted admBld s <|
    respond .ok (zext32 (buildTree s.freq).nleaf) ((s.installTree (buildTree s.freq)).setPhase .tree)

/-- `(NODE[x].kind << 31) | zext_32(NODE[x].sym)` (43_tree_builder.md R109). -/
def Node.kindSym (nd : Node) : Word := (nd.kind.bit.setWidth 32 <<< 31) ||| zext32 nd.sym

/-- `RDNK x` (43_tree_builder.md R109). -/
def execRdnk (x : Nat) (s : State) : Outcome := withNode x s fun nd => respond .ok nd.kindSym s

/-- `RDNF x` (43_tree_builder.md R110). -/
def execRdnf (x : Nat) (s : State) : Outcome := withNode x s fun nd => respond .ok (zext32 nd.freq) s

/-- `RDNL x` (43_tree_builder.md R111). -/
def execRdnl (x : Nat) (s : State) : Outcome := withNode x s fun nd => respond .ok (zext32 nd.left) s

/-- `RDNR x` (43_tree_builder.md R112). -/
def execRdnr (x : Nat) (s : State) : Outcome := withNode x s fun nd => respond .ok (zext32 nd.right) s

end Sys2Proof.Machine
end

