-- ==== Sys2Proof/Machine/CodeTable.lean ====
section
/-! DEFINITION. The code-table derivation engine `DRV` and `RDL` (44_code_table.md). -/

namespace Sys2Proof.Machine

/-- `CODEV[s] <- 1 ; CLEN[s] <- len(p) ; CBITS[s] <- p` (44_code_table.md R116). -/
def writeCode (sym : Nat) (p : List Bool) (tbl : List (Option Code)) : List (Option Code) :=
  tbl.set sym (some { clen := p.length, cbits := p })

/-- The depth-first walk over a stack of pairs (node index, path so far), top first (44_code_table.md R116, R119). The
first argument bounds the pops: in a tree every node is popped once. -/
def walkTree (node : List Node) :
    Nat → List (Nat × List Bool) → List (Option Code) → Except Fault (List (Option Code))
  | _, [], tbl => .ok tbl
  | 0, _ :: _, _ => .error .notATree
  | n + 1, (i, p) :: stack, tbl =>
    match node[i]? with
    | none => .error .noValue
    | some nd =>
      match nd.kind with
      | .leaf => walkTree node n stack (writeCode nd.sym p tbl)
      | .internal => walkTree node n ((nd.left, p ++ [false]) :: (nd.right, p ++ [true]) :: stack) tbl

/-- The table `DRV` leaves, from the table it finds (44_code_table.md R116 to R118). -/
def deriveTable (node : List Node) (root : Nat) (treev : Bool) (tbl : List (Option Code)) :
    Except Fault (List (Option Code)) :=
  if treev then
    match node[root]? with
    | none => .error .noValue
    | some rt =>
      match rt.kind with
      | .leaf => .ok (writeCode rt.sym [true] tbl)
      | .internal => walkTree node node.length [(root, [])] tbl
  else .ok tbl

/-- The code table is written (44_code_table.md R116). -/
def State.installCode (tbl : List (Option Code)) (s : State) : State := { s with code := tbl }

/-- The phases that accept `DRV` (47_system.md R151). -/
def admDrv : Phase → Bool
  | .count => false
  | .tree => true
  | .code => false

/-- `DRV` (44_code_table.md R116). -/
def execDrv (s : State) : Outcome :=
  ifAdmitted admDrv s <|
    match deriveTable s.node s.root s.treev s.code with
    | .ok tbl => respond .ok (zext32 s.nleaf) ((s.installCode tbl).setPhase .code)
    | .error f => .fault f

/-- `RDL s` (44_code_table.md R120). -/
def execRdl (sym : Nat) (s : State) : Outcome :=
  withSymbol sym s <|
    match s.codeAt sym with
    | some c => respond .ok (zext32 c.clen) s
    | none => respond .ok 0 s

end Sys2Proof.Machine
end

