-- ==== Sys2Proof/Machine/Decoder.lean ====
section
/-! DEFINITION. The bit-stream decoder, the tree-walker: `DEC` and `FIN` (46_decoder.md). -/

namespace Sys2Proof.Machine

/-- The phases that accept `DEC` (47_system.md R151). -/
def admDec : Phase → Bool
  | .count => false
  | .tree => true
  | .code => true

/-- The phases that accept `FIN` (47_system.md R151). -/
def admFin : Phase → Bool
  | .count => false
  | .tree => true
  | .code => true

/-- `0x80000000 | zext_32(s)` (46_decoder.md R136, 30_encoding.md R74). -/
def symbolData (sym : Nat) : Word := 0x80000000 ||| zext32 sym

/-- The child a bit leads to (46_decoder.md R137). -/
def Node.child (nd : Node) (bit : Bool) : Nat := if bit then nd.right else nd.left

/-- One step of descent (46_decoder.md R137, R138). -/
def descend (bit : Bool) (s : State) : Outcome :=
  readNode s.cur s fun nd =>
    readNode (nd.child bit) s fun c =>
      match c.kind with
      | .leaf => respond .ok (symbolData c.sym) ((s.emitSym c.sym).setCur s.root)
      | .internal => respond .ok 0 (s.setCur (nd.child bit))

/-- `DEC b` (46_decoder.md R136, R139, R140). -/
def execDec (bit : Bool) (s : State) : Outcome :=
  ifAdmitted admDec s <|
    if s.treev then
      readNode s.root s fun rt =>
        match rt.kind with
        | .leaf => respond .ok (symbolData rt.sym) (s.emitSym rt.sym)
        | .internal => descend bit s
    else respond .ok 0 s

/-- `FIN` (46_decoder.md R141, R142). -/
def execFin (s : State) : Outcome :=
  ifAdmitted admFin s <| if s.mid then raise .trunc s else respond .ok 0 s

end Sys2Proof.Machine
end

