-- ==== Sys2Proof/Machine/Encoder.lean ====
section
/-! DEFINITION. The bit-stream encoder `ENC` (45_encoder.md). -/

namespace Sys2Proof.Machine

/-- The phases that accept `ENC` (47_system.md R151). -/
def admEnc : Phase → Bool
  | .count => false
  | .tree => false
  | .code => true

/-- `ENC s` (45_encoder.md R126, R128). -/
def execEnc (sym : Nat) (s : State) : Outcome :=
  withSymbol sym s <|
    ifAdmitted admEnc s <|
      match s.codeAt sym with
      | none => raise .consist s
      | some c => respond .ok (zext32 c.clen) (s.emitBits c.cbits)

end Sys2Proof.Machine
end

