-- ==== Sys2Proof/Machine/Frequency.lean ====
section
/-! DEFINITION. The frequency accumulator: `CNT` and `RDF` (41_frequency_counter.md). -/

namespace Sys2Proof.Machine

/-- The phases that accept `CNT` (47_system.md R151). -/
def admCnt : Phase → Bool
  | .count => true
  | .tree => false
  | .code => false

/-- `FREQ[s] <- FREQ[s] + 1 ; TOTAL <- TOTAL + 1` (41_frequency_counter.md R81). -/
def State.countSymbol (sym : Nat) (s : State) : State :=
  { s with freq := s.freq.set sym (s.freqAt sym + 1), total := s.total + 1 }

/-- `CNT s` (41_frequency_counter.md R81, R82). -/
def execCnt (sym : Nat) (s : State) : Outcome :=
  withSymbol sym s <|
    ifAdmitted admCnt s <|
      if s.total = s.param.cntMax then raise .cap s else respond .ok 0 (s.countSymbol sym)

/-- `RDF s` (41_frequency_counter.md R85). -/
def execRdf (sym : Nat) (s : State) : Outcome :=
  withSymbol sym s <| respond .ok (zext32 (s.freqAt sym)) s

end Sys2Proof.Machine
end

