-- ==== Sys2Proof/Machine/System.lean ====
section
/-! DEFINITION. The system commands `CLR`, `ABT`, `RDS` (47_system.md). -/

namespace Sys2Proof.Machine

/-- `CLR`, accepted in every phase and while halted (47_system.md R152). -/
def execClr (s : State) : Outcome := respond .ok 0 s.clear

/-- The phases that accept `ABT` (47_system.md R151, R153). -/
def admAbt : Phase → Bool
  | .count => true
  | .tree => true
  | .code => true

/-- `ABT` (47_system.md R153). -/
def execAbt (s : State) : Outcome := ifAdmitted admAbt s (raise .io s)

/-- `RDS x` (47_system.md R154). -/
def execRds (x : Nat) (s : State) : Outcome :=
  match s.statusReg x with
  | some v => respond .ok v s
  | none => refuse .range s

end Sys2Proof.Machine
end

