-- ==== Sys2Proof/Machine/Dispatch.lean ====
section
/-! DEFINITION. Executing a decoded command: one arm per constructor (30_encoding.md R65, R70). -/

namespace Sys2Proof.Machine

def exec (i : Instr) (s : State) : Host.Outcome State Fault Refusal :=
  match i with
  | .clr => Sys2Proof.Machine.execClr s
  | .cnt sym => Sys2Proof.Machine.execCnt sym s
  | .bld => Sys2Proof.Machine.execBld s
  | .drv => Sys2Proof.Machine.execDrv s
  | .enc sym => Sys2Proof.Machine.execEnc sym s
  | .dec bit => Sys2Proof.Machine.execDec bit s
  | .fin => Sys2Proof.Machine.execFin s
  | .abt => Sys2Proof.Machine.execAbt s
  | .rds idx => Sys2Proof.Machine.execRds idx s
  | .rdf sym => Sys2Proof.Machine.execRdf sym s
  | .rdl sym => Sys2Proof.Machine.execRdl sym s
  | .rdnk idx => Sys2Proof.Machine.execRdnk idx s
  | .rdnf idx => Sys2Proof.Machine.execRdnf idx s
  | .rdnl idx => Sys2Proof.Machine.execRdnl idx s
  | .rdnr idx => Sys2Proof.Machine.execRdnr idx s

end Sys2Proof.Machine
end

