-- ==== Sys2Proof/Machine/Ports.lean ====
section
/-! DEFINITION. The block's ports (20_memory.md R55, R56): what the output signals show, and what one rising edge of
`clk` does: a reset, a command transfer, an output transfer, or nothing. -/

namespace Sys2Proof.Machine

/-- The output signals (20_memory.md R55). A channel's `valid` is 1 exactly when its datum is there. -/
structure OutPins where
  cmdReady : Bool
  /-- `rsp_valid`, and with it `rsp_code` and `rsp_data`. -/
  rsp : Option Response
  /-- `bit_valid`, and with it `bit_data`. -/
  bit : Option Bool
  /-- `sym_valid`, and with it `sym_data`. -/
  sym : Option Nat
  deriving DecidableEq, Repr

/-- The output signals while `rst` has the given value: the next pending transfer is offered on its channel; with
none pending a command is accepted; while `rst` is 1 every one of them is 0 (20_memory.md R56). -/
def State.outPins (s : State) (rst : Bool) : OutPins :=
  if rst then { cmdReady := false, rsp := none, bit := none, sym := none }
  else
    match s.out with
    | [] => { cmdReady := true, rsp := none, bit := none, sym := none }
    | .bit b :: _ => { cmdReady := false, rsp := none, bit := some b, sym := none }
    | .sym x :: _ => { cmdReady := false, rsp := none, bit := none, sym := some x }
    | .rsp r :: _ => { cmdReady := false, rsp := some r, bit := none, sym := none }

/-- The `ready` of the channel a transfer is made on (20_memory.md R55). -/
def HostPins.takes (e : HostPins) : Transfer → Bool
  | .bit _ => e.bitReady
  | .sym _ => e.symReady
  | .rsp _ => e.rspReady

/-- The block accepts a command word: `decode` first, then the decoded command (30_encoding.md R70); an illegal word
is refused in every state (R66, 60_exceptions.md R170). -/
def runWord (w : Word) (s : State) : Outcome :=
  match decode s.param.symw w with
  | .error _ => refuse .illegal s
  | .ok i => exec i s

/-- One rising edge of `clk` with the host's pins `e` (20_memory.md R55, R56, 70_reset_and_hazards.md R190). -/
def clockEdge (e : HostPins) (s : State) : Outcome :=
  if e.rst then .next s.resetBlock
  else
    match s.out with
    | [] => if e.cmdValid then runWord e.cmdWord s else .next s
    | t :: ts => if e.takes t then .next (State.record { s with out := ts } t) else .next s

/-- The host offers a word and is ready on every output channel. -/
def HostPins.command (w : Word) : HostPins :=
  { rst := false, cmdValid := true, cmdWord := w, rspReady := true, bitReady := true, symReady := true }

/-- The host offers no word and is ready on every output channel. -/
def HostPins.idle : HostPins :=
  { rst := false, cmdValid := false, cmdWord := 0, rspReady := true, bitReady := true, symReady := true }

/-- The host asserts `rst`. -/
def HostPins.reset : HostPins :=
  { rst := true, cmdValid := false, cmdWord := 0, rspReady := false, bitReady := false, symReady := false }

/-- The pins at the next rising edge, before those already waiting. -/
def State.offer (e : HostPins) (s : State) : State := { s with input := e :: s.input }

/-- One step: the next rising edge; with no edge waiting the block keeps all its state (60_exceptions.md R180). Of
parameters that are no instance of this hardware no step is defined (00_scope.md R4, R5). -/
def stepEdge (s : State) : Outcome :=
  if s.param.legal then
    match s.input with
    | [] => .next s
    | e :: es => clockEdge e { s with input := es }
  else .fault .notAnInstance

end Sys2Proof.Machine
end

