-- ==== Sys2Proof/Machine/Step.lean ====
section
/-! DEFINITION. The step of the machine, and how a table word is placed where the step takes its next command. -/

namespace Sys2Proof.Machine

/-- One step: one rising edge of `clk` (20_memory.md R55). -/
def step (s : State) : Host.Outcome State Fault Refusal := stepEdge s

/-- The state in which the next step takes the command word `w`: the host has taken every pending transfer, since
until then `cmd_ready` is 0 (20_memory.md R56), and offers the word at the next rising edge. -/
def State.withFetchWord (s : State) (nbits w : Nat) : State :=
  s.deliver.offer (HostPins.command (tableWord nbits w))

end Sys2Proof.Machine
end

