-- ==== Sys2Proof/Machine/Session.lean ====
section
/-! DEFINITION. Transactions: a command word with all its outputs delivered, the spec's normative level
(20_memory.md R51, R52), runs of command words, and when a run is good (00_scope.md R12). -/

namespace Sys2Proof.Machine

/-- One transaction: the command runs, and the host takes all it emits and its response (20_memory.md R51). -/
def transact (w : Word) (s : State) : Outcome :=
  match runWord w s with
  | .next t => .next t.deliver
  | .fault f => .fault f
  | .refused r => .refused r

/-- The transactions of a list of words, in order, each to completion (20_memory.md R51). -/
def runWords : List Word → State → Outcome
  | [], s => .next s
  | w :: ws, s =>
    match transact w s with
    | .next t => runWords ws t
    | .fault f => .fault f
    | .refused r => .refused r

/-- The words of a list of commands (30_encoding.md R71). -/
def wordsOf (is : List Instr) : List Word := is.map encode

/-- The run answered `OK` throughout (30_encoding.md R69). -/
def allOk (rs : List Response) : Bool := rs.all fun r => decide (r.rc = .ok)

/-- From `s`, the words `ws` run and the last of them is a `FIN` that answers `OK`: the session is over, and good
(00_scope.md R12). -/
def GoodEnd (ws : List Word) (s t : State) : Prop :=
  runWords ws s = .next t ∧ ws.getLast? = some (encode .fin) ∧ (t.rspout.getLast?).map Response.rc = some .ok

/-- The session is over, and bad (00_scope.md R12). -/
def BadEnd (s : State) : Prop := s.halted = true

/-- The count pass over a symbol stream (30_encoding.md R72 `COUNT`). -/
def countPass (syms : List Nat) : List Instr := syms.map Instr.cnt

/-- The encode pass over a symbol stream (30_encoding.md R72 `ENCODE`). -/
def encodePass (syms : List Nat) : List Instr := syms.map Instr.enc

/-- The decode pass over a bit stream (30_encoding.md R72 `DECODE`). -/
def decodePass (bits : List Bool) : List Instr := bits.map Instr.dec

/-- The compress sequence (70_reset_and_hazards.md R192, 30_encoding.md R72 `COMPRESS`). -/
def compressSeq (syms : List Nat) : List Instr :=
  [.clr] ++ countPass syms ++ [.bld, .drv] ++ encodePass syms ++ [.fin]

/-- The decompress sequence over a reference stream (70_reset_and_hazards.md R193, 30_encoding.md R72 `EXPAND`). -/
def expandSeq (ref : List Nat) (bits : List Bool) : List Instr :=
  [.clr] ++ countPass ref ++ [.bld] ++ decodePass bits ++ [.fin]

end Sys2Proof.Machine
end

