-- ==== Sys2Proof/Safety.lean ====
section
/-! DEFINITION. The terms claims are stated in: the invariant of the block's state (10_state.md R32 to R35,
46_decoder.md R144), the admission table (47_system.md R151), paths in the tree, and the shape of a command's output. -/

namespace Sys2Proof.Machine

/-- The tree elements of the state, as `BLD` writes them. -/
def State.built (s : State) : Built :=
  { node := s.node, nleaf := s.nleaf, nnode := s.nnode, root := s.root, treev := s.treev, pq := s.pq }

/-- The tree elements before `BLD` (10_state.md R36). -/
def noBuilt : Built := { node := [], nleaf := 0, nnode := 0, root := 0, treev := false, pq := [] }

/-- The empty code table of an instance (10_state.md R36). -/
def emptyTable (p : Param) : List (Option Code) := List.replicate p.nsym none

/-- Where the decoder can stand (10_state.md R21, 46_decoder.md R144). -/
def CurOk (s : State) : Prop :=
  (s.treev = false → s.cur = 0) ∧
  (s.treev = true →
    (s.cur = s.root ∧ ∃ rt, s.node[s.root]? = some rt ∧ rt.kind = .leaf) ∨
    (∃ nd, s.node[s.cur]? = some nd ∧ nd.kind = .internal))

/-- The transfer is a response. -/
def Transfer.isRsp : Transfer → Bool
  | .bit _ => false
  | .sym _ => false
  | .rsp _ => true

/-- The pending transfers are those of one command: its emissions, then its one response (20_memory.md R56). -/
def OutOk (out : List Transfer) : Prop :=
  out = [] ∨ ∃ ems r, out = ems ++ [Transfer.rsp r] ∧ ∀ x ∈ ems, x.isRsp = false

/-- The invariant of the block: in every state it can reach from reset (10_state.md R32 to R35). -/
structure Inv (s : State) : Prop where
  /-- The state is one of an instance (00_scope.md R4, R5). -/
  legal : s.param.legal = true
  /-- `FREQ` has one entry per symbol (10_state.md R14). -/
  freqLength : s.freq.length = s.param.nsym
  /-- `TOTAL` is the sum of all `FREQ[s]` (10_state.md R15). -/
  totalSum : s.total = s.freq.sum
  /-- No frequency wraps (41_frequency_counter.md R82). -/
  totalBound : s.total ≤ s.param.cntMax
  /-- Before `BLD` there is no tree (10_state.md R36). -/
  beforeBuild : s.phase = .count → s.built = noBuilt
  /-- After `BLD` the tree is the one built from `FREQ` (10_state.md R35, 43_tree_builder.md R113). -/
  afterBuild : s.phase ≠ .count → s.built = buildTree s.freq
  /-- Before `DRV` the table is empty (10_state.md R34). -/
  beforeDerive : s.phase ≠ .code → s.code = emptyTable s.param
  /-- After `DRV` the table is the one derived from the tree (10_state.md R34, R35). -/
  afterDerive : s.phase = .code → deriveTable s.node s.root s.treev (emptyTable s.param) = .ok s.code
  /-- The decoder stands where R144 says. -/
  cursor : CurOk s
  /-- The output channels hold one command's transfers (20_memory.md R56). -/
  output : OutOk s.out

/-- The rows of the admission table: which phases ifAdmitted a command while `ERR = 0` (47_system.md R151). -/
def admissionTable : Instr → Phase → Bool
  | .clr, _ => true
  | .cnt _, p => decide (p = .count)
  | .bld, p => decide (p = .count)
  | .drv, p => decide (p = .tree)
  | .enc _, p => decide (p = .code)
  | .dec _, p => decide (p = .tree ∨ p = .code)
  | .fin, p => decide (p = .tree ∨ p = .code)
  | .abt, _ => true
  | .rds _, _ => true
  | .rdf _, _ => true
  | .rdl _, _ => true
  | .rdnk _, _ => true
  | .rdnf _, _ => true
  | .rdnl _, _ => true
  | .rdnr _, _ => true

/-- One of the seven read-back commands (60_exceptions.md R181). -/
def isRead : Instr → Bool
  | .clr => false
  | .cnt _ => false
  | .bld => false
  | .drv => false
  | .enc _ => false
  | .dec _ => false
  | .fin => false
  | .abt => false
  | .rds _ => true
  | .rdf _ => true
  | .rdl _ => true
  | .rdnk _ => true
  | .rdnf _ => true
  | .rdnl _ => true
  | .rdnr _ => true

/-- One of the seven commands the halted block turns away (47_system.md R155). -/
def isWork (i : Instr) : Bool := !isRead i && decide (i ≠ .clr)

/-- The index of a read names nothing (60_exceptions.md R172). -/
def outOfRange (s : State) : Instr → Bool
  | .clr => false
  | .cnt _ => false
  | .bld => false
  | .drv => false
  | .enc _ => false
  | .dec _ => false
  | .fin => false
  | .abt => false
  | .rds x => decide (6 < x)
  | .rdf _ => false
  | .rdl _ => false
  | .rdnk x => decide (s.nnode ≤ x)
  | .rdnf x => decide (s.nnode ≤ x)
  | .rdnl x => decide (s.nnode ≤ x)
  | .rdnr x => decide (s.nnode ≤ x)

/-- The fatal condition of a command that has passed every other check (60_exceptions.md R174). -/
def fatalCondition (s : State) : Instr → Option Fatal
  | .clr => none
  | .cnt _ => if s.total = s.param.cntMax then some .cap else none
  | .bld => none
  | .drv => none
  | .enc x => if s.codeAt x = none then some .consist else none
  | .dec _ => none
  | .fin => if s.treev = true ∧ s.cur ≠ s.root then some .trunc else none
  | .abt => some .io
  | .rds _ => none
  | .rdf _ => none
  | .rdl _ => none
  | .rdnk _ => none
  | .rdnf _ => none
  | .rdnl _ => none
  | .rdnr _ => none

/-- The response code of the command just run: that of the last transfer it queued. -/
def State.lastRc (s : State) : Option Rc :=
  match s.out.getLast? with
  | some (.rsp r) => some r.rc
  | some (.bit _) => none
  | some (.sym _) => none
  | none => none

/-- The node a path leads to, from node `i` down: 0 to the left child, 1 to the right child
(44_code_table.md R119). A path that goes on below a leaf leads nowhere. -/
def walkPath (node : List Node) : Nat → List Bool → Option Nat
  | i, [] => some i
  | i, b :: bs =>
    match node[i]? with
    | some nd =>
      match nd.kind with
      | .leaf => none
      | .internal => walkPath node (nd.child b) bs
    | none => none

/-- Node `j` is a child of node `i` (10_state.md R32). -/
def IsChild (node : List Node) (j i : Nat) : Prop :=
  ∃ nd, node[i]? = some nd ∧ nd.kind = .internal ∧ (nd.left = j ∨ nd.right = j)

/-- The key of a node (42_priority_queue.md R90): whether that of `i` is before that of `j`. -/
def KeyBefore (node : List Node) (i j : Nat) : Prop :=
  ∃ a b, node[i]? = some a ∧ node[j]? = some b ∧ (a.freq < b.freq ∨ (a.freq = b.freq ∧ i < j))

/-- Node `j` is the child of no node below `i`: the members of the queue when node `i` is created
(42_priority_queue.md R90, 43_tree_builder.md R103). -/
def FreeBefore (node : List Node) (j i : Nat) : Prop := ∀ m, m < i → ¬ IsChild node j m

/-- The host sends the encode pass over the stream it counted (70_reset_and_hazards.md R195). -/
def SameStream (counted encoded : List Nat) : Prop := counted = encoded

/-- The decode side counted a reference with the same symbol counts (70_reset_and_hazards.md R196). -/
def SameCounts (counted ref : List Nat) : Prop := counted.Perm ref

/-- The decode pass sends exactly the bits the encode pass delivered (70_reset_and_hazards.md R197). -/
def ExactBits (delivered sent : List Bool) : Prop := delivered = sent

end Sys2Proof.Machine
end

