-- ==== Sys2Proof/Certificates/Slice0/Obligations.lean ====
section
/-! DEFINITION. The statements for the provers, each from the numbered rules of spec/ it cites. -/

open Sys2Proof Sys2Proof.Machine

/-! ### Command words (30_encoding.md) -/

/-- Decoding the word of a well-formed command gives the command back, for every instance (R60, R61, R64, R71). -/
def Obligations.DecodeOfEncodeIsTheCommand : Prop :=
  ∀ (symw : Nat) (i : Instr), symw ≤ 16 → i.wellFormed symw = true → decode symw (encode i) = .ok i

/-- Every legal word is the word of the one command it decodes to, and that command is well-formed (R60, R61, R64). -/
def Obligations.EncodeOfDecodeIsTheWord : Prop :=
  ∀ (symw : Nat) (w : Word) (i : Instr), decode symw w = .ok i → encode i = w ∧ i.wellFormed symw = true

/-- R66: the illegal words are exactly those of the five cases of the rule; each is refused with `R_ILLEGAL` in every
state, before every other check, changing nothing; the all-zero and the all-ones word are among them. -/
def Obligations.IllegalWordsAreExactlyThese : Prop :=
  (∀ (symw : Nat) (w : Word),
    ((∃ e, decode symw w = .error e) ↔
      ((¬ (1 ≤ opField w ∧ opField w ≤ 8) ∧ ¬ (0x10 ≤ opField w ∧ opField w ≤ 0x13))
        ∨ zField w ≠ 0
        ∨ (subField w ≠ 0 ∧ opField w ≠ 0x13)
        ∨ (opField w = 0x13 ∧ 4 ≤ subField w)
        ∨ (opField w ∈ [0x01, 0x03, 0x04, 0x07, 0x08] ∧ argField w ≠ 0)
        ∨ (opField w ∈ [0x02, 0x05, 0x11, 0x12] ∧ 2 ^ symw ≤ argField w)
        ∨ (opField w = 0x06 ∧ 1 < argField w)))) ∧
  (∀ (w : Word) (s : State) (e : Illegal), decode s.param.symw w = .error e →
    runWord w s = .next (s.send [.rsp ⟨.refusal .illegal, 0⟩])) ∧
  (∀ symw, (∃ e, decode symw 0x00000000 = .error e) ∧ (∃ e, decode symw 0xFFFFFFFF = .error e))

/-- R65: in the default instance `(w & mask) = match`, with the masks of the column "default", alone decides which
command a word is; the operand is the rest of the word. -/
def Obligations.DefaultMasksDecideLegality : Prop :=
  ∀ w : Word,
    (decode 8 w = .ok .clr ↔ w &&& 0xFFFFFFFF = 0x01000000) ∧
    (∀ s, decode 8 w = .ok (.cnt s) ↔ w &&& 0xFFFFFF00 = 0x02000000 ∧ s = (w &&& 0xFF).toNat) ∧
    (decode 8 w = .ok .bld ↔ w &&& 0xFFFFFFFF = 0x03000000) ∧
    (decode 8 w = .ok .drv ↔ w &&& 0xFFFFFFFF = 0x04000000) ∧
    (∀ s, decode 8 w = .ok (.enc s) ↔ w &&& 0xFFFFFF00 = 0x05000000 ∧ s = (w &&& 0xFF).toNat) ∧
    (∀ b, decode 8 w = .ok (.dec b) ↔ w &&& 0xFFFFFFFE = 0x06000000 ∧ b = decide (w &&& 1 = 1)) ∧
    (decode 8 w = .ok .fin ↔ w &&& 0xFFFFFFFF = 0x07000000) ∧
    (decode 8 w = .ok .abt ↔ w &&& 0xFFFFFFFF = 0x08000000) ∧
    (∀ x, decode 8 w = .ok (.rds x) ↔ w &&& 0xFFFE0000 = 0x10000000 ∧ x = (w &&& 0x1FFFF).toNat) ∧
    (∀ s, decode 8 w = .ok (.rdf s) ↔ w &&& 0xFFFFFF00 = 0x11000000 ∧ s = (w &&& 0xFF).toNat) ∧
    (∀ s, decode 8 w = .ok (.rdl s) ↔ w &&& 0xFFFFFF00 = 0x12000000 ∧ s = (w &&& 0xFF).toNat) ∧
    (∀ x, decode 8 w = .ok (.rdnk x) ↔ w &&& 0xFFFE0000 = 0x13000000 ∧ x = (w &&& 0x1FFFF).toNat) ∧
    (∀ x, decode 8 w = .ok (.rdnf x) ↔ w &&& 0xFFFE0000 = 0x13100000 ∧ x = (w &&& 0x1FFFF).toNat) ∧
    (∀ x, decode 8 w = .ok (.rdnl x) ↔ w &&& 0xFFFE0000 = 0x13200000 ∧ x = (w &&& 0x1FFFF).toNat) ∧
    (∀ x, decode 8 w = .ok (.rdnr x) ↔ w &&& 0xFFFE0000 = 0x13300000 ∧ x = (w &&& 0x1FFFF).toNat)

/-- The words of 95_test_vectors.md section 2.1, one of each command, decode to the commands they stand for. -/
def Obligations.SpecWordsDecode : Prop :=
  decode 8 0x01000000 = .ok .clr ∧ decode 8 0x02000061 = .ok (.cnt 0x61) ∧
  decode 8 0x03000000 = .ok .bld ∧ decode 8 0x04000000 = .ok .drv ∧
  decode 8 0x05000062 = .ok (.enc 0x62) ∧ decode 8 0x06000001 = .ok (.dec true) ∧
  decode 8 0x07000000 = .ok .fin ∧ decode 8 0x08000000 = .ok .abt ∧
  decode 8 0x10000006 = .ok (.rds 6) ∧ decode 8 0x1100007A = .ok (.rdf 0x7A) ∧
  decode 8 0x12000063 = .ok (.rdl 0x63) ∧ decode 8 0x13000004 = .ok (.rdnk 4) ∧
  decode 8 0x13100004 = .ok (.rdnf 4) ∧ decode 8 0x13200004 = .ok (.rdnl 4) ∧
  decode 8 0x13300004 = .ok (.rdnr 4)

/-! ### Steps and ports (20_memory.md, 70_reset_and_hazards.md) -/

/-- At a rising edge with `rst = 0`, `cmd_valid = 1` and no transfer pending, a legal word is executed: the step is
`exec` of the decoded command, the edge being used up (R51, R56, R70; edges as a list: log entry 10). -/
def Obligations.StepRunsTheDecodedCommand : Prop :=
  ∀ (s : State) (e : HostPins) (es : List HostPins) (i : Instr),
    s.param.legal = true → s.input = e :: es → e.rst = false → e.cmdValid = true → s.out = [] →
    decode s.param.symw e.cmdWord = .ok i →
    step s = exec i { s with input := es }

/-- R170: an illegal word taken at a rising edge, in any state, is answered `R_ILLEGAL`, code 8, and nothing is
recorded (edges as a list: log entry 10). -/
def Obligations.IllegalWordStepIsRefused : Prop :=
  ∀ (s : State) (e : HostPins) (es : List HostPins) (r : Illegal),
    s.param.legal = true → s.input = e :: es → e.rst = false → e.cmdValid = true → s.out = [] →
    decode s.param.symw e.cmdWord = .error r →
    step s = .next { s with input := es, out := [.rsp ⟨.refusal .illegal, 0⟩] } ∧
    (Rc.refusal .illegal).code = 8

/-- R36, R152: the state after a reset, and after a `CLR` in any phase and while halted, element for element; the
hardwired `PARAM` and the histories are unchanged (edges as a list: log entry 10). -/
def Obligations.ResetAndClrGiveTheResetState : Prop :=
  (∀ (s : State) (e : HostPins) (es : List HostPins),
    s.param.legal = true → s.input = e :: es → e.rst = true →
    step s = .next { State.resetOf s.param with
      bitout := s.bitout, symout := s.symout, rspout := s.rspout, input := es }) ∧
  (∀ s : State,
    exec .clr s = .next { State.resetOf s.param with
      out := s.out ++ [.rsp ⟨.ok, 0⟩],
      bitout := s.bitout, symout := s.symout, rspout := s.rspout, input := s.input }) ∧
  (∀ p : Param, ∀ t, t = State.resetOf p →
    (∀ x, t.freqAt x = 0) ∧ t.total = 0 ∧ t.nleaf = 0 ∧ t.nnode = 0 ∧ t.root = 0 ∧ t.treev = false ∧ t.cur = 0 ∧
    (∀ x, t.codeAt x = none) ∧ t.pq = [] ∧ t.err = none ∧ t.phase = .count ∧ t.mid = false ∧ t.halted = false ∧
    (∀ x : Nat, t.node[x]? = none) ∧ t.param = p)

/-- R190: a reset abandons the command in flight: none of its pending transfers is made, whatever they are. -/
def Obligations.ResetDropsPendingTransfers : Prop :=
  ∀ (s : State) (e : HostPins) (es : List HostPins),
    s.param.legal = true → s.input = e :: es → e.rst = true →
    ∃ t, step s = .next t ∧ t.out = [] ∧ t.bitout = s.bitout ∧ t.symout = s.symout ∧ t.rspout = s.rspout

/-- R56: once `valid` is 1 it stays 1 with its data unchanged until the transfer: an edge at which the host is not
ready on the channel of the next pending transfer changes nothing; and at any edge without reset a command waits until
the response of the one in flight has been taken. -/
def Obligations.OfferedTransferIsHeld : Prop :=
  ∀ (s : State) (e : HostPins) (es : List HostPins) (x : Transfer) (xs : List Transfer),
    s.param.legal = true → s.input = e :: es → e.rst = false → s.out = x :: xs → e.takes x = false →
    step s = .next { s with input := es } ∧
    ({ s with input := es } : State).outPins false = s.outPins false ∧ (s.outPins false).cmdReady = false

/-- R44, R56: an edge at which the host is ready on the channel of the next pending transfer makes that transfer: its
datum is appended to the channel's history, and nothing else changes, whether or not a command is offered. -/
def Obligations.TakenTransferJoinsItsHistory : Prop :=
  ∀ (s : State) (e : HostPins) (es : List HostPins) (x : Transfer) (xs : List Transfer),
    s.param.legal = true → s.input = e :: es → e.rst = false → s.out = x :: xs → e.takes x = true →
    ∃ t, step s = .next t ∧
      t = { s with input := es, out := xs, bitout := t.bitout, symout := t.symout, rspout := t.rspout } ∧
      (∀ b, x = .bit b → t.bitout = s.bitout ++ [b] ∧ t.symout = s.symout ∧ t.rspout = s.rspout) ∧
      (∀ y, x = .sym y → t.symout = s.symout ++ [y] ∧ t.bitout = s.bitout ∧ t.rspout = s.rspout) ∧
      (∀ r, x = .rsp r → t.rspout = s.rspout ++ [r] ∧ t.bitout = s.bitout ∧ t.symout = s.symout)

/-- R55, R56: the output signals. While `rst` is 1 all of them are 0; otherwise `cmd_ready` is 1 exactly when no
transfer is pending, and at most one channel is valid, the one of the next pending transfer. R56 says only when
`cmd_ready` is 0 and in which order the transfers go. That `cmd_ready` is 1 as soon as none is pending, and a channel is
valid as soon as its transfer is the next, is the model's choice: the block takes no cycle of its own (log entry 9). -/
def Obligations.OutputPinsShowTheNextTransfer : Prop :=
  ∀ s : State,
    s.outPins true = { cmdReady := false, rsp := none, bit := none, sym := none } ∧
    ((s.outPins false).cmdReady = true ↔ s.out = []) ∧
    (∀ r, (s.outPins false).rsp = some r ↔ s.out.head? = some (.rsp r)) ∧
    (∀ b, (s.outPins false).bit = some b ↔ s.out.head? = some (.bit b)) ∧
    (∀ y, (s.outPins false).sym = some y ↔ s.out.head? = some (.sym y))

/-- R52, R56: a host that is ready on every channel receives all pending transfers, in order, one at each edge. The
count of edges is the model's choice (log entry 9), not the spec's. -/
def Obligations.ReadyHostDrainsAllTransfers : Prop :=
  ∀ (s : State) (es : List HostPins),
    s.param.legal = true → s.input = List.replicate s.out.length HostPins.idle ++ es →
    Host.Core.run Sys2Proof.core s.out.length s = .next { s.deliver with input := es } ∧
    s.deliver.bitout = s.bitout ++ s.out.filterMap Transfer.asBit ∧
    s.deliver.symout = s.symout ++ s.out.filterMap Transfer.asSym ∧
    s.deliver.rspout = s.rspout ++ s.out.filterMap Transfer.asRsp

/-- R44: the histories only grow: no step, a reset included, takes anything delivered back. -/
def Obligations.HistoriesOnlyGrow : Prop :=
  ∀ s t : State, step s = .next t → s.bitout <+: t.bitout ∧ s.symout <+: t.symout ∧ s.rspout <+: t.rspout

/-- R31: `PARAM` is hardwired: no step, a reset included, changes it. -/
def Obligations.InstanceNeverChanges : Prop := ∀ s t : State, step s = .next t → t.param = s.param

/-- Of parameters that are no instance of this hardware (R4, R5) no step is defined; that the machine then stops by
name is the model's choice (log entry 2). -/
def Obligations.ParametersOfNoInstanceStop : Prop :=
  ∀ s : State, ¬ (1 ≤ s.param.symw ∧ s.param.symw ≤ 16 ∧ 1 ≤ s.param.cntw ∧ s.param.cntw ≤ 32) →
    step s = .fault .notAnInstance

/-! ### Rules of the whole machine (47_system.md, 60_exceptions.md) -/

/-- R63: every word, legal or not, accepted or not, produces exactly one response, after whatever it emits. -/
def Obligations.OneResponsePerCommand : Prop :=
  ∀ (w : Word) (s : State), Inv s →
    ∃ t ems r, runWord w s = .next t ∧ t.out = s.out ++ ems ++ [.rsp r] ∧ ∀ x ∈ ems, x.isRsp = false

/-- R69: the codes of the responses, no other ever being returned, and which commands can answer each of them. -/
def Obligations.ResponseCodesAndWhoAnswersThem : Prop :=
  Rc.ok.code = 0 ∧ (Rc.error .io).code = 1 ∧ (Rc.error .consist).code = 2 ∧ (Rc.error .trunc).code = 3 ∧
  (Rc.error .cap).code = 4 ∧ (Rc.refusal .illegal).code = 8 ∧ (Rc.refusal .order).code = 9 ∧
  (Rc.refusal .range).code = 10 ∧ (Rc.refusal .halted).code = 11 ∧
  (∀ rc : Rc, rc.code.toNat ∈ [0, 1, 2, 3, 4, 8, 9, 10, 11]) ∧
  ∀ (i : Instr) (s t : State), exec i s = .next t →
    (t.lastRc = some (.error .io) → i = .abt) ∧
    (t.lastRc = some (.error .consist) → ∃ x, i = .enc x) ∧
    (t.lastRc = some (.error .trunc) → i = .fin) ∧
    (t.lastRc = some (.error .cap) → ∃ x, i = .cnt x) ∧
    (t.lastRc = some (.refusal .order) → i = .bld ∨ i = .drv ∨ i = .fin ∨
      (∃ x, i = .cnt x) ∨ (∃ x, i = .enc x) ∨ ∃ b, i = .dec b) ∧
    (t.lastRc = some (.refusal .range) → (∃ x, i = .rds x) ∨ (∃ x, i = .rdnk x) ∨ (∃ x, i = .rdnf x) ∨
      (∃ x, i = .rdnl x) ∨ ∃ x, i = .rdnr x) ∧
    (t.lastRc = some (.refusal .halted) → i = .bld ∨ i = .drv ∨ i = .fin ∨ i = .abt ∨
      (∃ x, i = .cnt x) ∨ (∃ x, i = .enc x) ∨ ∃ b, i = .dec b)

/-- R176: a command answered with a refusal changes no state and emits nothing; the datum is 0. -/
def Obligations.RefusalChangesNothing : Prop :=
  ∀ (i : Instr) (s t : State) (r : Reason), exec i s = .next t → t.lastRc = some (.refusal r) →
    t = s.send [.rsp ⟨.refusal r, 0⟩]

/-- R175: a command that raises a fatal error writes the code to `ERR` and changes nothing else; it emits nothing and
answers the code with the datum 0; the block is halted. -/
def Obligations.FatalErrorChangesOnlyErr : Prop :=
  ∀ (i : Instr) (s t : State) (e : Fatal), exec i s = .next t → t.lastRc = some (.error e) →
    t = { s with err := some e, out := s.out ++ [.rsp ⟨.error e, 0⟩] } ∧ t.halted = true

/-- R178: while the block is halted no command but `CLR` changes `ERR`, and none raises a fatal error: the commands
that could are refused with `R_HALTED`; a refusal while halted changes nothing. -/
def Obligations.FirstErrorIsKept : Prop :=
  ∀ (i : Instr) (s t : State), s.err ≠ none → i ≠ .clr → exec i s = .next t →
    t.err = s.err ∧ (∀ e, t.lastRc ≠ some (.error e)) ∧
    (isWork i = true → i.wellFormed s.param.symw = true → t.lastRc = some (.refusal .halted)) ∧
    ∀ r, t.lastRc = some (.refusal r) → t = s.send [.rsp ⟨.refusal r, 0⟩]

/-- R150: `PHASE` moves only from `PH_COUNT` to `PH_TREE` by a `BLD` that answers `OK`, from `PH_TREE` to `PH_CODE` by
a `DRV` that answers `OK`, and to `PH_COUNT` by `CLR`; `BLD` and `DRV` raise no fatal error. -/
def Obligations.PhaseMovesOnlyForward : Prop :=
  ∀ (i : Instr) (s t : State), exec i s = .next t →
    (t.phase ≠ s.phase →
      (i = .bld ∧ s.phase = .count ∧ t.phase = .tree ∧ t.lastRc = some .ok) ∨
      (i = .drv ∧ s.phase = .tree ∧ t.phase = .code ∧ t.lastRc = some .ok) ∨
      (i = .clr ∧ t.phase = .count ∧ t.lastRc = some .ok)) ∧
    (i = .bld ∨ i = .drv → ∀ e, t.lastRc ≠ some (.error e))

/-- R35, which the spec derives from R151: outside `PH_COUNT` no command but `CLR` changes the counts or the tree; in
`PH_CODE` none but `CLR` changes the code table; in `PH_TREE` only `DRV` does. -/
def Obligations.BuiltStructuresAreFrozen : Prop :=
  ∀ (i : Instr) (s t : State), exec i s = .next t → i ≠ .clr →
    (s.phase ≠ .count → t.freq = s.freq ∧ t.total = s.total ∧ t.built = s.built) ∧
    (s.phase = .code ∨ i ≠ .drv → t.code = s.code)

/-- From R151: with `ERR = 0` a legal command is refused with `R_ORDER`, changing nothing, in the phases the admission
table says; in the others no next state it answers carries a refusal, but for a read whose index names nothing. The
second part is less than R151's 'the command runs its Operation': which operation that is, each command's own statement
says, and that it answers a next state, `EveryStepAnswers`. -/
def Obligations.AdmissionTableHolds : Prop :=
  ∀ (i : Instr) (s : State), i.wellFormed s.param.symw = true → s.err = none →
    (admissionTable i s.phase = false → exec i s = .next (s.send [.rsp ⟨.refusal .order, 0⟩])) ∧
    (admissionTable i s.phase = true → ∀ t r, exec i s = .next t → t.lastRc = some (.refusal r) →
      r = .range ∧ isRead i = true)

/-- R155: with `ERR != 0` the seven working commands are refused with `R_HALTED` whatever the phase, and `CLR` and the
seven reads run as usual: as they would with `ERR = 0`, `RDS 0` alone showing the `ERR` it reads. -/
def Obligations.HaltedAdmission : Prop :=
  ∀ (i : Instr) (s : State), i.wellFormed s.param.symw = true → s.err ≠ none →
    (isWork i = true → exec i s = .next (s.send [.rsp ⟨.refusal .halted, 0⟩])) ∧
    (isWork i = false → ∀ t, exec i s = .next t → t.lastRc ≠ some (.refusal .halted)) ∧
    (i = .clr → exec i s = exec i { s with err := none }) ∧
    (isRead i = true → i ≠ .rds 0 → ∀ t, exec i { s with err := none } = .next t →
      exec i s = .next { t with err := s.err })

/-- R174: a command's response code is that of the first check that applies, in the fixed order; if none does, it is
`OK`. -/
def Obligations.FirstFailingCheckAnswers : Prop :=
  ∀ (w : Word) (s t : State), runWord w s = .next t →
    (∀ e, decode s.param.symw w = .error e → t.lastRc = some (.refusal .illegal)) ∧
    (∀ i, decode s.param.symw w = .ok i →
      t.lastRc = some
        (if isWork i = true ∧ s.err ≠ none then .refusal .halted
         else if admissionTable i s.phase = false then .refusal .order
         else if outOfRange s i = true then .refusal .range
         else match fatalCondition s i with
           | some e => .error e
           | none => .ok))

/-- R49, R181: the seven read-back commands change no state and emit nothing, and a second read answers the same. -/
def Obligations.ReadsChangeNothing : Prop :=
  ∀ (i : Instr) (s t : State), isRead i = true → exec i s = .next t →
    ∃ r, t = s.send [.rsp r] ∧ exec i t = .next (t.send [.rsp r])

/-! ### The frequency accumulator (41_frequency_counter.md) -/

/-- R81, R82: `CNT s`. An operand that is no symbol, a halted block, a wrong phase are refused; at `TOTAL = CNTMAX` it
raises `E_CAP` with the counts unchanged; otherwise it adds 1 to `FREQ[s]` and to `TOTAL` and changes nothing else.
The clause on an operand that no word carries is log entry 12. -/
def Obligations.CntCountsOneOccurrence : Prop :=
  ∀ (s : State) (sym : Nat),
    (¬ sym < s.param.nsym → exec (.cnt sym) s = .next (s.send [.rsp ⟨.refusal .illegal, 0⟩])) ∧
    (sym < s.param.nsym → s.err ≠ none → exec (.cnt sym) s = .next (s.send [.rsp ⟨.refusal .halted, 0⟩])) ∧
    (sym < s.param.nsym → s.err = none → s.phase ≠ .count →
      exec (.cnt sym) s = .next (s.send [.rsp ⟨.refusal .order, 0⟩])) ∧
    (sym < s.param.nsym → s.err = none → s.phase = .count → s.total = s.param.cntMax →
      exec (.cnt sym) s = .next { s with err := some .cap, out := s.out ++ [.rsp ⟨.error .cap, 0⟩] }) ∧
    (sym < s.param.nsym → s.err = none → s.phase = .count → s.total ≠ s.param.cntMax →
      s.freq.length = s.param.nsym →
      ∃ t, exec (.cnt sym) s = .next t ∧ t.freqAt sym = s.freqAt sym + 1 ∧
        (∀ x, x ≠ sym → t.freqAt x = s.freqAt x) ∧ t.freq.length = s.freq.length ∧
        t = { s with freq := t.freq, total := s.total + 1, out := s.out ++ [.rsp ⟨.ok, 0⟩] })

/-- R83, which the spec derives from R82: no frequency wraps: `TOTAL` stays the sum of all `FREQ[s]` and at most
`CNTMAX`, in every step of the block. -/
def Obligations.CountsNeverWrap : Prop :=
  ∀ s t : State, Inv s → step s = .next t →
    t.total = t.freq.sum ∧ t.total < 2 ^ t.param.cntw ∧ ∀ x, t.freqAt x ≤ t.total

/-- R85: `RDF s` answers `FREQ[s]` in every phase and while halted, and changes nothing. The clause on an operand that
no word carries is log entry 12. -/
def Obligations.RdfReadsTheCount : Prop :=
  ∀ (s : State) (sym : Nat),
    (¬ sym < s.param.nsym → exec (.rdf sym) s = .next (s.send [.rsp ⟨.refusal .illegal, 0⟩])) ∧
    (sym < s.param.nsym → exec (.rdf sym) s = .next (s.send [.rsp ⟨.ok, BitVec.ofNat 32 (s.freqAt sym)⟩]))

/-! ### The priority queue (42_priority_queue.md) -/

/-- R93: `extractMin` returns the member whose key is least in the lexicographic order, and removes it, whatever order
the members were inserted in; it returns nothing only from the empty queue. -/
def Obligations.ExtractMinTakesTheLeastKey : Prop :=
  ∀ ks : List Key, ks.Nodup →
    let q := ks.foldl (fun acc k => pqInsert k acc) pqClear
    pqSize q = ks.length ∧ (pqExtractMin q = none ↔ ks = []) ∧
    ∀ m rest, pqExtractMin q = some (m, rest) →
      m ∈ ks ∧ rest.Perm (ks.erase m) ∧
      ∀ k ∈ ks, k ≠ m → m.freq < k.freq ∨ (m.freq = k.freq ∧ m.idx < k.idx)

/-! ### The prefix-tree builder (43_tree_builder.md) -/

/-- R101: `BLD` runs in `PH_COUNT`, not halted: it writes the tree built from `FREQ`, sets `CUR` to `ROOT` and `PHASE`
to `PH_TREE`, answers `NLEAF`, and changes nothing else; otherwise it is refused. In states that no run reaches, with
a queue or an arena left over, this is log entry 5. -/
def Obligations.BldWritesTheTree : Prop :=
  ∀ s : State,
    (s.err ≠ none → exec .bld s = .next (s.send [.rsp ⟨.refusal .halted, 0⟩])) ∧
    (s.err = none → s.phase ≠ .count → exec .bld s = .next (s.send [.rsp ⟨.refusal .order, 0⟩])) ∧
    (s.err = none → s.phase = .count →
      ∃ t, exec .bld s = .next t ∧ t.built = buildTree s.freq ∧ t.cur = t.root ∧
        t = { s with
          node := t.node, nleaf := t.nleaf, nnode := t.nnode, root := t.root, treev := t.treev, pq := t.pq,
          cur := t.cur, phase := .tree, out := s.out ++ [.rsp ⟨.ok, BitVec.ofNat 32 t.nleaf⟩] })

/-- R102: the leaves are the keys of the map, one each, in ascending order of symbol value, and come first in the
arena; every later entry is an internal node. -/
def Obligations.LeavesAreTheKeysInOrder : Prop :=
  ∀ freq : List Nat,
    (buildTree freq).node.take (buildTree freq).nleaf =
      ((freq.zipIdx.filter fun p => decide (p.1 ≠ 0)).map fun p => leafNode p.1 p.2) ∧
    (buildTree freq).nleaf = (freq.filter fun c => decide (c ≠ 0)).length ∧
    ∀ (i : Nat) (nd : Node), (buildTree freq).node[i]? = some nd →
      (nd.kind = .leaf ↔ i < (buildTree freq).nleaf)

/-- R103: every internal node is made of the two lowest nodes then in the queue, in removal order: the first removed
is its left child, the second its right child, and its frequency is their sum. -/
def Obligations.MergeTakesTheTwoLeast : Prop :=
  ∀ (freq : List Nat) (i : Nat) (nd : Node),
    (buildTree freq).node[i]? = some nd → nd.kind = .internal →
    nd.left < i ∧ nd.right < i ∧ nd.sym = 0 ∧
    FreeBefore (buildTree freq).node nd.left i ∧ FreeBefore (buildTree freq).node nd.right i ∧
    KeyBefore (buildTree freq).node nd.left nd.right ∧
    (∀ j, j < i → FreeBefore (buildTree freq).node j i → j ≠ nd.left → j ≠ nd.right →
      KeyBefore (buildTree freq).node nd.right j) ∧
    (∀ a b, (buildTree freq).node[nd.left]? = some a → (buildTree freq).node[nd.right]? = some b →
      nd.freq = a.freq + b.freq)

/-- R108, which the spec derives from R101: the facts about the result of a `BLD` with `k = NLEAF >= 1`. -/
def Obligations.BuiltTreeHasTheShape : Prop :=
  ∀ (p : Param) (freq : List Nat) (k : Nat), freq.length = p.nsym → k = (buildTree freq).nleaf → 1 ≤ k →
    let t := buildTree freq
    t.treev = true ∧ t.nnode = 2 * k - 1 ∧ t.node.length = t.nnode ∧ t.root = t.nnode - 1 ∧
    (∀ (i : Nat) (nd : Node), t.node[i]? = some nd → (nd.kind = .leaf ↔ i < k)) ∧
    (∀ (i j : Nat) (a b : Node), i < j → j < k → t.node[i]? = some a → t.node[j]? = some b → a.sym < b.sym) ∧
    (∀ (i : Nat) (nd : Node), t.node[i]? = some nd → nd.kind = .internal → nd.left < i ∧ nd.right < i) ∧
    (∀ j, j < t.nnode → j ≠ t.root → ∃ i, IsChild t.node j i ∧ ∀ i', IsChild t.node j i' → i' = i) ∧
    (∀ (i : Nat) (nd : Node), t.node[i]? = some nd → nd.kind = .internal → nd.left ≠ nd.right) ∧
    (∀ i, ¬ IsChild t.node t.root i) ∧
    (∀ rt, t.node[t.root]? = some rt → rt.freq = freq.sum) ∧
    (∀ (path : List Bool) (j : Nat), walkPath t.node t.root path = some j → path.length ≤ k - 1) ∧
    k - 1 ≤ p.maxLen

/-- R33, and R105, which the spec derives from R82 and R33, for the bound by `CNTMAX`: while `TREEV = 1` every
internal node's frequency is the exact sum of its children's, every leaf's is its symbol's count and at least 1, the
root's is `TOTAL`, and none exceeds `CNTMAX`. -/
def Obligations.FrequenciesAreConserved : Prop :=
  ∀ s : State, Inv s → s.treev = true →
    (∀ (i : Nat) (nd : Node), s.node[i]? = some nd →
      1 ≤ nd.freq ∧ nd.freq ≤ s.param.cntMax ∧
      (nd.kind = .leaf → nd.freq = s.freqAt nd.sym ∧ nd.sym < s.param.nsym) ∧
      (nd.kind = .internal → ∃ a b, s.node[nd.left]? = some a ∧ s.node[nd.right]? = some b ∧
        nd.freq = a.freq + b.freq)) ∧
    ∃ rt, s.node[s.root]? = some rt ∧ rt.freq = s.total

/-- R106, R107: a map with no key gives no tree and `NLEAF = 0`; a map with one key gives the tree of one leaf. In
states that no run reaches, with a queue or an arena left over, this is log entry 5. -/
def Obligations.SmallMapsBuild : Prop :=
  (∀ s : State, s.err = none → s.phase = .count → (∀ c ∈ s.freq, c = 0) →
    exec .bld s = .next { s with
      node := [], nleaf := 0, nnode := 0, root := 0, treev := false, pq := [], cur := 0, phase := .tree,
      out := s.out ++ [.rsp ⟨.ok, 0⟩] }) ∧
  (∀ (s : State) (a b c : Nat), s.err = none → s.phase = .count → c ≠ 0 →
    s.freq = List.replicate a 0 ++ c :: List.replicate b 0 →
    exec .bld s = .next { s with
      node := [{ kind := .leaf, freq := c, sym := a, left := 0, right := 0 }],
      nleaf := 1, nnode := 1, root := 0, treev := true, pq := [{ freq := c, idx := 0 }], cur := 0, phase := .tree,
      out := s.out ++ [.rsp ⟨.ok, 1⟩] })

/-- R113, which the spec derives from R102 and R97: the result of `BLD` is a function of `FREQ` alone, and two
sessions that count the same multiset of symbols build identical arenas, whatever order the symbols arrived in
(transactions: log entry 19). In states that no run reaches, with a queue or an arena left over, the first part is log
entry 5. -/
def Obligations.TreeDependsOnlyOnTheCounts : Prop :=
  (∀ s u t v : State, s.err = none → u.err = none → s.phase = .count → u.phase = .count → s.freq = u.freq →
    exec .bld s = .next t → exec .bld u = .next v → t.built = v.built ∧ t.cur = v.cur) ∧
  (∀ (s u : State) (xs ys : List Nat), s.param.legal = true → u.param = s.param → s.out = [] → u.out = [] →
    (∀ x ∈ xs, x < s.param.nsym) → xs.length ≤ s.param.cntMax → xs.Perm ys →
    ∃ t v, runWords (wordsOf ([.clr] ++ countPass xs ++ [.bld])) s = .next t ∧
      runWords (wordsOf ([.clr] ++ countPass ys ++ [.bld])) u = .next v ∧
      t.freq = v.freq ∧ t.built = v.built)

/-- R109 to R112: the four node reads answer the field of `NODE[x]` they name, and refuse every `x >= NNODE` with
`R_RANGE`, in every phase and while halted. -/
def Obligations.NodeReadsAnswerTheField : Prop :=
  ∀ (s : State) (x : Nat),
    (s.nnode ≤ x →
      exec (.rdnk x) s = .next (s.send [.rsp ⟨.refusal .range, 0⟩]) ∧
      exec (.rdnf x) s = .next (s.send [.rsp ⟨.refusal .range, 0⟩]) ∧
      exec (.rdnl x) s = .next (s.send [.rsp ⟨.refusal .range, 0⟩]) ∧
      exec (.rdnr x) s = .next (s.send [.rsp ⟨.refusal .range, 0⟩])) ∧
    (∀ nd, x < s.nnode → s.node[x]? = some nd →
      exec (.rdnk x) s = .next (s.send [.rsp ⟨.ok,
        (if nd.kind = .internal then 0x80000000 else 0) ||| BitVec.ofNat 32 nd.sym⟩]) ∧
      exec (.rdnf x) s = .next (s.send [.rsp ⟨.ok, BitVec.ofNat 32 nd.freq⟩]) ∧
      exec (.rdnl x) s = .next (s.send [.rsp ⟨.ok, BitVec.ofNat 32 nd.left⟩]) ∧
      exec (.rdnr x) s = .next (s.send [.rsp ⟨.ok, BitVec.ofNat 32 nd.right⟩]))

/-! ### The code table (44_code_table.md) -/

/-- R116, R119, R34: `DRV` in `PH_TREE`, not halted, gives a code to exactly the keys of the map; with two leaves or
more the code of a symbol is the path from `ROOT` to its leaf; it moves to `PH_CODE`, answers `NLEAF` and changes
nothing else. -/
def Obligations.DrvWritesEveryPath : Prop :=
  ∀ s : State, Inv s → s.err = none → s.phase = .tree →
    ∃ t, exec .drv s = .next t ∧
      t = { s with code := t.code, phase := .code, out := s.out ++ [.rsp ⟨.ok, BitVec.ofNat 32 s.nleaf⟩] } ∧
      (∀ x, x < s.param.nsym → (t.codeAt x = none ↔ s.freqAt x = 0)) ∧
      (∀ x c, t.codeAt x = some c →
        c.clen = c.cbits.length ∧
        (s.nleaf = 1 → c.cbits = [true]) ∧
        (2 ≤ s.nleaf → ∃ j nd, walkPath s.node s.root c.cbits = some j ∧ s.node[j]? = some nd ∧
          nd.kind = .leaf ∧ nd.sym = x))

/-- R117, R118: on the single-leaf tree the one code is `"1"`; with no tree nothing is written; in both cases `DRV`
moves to `PH_CODE`. -/
def Obligations.DrvOnSmallTrees : Prop :=
  (∀ s : State, s.err = none → s.phase = .tree → s.treev = false → s.nleaf = 0 →
    exec .drv s = .next { s with phase := .code, out := s.out ++ [.rsp ⟨.ok, 0⟩] }) ∧
  (∀ (s : State) (rt : Node), s.err = none → s.phase = .tree → s.treev = true → s.node[s.root]? = some rt →
    rt.kind = .leaf → rt.sym < s.code.length →
    ∃ t, exec .drv s = .next t ∧
      t = { s with code := t.code, phase := .code, out := s.out ++ [.rsp ⟨.ok, BitVec.ofNat 32 s.nleaf⟩] } ∧
      t.codeAt rt.sym = some { clen := 1, cbits := [true] } ∧ ∀ x, x ≠ rt.sym → t.codeAt x = s.codeAt x)

/-- R116 Admission: `DRV` on a halted block is refused with `R_HALTED`, outside `PH_TREE` with `R_ORDER`. -/
def Obligations.DrvIsRefusedOutsideItsPhase : Prop :=
  ∀ s : State,
    (s.err ≠ none → exec .drv s = .next (s.send [.rsp ⟨.refusal .halted, 0⟩])) ∧
    (s.err = none → s.phase ≠ .tree → exec .drv s = .next (s.send [.rsp ⟨.refusal .order, 0⟩]))

/-- R122, which the spec derives from R116 and R32: for all pairs of distinct symbols in a built code table, neither
code begins with the other. -/
def Obligations.CodeTableIsPrefixFree : Prop :=
  ∀ (s : State) (x y : Nat) (c d : Code), Inv s → s.phase = .code → x ≠ y →
    s.codeAt x = some c → s.codeAt y = some d → ¬ c.cbits <+: d.cbits

/-- R123, which the spec derives from R108: bounds on the code lengths, and the upper bound is met. -/
def Obligations.CodeLengthsAreBounded : Prop :=
  (∀ (s : State) (x : Nat) (c : Code), Inv s → s.phase = .code → s.codeAt x = some c →
    1 ≤ c.clen ∧ c.clen ≤ max 1 (s.nleaf - 1) ∧ max 1 (s.nleaf - 1) ≤ s.param.maxLen ∧
    s.param.maxLen < 2 ^ s.param.symw) ∧
  (∃ tbl c, deriveTable (buildTree [1, 1, 2, 4]).node (buildTree [1, 1, 2, 4]).root true [none, none, none, none]
      = .ok tbl ∧ tbl.getD 0 none = some c ∧ (buildTree [1, 1, 2, 4]).nleaf = 4 ∧ c.clen = 3)

/-- R120: `RDL s` answers the code length of `s`, or 0 when it has no code, in every phase and while halted. The
clause on an operand that no word carries is log entry 12. -/
def Obligations.RdlReadsTheLength : Prop :=
  ∀ (s : State) (sym : Nat),
    (¬ sym < s.param.nsym → exec (.rdl sym) s = .next (s.send [.rsp ⟨.refusal .illegal, 0⟩])) ∧
    (sym < s.param.nsym → s.codeAt sym = none → exec (.rdl sym) s = .next (s.send [.rsp ⟨.ok, 0⟩])) ∧
    (∀ c, sym < s.param.nsym → s.codeAt sym = some c →
      exec (.rdl sym) s = .next (s.send [.rsp ⟨.ok, BitVec.ofNat 32 c.clen⟩]))

/-! ### The encoder (45_encoder.md) -/

/-- R126, R128, R130: `ENC s` emits all the bits of the code of `s`, first bit first, and answers its length, changing
no state; of a symbol with no code it raises `E_CONSIST` and emits nothing; otherwise it is refused. The clause on an
operand that no word carries is log entry 12. -/
def Obligations.EncEmitsTheCode : Prop :=
  ∀ (s : State) (sym : Nat),
    (¬ sym < s.param.nsym → exec (.enc sym) s = .next (s.send [.rsp ⟨.refusal .illegal, 0⟩])) ∧
    (sym < s.param.nsym → s.err ≠ none → exec (.enc sym) s = .next (s.send [.rsp ⟨.refusal .halted, 0⟩])) ∧
    (sym < s.param.nsym → s.err = none → s.phase ≠ .code →
      exec (.enc sym) s = .next (s.send [.rsp ⟨.refusal .order, 0⟩])) ∧
    (sym < s.param.nsym → s.err = none → s.phase = .code → s.codeAt sym = none →
      exec (.enc sym) s = .next { s with err := some .consist, out := s.out ++ [.rsp ⟨.error .consist, 0⟩] }) ∧
    (∀ c, sym < s.param.nsym → s.err = none → s.phase = .code → s.codeAt sym = some c →
      exec (.enc sym) s = .next { s with
        out := s.out ++ c.cbits.map Transfer.bit ++ [.rsp ⟨.ok, BitVec.ofNat 32 c.clen⟩] })

/-- R127: an encode pass over symbols that all have codes delivers the concatenation of their codes and nothing else,
one `OK` response each, and changes no other state (transactions: log entry 19). -/
def Obligations.EncodePassConcatenatesTheCodes : Prop :=
  ∀ (s : State) (xs : List Nat), s.param.legal = true → s.out = [] → s.err = none → s.phase = .code →
    (∀ x ∈ xs, x < s.param.nsym ∧ s.codeAt x ≠ none) →
    runWords (wordsOf (encodePass xs)) s = .next { s with
      bitout := s.bitout ++ xs.flatMap fun x => ((s.codeAt x).map Code.cbits).getD [],
      rspout := s.rspout ++ xs.map fun x => ⟨.ok, BitVec.ofNat 32 (((s.codeAt x).map Code.clen).getD 0)⟩ }

/-! ### The decoder (46_decoder.md) -/

/-- R136 Admission: `DEC b` on a halted block is refused with `R_HALTED`, in `PH_COUNT` with `R_ORDER`. -/
def Obligations.DecIsRefusedOutsideItsPhases : Prop :=
  ∀ (s : State) (b : Bool),
    (s.err ≠ none → exec (.dec b) s = .next (s.send [.rsp ⟨.refusal .halted, 0⟩])) ∧
    (s.err = none → s.phase = .count → exec (.dec b) s = .next (s.send [.rsp ⟨.refusal .order, 0⟩]))

/-- R139, R140: with no tree `DEC` emits nothing, changes nothing and answers `OK, 0`; on a single-leaf tree it emits
the one symbol, whichever the bit, and `CUR` stays. -/
def Obligations.DecOnSmallTrees : Prop :=
  ∀ (s : State) (b : Bool), s.err = none → s.phase ≠ .count →
    (s.treev = false → exec (.dec b) s = .next (s.send [.rsp ⟨.ok, 0⟩])) ∧
    (∀ rt, s.treev = true → s.node[s.root]? = some rt → rt.kind = .leaf →
      exec (.dec b) s = .next { s with
        out := s.out ++ [.sym rt.sym, .rsp ⟨.ok, 0x80000000 ||| BitVec.ofNat 32 rt.sym⟩] })

/-- R137, R138: one step of descent, 0 to the left child, 1 to the right child; landing on a leaf emits its symbol and
returns to the root in the same command; nothing but `CUR` is written. -/
def Obligations.DecDescendsOneEdge : Prop :=
  ∀ (s : State) (b : Bool) (rt nd c : Node) (nxt : Nat), s.err = none → s.phase ≠ .count → s.treev = true →
    s.node[s.root]? = some rt → rt.kind = .internal → s.node[s.cur]? = some nd →
    nxt = (if b = false then nd.left else nd.right) → s.node[nxt]? = some c →
    (c.kind = .leaf → exec (.dec b) s = .next { s with
      cur := s.root,
      out := s.out ++ [.sym c.sym, .rsp ⟨.ok, 0x80000000 ||| BitVec.ofNat 32 c.sym⟩] }) ∧
    (c.kind = .internal → exec (.dec b) s = .next { s with cur := nxt, out := s.out ++ [.rsp ⟨.ok, 0⟩] })

/-- R141, R142: `FIN` raises `E_TRUNC` exactly when the decoder is mid-code, and keeps `CUR`; otherwise it answers
`OK` and changes nothing. -/
def Obligations.FinDetectsTruncation : Prop :=
  ∀ s : State,
    (s.err ≠ none → exec .fin s = .next (s.send [.rsp ⟨.refusal .halted, 0⟩])) ∧
    (s.err = none → s.phase = .count → exec .fin s = .next (s.send [.rsp ⟨.refusal .order, 0⟩])) ∧
    (s.err = none → s.phase ≠ .count → s.treev = true ∧ s.cur ≠ s.root →
      exec .fin s = .next { s with err := some .trunc, out := s.out ++ [.rsp ⟨.error .trunc, 0⟩] }) ∧
    (s.err = none → s.phase ≠ .count → ¬ (s.treev = true ∧ s.cur ≠ s.root) →
      exec .fin s = .next (s.send [.rsp ⟨.ok, 0⟩]))

/-- R145, which the spec derives from R136 and R32: any sequence of `DEC` commands is accepted, from every state of
the block that has a tree with an internal root: all of them answer `OK`, one response each, and only `CUR` and the
histories change (transactions: log entry 19). -/
def Obligations.EveryBitStringDecodes : Prop :=
  ∀ (s : State) (rt : Node) (bits : List Bool), Inv s → s.out = [] → s.err = none → s.treev = true →
    s.node[s.root]? = some rt → rt.kind = .internal →
    ∃ t rs, runWords (wordsOf (decodePass bits)) s = .next t ∧
      t = { s with cur := t.cur, symout := t.symout, rspout := s.rspout ++ rs } ∧
      rs.length = bits.length ∧ allOk rs = true

/-- R146, which the spec derives from R126, R136 and R113: the round trip. Compressing a symbol stream and then giving
exactly the delivered bits to a session that counted the same multiset, or to the same session, recovers the stream,
with `OK` throughout (transactions: log entry 19; good ends: log entry 18). -/
def Obligations.DecodeOfEncodeIsTheStream : Prop :=
  ∀ (s u : State) (xs ref : List Nat), s.param.legal = true → u.param = s.param → s.out = [] → u.out = [] →
    (∀ x ∈ xs, x < s.param.nsym) → xs.length ≤ s.param.cntMax → SameCounts xs ref →
    ∃ t v y bits rs rs' rs'',
      GoodEnd (wordsOf (compressSeq xs)) s t ∧ t.bitout = s.bitout ++ bits ∧ t.symout = s.symout ∧
      t.rspout = s.rspout ++ rs ∧ allOk rs = true ∧
      GoodEnd (wordsOf (expandSeq ref bits)) u v ∧ v.symout = u.symout ++ xs ∧
      v.rspout = u.rspout ++ rs' ∧ allOk rs' = true ∧
      GoodEnd (wordsOf (decodePass bits ++ [.fin])) t y ∧ y.symout = t.symout ++ xs ∧
      y.rspout = t.rspout ++ rs'' ∧ allOk rs'' = true

/-! ### System commands (47_system.md) -/

/-- R153: `ABT` raises `E_IO` in every phase, changing nothing but `ERR`; on a halted block it is refused. -/
def Obligations.AbtRaisesIo : Prop :=
  ∀ s : State,
    (s.err = none → exec .abt s = .next { s with err := some .io, out := s.out ++ [.rsp ⟨.error .io, 0⟩] }) ∧
    (s.err ≠ none → exec .abt s = .next (s.send [.rsp ⟨.refusal .halted, 0⟩]))

/-- R154: `RDS x` answers status register `x`, 0 to 6, in every phase and while halted; above 6 it is refused with
`R_RANGE`; it changes nothing. In states that no run reaches, `RDS 4` and `RDS 5` while `TREEV = 0` are log entry 14.
-/
def Obligations.RdsReadsTheStatusRegisters : Prop :=
  ∀ s : State,
    exec (.rds 0) s = .next (s.send [.rsp ⟨.ok, BitVec.ofNat 32
      (16 * (match s.err with
        | none => 0
        | some .io => 1
        | some .consist => 2
        | some .trunc => 3
        | some .cap => 4)
      + 8 * (if s.treev = true ∧ s.cur ≠ s.root then 1 else 0)
      + 4 * (if s.treev = true then 1 else 0)
      + (match s.phase with
        | .count => 0
        | .tree => 1
        | .code => 2))⟩]) ∧
    exec (.rds 1) s = .next (s.send [.rsp ⟨.ok, BitVec.ofNat 32 s.total⟩]) ∧
    exec (.rds 2) s = .next (s.send [.rsp ⟨.ok, BitVec.ofNat 32 s.nleaf⟩]) ∧
    exec (.rds 3) s = .next (s.send [.rsp ⟨.ok, BitVec.ofNat 32 s.nnode⟩]) ∧
    exec (.rds 4) s = .next (s.send [.rsp ⟨.ok, BitVec.ofNat 32 s.root⟩]) ∧
    exec (.rds 5) s = .next (s.send [.rsp ⟨.ok, BitVec.ofNat 32 s.cur⟩]) ∧
    (s.param.legal = true →
      exec (.rds 6) s = .next (s.send [.rsp ⟨.ok, BitVec.ofNat 32 (256 * s.param.cntw + s.param.symw)⟩])) ∧
    ∀ x, 6 < x → exec (.rds x) s = .next (s.send [.rsp ⟨.refusal .range, 0⟩])

/-! ### The invariant of the block (10_state.md section 9) -/

/-- The reset state of every instance meets the invariant (R36). -/
def Obligations.ResetMeetsTheInvariant : Prop := ∀ p : Param, p.legal = true → Inv (State.resetOf p)

/-- R32 to R35, R144: every step keeps the invariant. -/
def Obligations.StepKeepsTheInvariant : Prop := ∀ s t : State, Inv s → step s = .next t → Inv t

/-- R70: every command, and every step, has an outcome that is a next state, in every state of the block. -/
def Obligations.EveryStepAnswers : Prop :=
  ∀ s : State, Inv s → (∃ t, step s = .next t) ∧ ∀ i : Instr, ∃ t, exec i s = .next t
end

