-- ==== Sys2Proof/Laws/Queue.lean ====
section
/-! SUPPORT. The queue keeps its canonical form (ascending keys), and each primitive says what it does to the members
(42_priority_queue.md R91 to R94). -/

namespace Sys2Proof.Machine

theorem Key.before_iff (a b : Key) :
    a.before b = true ↔ a.freq < b.freq ∨ (a.freq = b.freq ∧ a.idx < b.idx) := by
  simp [Key.before]

theorem Key.before_trans {a b c : Key} (h : a.before b = true) (h' : b.before c = true) : a.before c = true := by
  rw [Key.before_iff] at *
  omega

/-- Keys of distinct members are comparable (R90). -/
theorem Key.before_of_not {a b : Key} (h : ¬ a.before b = true) (hne : b ≠ a) : b.before a = true := by
  rw [Key.before_iff] at *
  rcases a with ⟨f, i⟩
  rcases b with ⟨g, j⟩
  simp only [ne_eq, Key.mk.injEq] at *
  omega

theorem Key.not_before_self (a : Key) : ¬ a.before a = true := by
  rw [Key.before_iff]
  omega

/-- The canonical form of the queue: ascending keys, so no member twice. -/
def PqSorted (q : List Key) : Prop := q.Pairwise fun a b => a.before b = true

theorem pqClear_sorted : PqSorted pqClear := List.Pairwise.nil

/-- `insert` adds the one member (R92). -/
theorem pqInsert_perm (k : Key) (q : List Key) : (pqInsert k q).Perm (k :: q) := by
  induction q with
  | nil => exact .refl _
  | cons a q ih =>
    unfold pqInsert
    split
    · exact .refl _
    · exact (ih.cons a).trans (.swap k a q)

theorem mem_pqInsert {k a : Key} {q : List Key} : a ∈ pqInsert k q ↔ a = k ∨ a ∈ q := by
  rw [(pqInsert_perm k q).mem_iff, List.mem_cons]

theorem pqSize_insert (k : Key) (q : List Key) : pqSize (pqInsert k q) = pqSize q + 1 := by
  simpa [pqSize] using (pqInsert_perm k q).length_eq

/-- `insert` keeps the canonical form. -/
theorem pqInsert_sorted {k : Key} {q : List Key} (h : PqSorted q) (hk : ∀ a ∈ q, a ≠ k) : PqSorted (pqInsert k q) := by
  induction q with
  | nil => exact List.pairwise_singleton _ _
  | cons a q ih =>
    obtain ⟨ha, hq⟩ := List.pairwise_cons.1 h
    unfold pqInsert
    split
    · refine List.pairwise_cons.2 ⟨fun b hb => ?_, h⟩
      rcases List.mem_cons.1 hb with rfl | hb
      · assumption
      · exact Key.before_trans ‹_› (ha b hb)
    · refine List.pairwise_cons.2 ⟨fun b hb => ?_, ih hq fun b hb => hk b (List.mem_cons_of_mem _ hb)⟩
      rcases mem_pqInsert.1 hb with rfl | hb
      · exact Key.before_of_not ‹_› (hk a List.mem_cons_self)
      · exact ha b hb

/-- `extractMin` takes the first of the ascending members: its key is before every other's (R93). -/
theorem pqExtractMin_spec {q rest : List Key} {m : Key} (h : PqSorted q) (hm : pqExtractMin q = some (m, rest)) :
    q = m :: rest ∧ PqSorted rest ∧ ∀ k ∈ rest, m.before k = true := by
  cases q with
  | nil => cases hm
  | cons a q =>
    cases hm
    obtain ⟨ha, hq⟩ := List.pairwise_cons.1 h
    exact ⟨rfl, hq, ha⟩

end Sys2Proof.Machine
end

