-- ==== Sys2Proof/Laws/Builder.lean ====
section
/-! SUPPORT. What `BLD` builds: the leaves of step 1, and the invariant of the merge loop (43_tree_builder.md R101 to
R108). -/

namespace Sys2Proof.Machine

/-! ### Step 1 -/

/-- The leaves of step 1, from symbol `sym` on (R102). -/
def leafList (freq : List Nat) (sym : Nat) : List Node :=
  ((freq.zipIdx sym).filter fun p => decide (p.1 ≠ 0)).map fun p => leafNode p.1 p.2

theorem leafList_cons (f : Nat) (fs : List Nat) (sym : Nat) :
    leafList (f :: fs) sym = if f ≠ 0 then leafNode f sym :: leafList fs (sym + 1) else leafList fs (sym + 1) := by
  unfold leafList
  rw [List.zipIdx_cons, List.filter_cons]
  by_cases h : f = 0 <;> simp [h]

/-- The members of the queue before any merge: one per node, with its frequency. -/
def allKeys (node : List Node) : List Key := node.zipIdx.map fun p => ⟨p.1.freq, p.2⟩

theorem allKeys_append (node : List Node) (nd : Node) :
    allKeys (node ++ [nd]) = allKeys node ++ [⟨nd.freq, node.length⟩] := by
  simp [allKeys, List.zipIdx_append]

theorem mem_allKeys {node : List Node} {k : Key} :
    k ∈ allKeys node ↔ ∃ nd, node[k.idx]? = some nd ∧ nd.freq = k.freq := by
  rcases k with ⟨f, i⟩
  simp only [allKeys, List.mem_map, Prod.exists, Key.mk.injEq, List.mk_mem_zipIdx_iff_getElem?]
  constructor
  · rintro ⟨nd, j, hj, hf, rfl⟩
    exact ⟨nd, hj, hf⟩
  · rintro ⟨nd, hj, hf⟩
    exact ⟨nd, i, hj, hf, rfl⟩

/-- The queue before any merge holds exactly the nodes, in canonical form. -/
structure Filled (b : Build) : Prop where
  sorted : PqSorted b.pq
  members : b.pq.Perm (allKeys b.node)

theorem Filled.add {b : Build} (h : Filled b) (nd : Node) : Filled (b.add nd) where
  sorted := by
    refine pqInsert_sorted h.sorted fun a ha hk => ?_
    subst hk
    obtain ⟨x, hx, -⟩ := mem_allKeys.1 (h.members.mem_iff.1 ha)
    simp at hx
  members := by
    refine (pqInsert_perm _ _).trans ?_
    show (_ :: b.pq).Perm (allKeys (b.node ++ [nd]))
    rw [allKeys_append]
    exact (h.members.cons _).trans (List.perm_append_singleton _ _).symm

/-- Step 1 appends the leaves and fills the queue (R102). -/
theorem addLeaves_spec (freq : List Nat) (sym : Nat) {b : Build} (h : Filled b) :
    (addLeaves freq sym b).node = b.node ++ leafList freq sym ∧ Filled (addLeaves freq sym b) := by
  induction freq generalizing sym b with
  | nil => simp [addLeaves, leafList, h]
  | cons f fs ih =>
    unfold addLeaves
    rw [leafList_cons]
    split
    · obtain ⟨h1, h2⟩ := ih (sym + 1) (h.add (leafNode f sym))
      exact ⟨by rw [h1]; simp [Build.add], h2⟩
    · exact ih (sym + 1) h

/-! ### Step 2 -/

theorem isChild_append {node : List Node} {nd : Node} {j i : Nat} (hi : i < node.length) :
    IsChild (node ++ [nd]) j i ↔ IsChild node j i := by
  simp only [IsChild, List.getElem?_append_left hi]

theorem isChild_lt {node : List Node} {j i : Nat} (h : IsChild node j i) : i < node.length := by
  obtain ⟨nd, hn, -⟩ := h
  exact (List.getElem?_eq_some_iff.1 hn).1

theorem freeBefore_append {node : List Node} {nd : Node} {j i : Nat} (hi : i ≤ node.length) :
    FreeBefore (node ++ [nd]) j i ↔ FreeBefore node j i := by
  refine forall_congr' fun m => imp_congr_right fun hm => not_congr ?_
  exact isChild_append (by omega)

theorem keyBefore_append {node : List Node} {nd : Node} {i j : Nat} (h : KeyBefore node i j) :
    KeyBefore (node ++ [nd]) i j := by
  obtain ⟨a, b, ha, hb, hab⟩ := h
  refine ⟨a, b, ?_, ?_, hab⟩
  · rw [List.getElem?_append_left (List.getElem?_eq_some_iff.1 ha).1, ha]
  · rw [List.getElem?_append_left (List.getElem?_eq_some_iff.1 hb).1, hb]

/-- What the merge that creates node `i` does: it joins the two least of the nodes then in the queue (R103). -/
structure Merged (node : List Node) (i : Nat) (nd : Node) : Prop where
  leftLt : nd.left < i
  rightLt : nd.right < i
  symZero : nd.sym = 0
  leftFree : FreeBefore node nd.left i
  rightFree : FreeBefore node nd.right i
  order : KeyBefore node nd.left nd.right
  least : ∀ j, j < i → FreeBefore node j i → j ≠ nd.left → j ≠ nd.right → KeyBefore node nd.right j
  sum : ∃ a b, node[nd.left]? = some a ∧ node[nd.right]? = some b ∧ nd.freq = a.freq + b.freq

theorem Merged.append {node : List Node} {i : Nat} {nd : Node} (h : Merged node i nd) (hi : i ≤ node.length)
    (new : Node) : Merged (node ++ [new]) i nd where
  leftLt := h.leftLt
  rightLt := h.rightLt
  symZero := h.symZero
  leftFree := (freeBefore_append hi).2 h.leftFree
  rightFree := (freeBefore_append hi).2 h.rightFree
  order := keyBefore_append h.order
  least := fun j hj hf h1 h2 => keyBefore_append (h.least j hj ((freeBefore_append hi).1 hf) h1 h2)
  sum := by
    obtain ⟨a, b, ha, hb, hs⟩ := h.sum
    refine ⟨a, b, ?_, ?_, hs⟩
    · rw [List.getElem?_append_left (List.getElem?_eq_some_iff.1 ha).1, ha]
    · rw [List.getElem?_append_left (List.getElem?_eq_some_iff.1 hb).1, hb]

/-- The invariant of the loop of step 2 over the leaves `ls`: the queue holds exactly the nodes that are no child yet
(R90, R95), and every internal node is a merge of the two least (R103). -/
structure Forest (ls : List Node) (b : Build) : Prop where
  leaves : ∃ rest, b.node = ls ++ rest ∧ ∀ nd ∈ rest, nd.kind = .internal
  leafKind : ∀ nd ∈ ls, nd.kind = .leaf
  sorted : PqSorted b.pq
  members : ∀ k : Key, k ∈ b.pq ↔
    (∃ nd, b.node[k.idx]? = some nd ∧ nd.freq = k.freq) ∧ ∀ m, ¬ IsChild b.node k.idx m
  oneParent : ∀ j m m', IsChild b.node j m → IsChild b.node j m' → m = m'
  merged : ∀ (i : Nat) (nd : Node), b.node[i]? = some nd → nd.kind = .internal → Merged b.node i nd
  total : (b.pq.map Key.freq).sum = (ls.map Node.freq).sum
  count : b.node.length + b.pq.length = 2 * ls.length

theorem sum_freq_allKeys (node : List Node) : ((allKeys node).map Key.freq).sum = (node.map Node.freq).sum := by
  have h : (allKeys node).map Key.freq = node.map Node.freq := by
    rw [allKeys, List.map_map]
    have : (Key.freq ∘ fun p : Node × Nat => (⟨p.1.freq, p.2⟩ : Key)) = Node.freq ∘ Prod.fst := rfl
    rw [this, ← List.map_map, List.zipIdx_map_fst]
  rw [h]

/-- Before any merge the invariant holds. -/
theorem Filled.forest {b : Build} (h : Filled b) (hl : ∀ nd ∈ b.node, nd.kind = .leaf) : Forest b.node b := by
  have noChild : ∀ j m, ¬ IsChild b.node j m := by
    rintro j m ⟨nd, hn, hk, -⟩
    rw [hl nd (List.mem_of_getElem? hn)] at hk
    cases hk
  exact
    { leaves := ⟨[], by simp, by simp⟩
      leafKind := hl
      sorted := h.sorted
      members := fun k => by
        rw [h.members.mem_iff, mem_allKeys]
        exact ⟨fun hk => ⟨hk, noChild _⟩, And.left⟩
      oneParent := fun j m _ hj => absurd hj (noChild j m)
      merged := fun i nd hn hk => by
        rw [hl nd (List.mem_of_getElem? hn)] at hk
        cases hk
      total := by rw [(h.members.map Key.freq).sum_eq, sum_freq_allKeys]
      count := by
        have := h.members.length_eq
        simp [allKeys] at this
        omega }

/-- One pass of the loop keeps the invariant and lowers the queue's size by one (R104). -/
theorem Forest.mergeOnce {ls : List Node} {b : Build} (h : Forest ls b) (h2 : 1 < pqSize b.pq) :
    Forest ls (mergeOnce b) ∧ pqSize (mergeOnce b).pq + 1 = pqSize b.pq := by
  obtain ⟨node, pq⟩ := b
  match pq, h, h2 with
  | x :: y :: q, h, _ =>
    obtain ⟨hx, hsq⟩ := List.pairwise_cons.1 h.sorted
    obtain ⟨hy, hq⟩ := List.pairwise_cons.1 hsq
    obtain ⟨⟨nx, hnx, hfx⟩, hcx⟩ := (h.members x).1 (by simp)
    obtain ⟨⟨ny, hny, hfy⟩, hcy⟩ := (h.members y).1 (by simp)
    have hxy : x.before y = true := hx y (by simp)
    have lx := (List.getElem?_eq_some_iff.1 hnx).1
    have ly := (List.getElem?_eq_some_iff.1 hny).1
    simp only at hnx hny hcx hcy lx ly
    have hne : x.idx ≠ y.idx := by
      intro he
      rw [he, hny] at hnx
      cases hnx
      rw [Key.before_iff] at hxy
      omega
    set new := internalNode x y with hnew
    have eq : Machine.mergeOnce ⟨node, x :: y :: q⟩ = ⟨node ++ [new], pqInsert ⟨new.freq, node.length⟩ q⟩ := rfl
    have bounded : ∀ (i : Nat) (nd : Node), node[i]? = some nd → nd.kind = .internal → nd.left < node.length ∧ nd.right < node.length := by
      intro i nd hn hk
      have hi := (List.getElem?_eq_some_iff.1 hn).1
      have hm := h.merged i nd hn hk
      have := hm.leftLt
      have := hm.rightLt
      omega
    -- a child of the new arena is a child of the old one, or one of the two merged
    have child : ∀ j m, IsChild (node ++ [new]) j m ↔
        IsChild node j m ∨ (m = node.length ∧ (j = x.idx ∨ j = y.idx)) := by
      intro j m
      rcases Nat.lt_trichotomy m node.length with hm | hm | hm
      · rw [isChild_append hm]
        constructor
        · exact .inl
        · rintro (hj | ⟨rfl, -⟩)
          · exact hj
          · omega
      · subst hm
        constructor
        · rintro ⟨nd, hn, hk, hj⟩
          simp at hn
          subst hn
          exact .inr ⟨rfl, hj.imp Eq.symm Eq.symm⟩
        · rintro (hj | ⟨-, hj⟩)
          · exact absurd (isChild_lt hj) (by simp)
          · exact ⟨new, by simp, rfl, hj.imp Eq.symm Eq.symm⟩
      · constructor
        · intro hj
          have := isChild_lt hj
          simp at this
          omega
        · rintro (hj | ⟨rfl, -⟩)
          · have := isChild_lt hj
            omega
          · omega
    have notNew : ∀ m, ¬ IsChild node node.length m := by
      rintro m ⟨nd, hn, hk, hj⟩
      have := bounded m nd hn hk
      omega
    have idxNe : ∀ k ∈ q, k.idx ≠ x.idx ∧ k.idx ≠ y.idx := by
      intro k hk
      obtain ⟨⟨nk, hnk, hfk⟩, -⟩ := (h.members k).1 (by simp [hk])
      have b1 := hx k (by simp [hk])
      have b2 := hy k hk
      rw [Key.before_iff] at b1 b2
      simp only at hnk
      constructor <;> intro he
      · rw [he, hnx] at hnk
        cases hnk
        omega
      · rw [he, hny] at hnk
        cases hnk
        omega
    have freeOld : ∀ j, FreeBefore (node ++ [new]) j node.length ↔ ∀ m, ¬ IsChild node j m := by
      intro j
      rw [freeBefore_append (Nat.le_refl _)]
      constructor
      · intro hf m hc
        exact hf m (isChild_lt hc) hc
      · exact fun hf m _ => hf m
    have keyOf : ∀ (k : Key) (nd : Node), node[k.idx]? = some nd → (node ++ [new])[k.idx]? = some nd := by
      intro k nd hn
      rw [List.getElem?_append_left (List.getElem?_eq_some_iff.1 hn).1, hn]
    refine ⟨?_, ?_⟩
    · rw [eq]
      exact
        { leaves := by
            obtain ⟨rest, hr, hk⟩ := h.leaves
            simp only at hr
            refine ⟨rest ++ [new], by simp [hr], fun nd hnd => ?_⟩
            rcases List.mem_append.1 hnd with hnd | hnd
            · exact hk nd hnd
            · rw [List.mem_singleton.1 hnd]
              rfl
          leafKind := h.leafKind
          sorted := by
            refine pqInsert_sorted hq fun a ha he => ?_
            obtain ⟨⟨na, hna, -⟩, -⟩ := (h.members a).1 (by simp [ha])
            subst he
            simp at hna
          members := by
            intro k
            simp only [mem_pqInsert, child]
            constructor
            · rintro (rfl | hk)
              · refine ⟨⟨new, by simp, rfl⟩, ?_⟩
                rintro m (hc | ⟨-, hj | hj⟩)
                · exact notNew m hc
                · simp only at hj
                  omega
                · simp only at hj
                  omega
              · obtain ⟨⟨nk, hnk, hfk⟩, hck⟩ := (h.members k).1 (by simp [hk])
                refine ⟨⟨nk, keyOf k nk hnk, hfk⟩, ?_⟩
                have := idxNe k hk
                rintro m (hc | ⟨-, hj | hj⟩)
                · exact hck m hc
                · exact this.1 hj
                · exact this.2 hj
            · rintro ⟨⟨nk, hnk, hfk⟩, hc⟩
              rcases Nat.lt_trichotomy k.idx node.length with hl | hl | hl
              · rw [List.getElem?_append_left hl] at hnk
                have hmem := (h.members k).2 ⟨⟨nk, hnk, hfk⟩, fun m hm => hc m (.inl hm)⟩
                rcases List.mem_cons.1 hmem with rfl | hmem
                · exact absurd (.inr ⟨rfl, .inl rfl⟩) (hc node.length)
                rcases List.mem_cons.1 hmem with rfl | hmem
                · exact absurd (.inr ⟨rfl, .inr rfl⟩) (hc node.length)
                exact .inr hmem
              · left
                rcases k with ⟨f, i⟩
                simp only at hl hnk hfk
                subst hl
                simp at hnk
                subst hnk
                rw [hfk]
              · have := (List.getElem?_eq_some_iff.1 hnk).1
                simp at this
                omega
          oneParent := by
            intro j m m' hm hm'
            simp only [child] at hm hm'
            rcases hm with hm | ⟨rfl, hj⟩ <;> rcases hm' with hm' | ⟨rfl, hj'⟩
            · exact h.oneParent j m m' hm hm'
            · rcases hj' with rfl | rfl
              · exact absurd hm (hcx m)
              · exact absurd hm (hcy m)
            · rcases hj with rfl | rfl
              · exact absurd hm' (hcx m')
              · exact absurd hm' (hcy m')
            · rfl
          merged := by
            intro i nd hn hk
            rcases Nat.lt_trichotomy i node.length with hi | hi | hi
            · rw [List.getElem?_append_left hi] at hn
              exact (h.merged i nd hn hk).append (Nat.le_of_lt hi) new
            · subst hi
              simp at hn
              subst hn
              exact
                { leftLt := lx
                  rightLt := ly
                  symZero := rfl
                  leftFree := (freeOld _).2 hcx
                  rightFree := (freeOld _).2 hcy
                  order := by
                    refine ⟨nx, ny, keyOf x nx hnx, keyOf y ny hny, ?_⟩
                    rw [Key.before_iff] at hxy
                    rw [hfx, hfy]
                    exact hxy
                  least := by
                    intro j hj hf h1 h2
                    have hnj : node[j]? = some node[j] := List.getElem?_eq_getElem hj
                    have hmem := (h.members ⟨node[j].freq, j⟩).2 ⟨⟨_, hnj, rfl⟩, (freeOld j).1 hf⟩
                    rcases List.mem_cons.1 hmem with he | hmem
                    · exact absurd (congrArg Key.idx he) h1
                    rcases List.mem_cons.1 hmem with he | hmem
                    · exact absurd (congrArg Key.idx he) h2
                    have := hy _ hmem
                    rw [Key.before_iff] at this
                    refine ⟨ny, node[j], keyOf y ny hny, keyOf ⟨node[j].freq, j⟩ _ hnj, ?_⟩
                    rw [hfy]
                    exact this
                  sum := ⟨nx, ny, keyOf x nx hnx, keyOf y ny hny, by rw [hfx, hfy]; rfl⟩ }
            · have := (List.getElem?_eq_some_iff.1 hn).1
              simp at this
              omega
          total := by
            have h1 := h.total
            rw [((pqInsert_perm _ q).map Key.freq).sum_eq]
            simp only [List.map_cons, List.sum_cons] at h1 ⊢
            have : new.freq = x.freq + y.freq := rfl
            omega
          count := by
            have h1 := h.count
            have := pqSize_insert ⟨new.freq, node.length⟩ q
            simp only [pqSize, List.length_cons, List.length_append, List.length_nil] at h1 this ⊢
            omega }
    · rw [eq]
      have := pqSize_insert ⟨new.freq, node.length⟩ q
      simp only [pqSize, List.length_cons] at this ⊢
      omega

/-- The loop keeps the invariant and, given enough passes, ends with at most one member (R104). -/
theorem Forest.mergeAll {ls : List Node} (n : Nat) {b : Build} (h : Forest ls b) (hn : pqSize b.pq ≤ n) :
    Forest ls (mergeAll n b) ∧ pqSize (mergeAll n b).pq ≤ 1 ∧ (0 < pqSize b.pq → 0 < pqSize (mergeAll n b).pq) := by
  induction n generalizing b with
  | zero => exact ⟨h, by simp only [Machine.mergeAll]; omega, id⟩
  | succ n ih =>
    unfold Machine.mergeAll
    split
    · obtain ⟨hf, hs⟩ := h.mergeOnce ‹_›
      obtain ⟨h1, h2, h3⟩ := ih hf (by omega)
      exact ⟨h1, h2, fun _ => h3 (by omega)⟩
    · exact ⟨h, by omega, id⟩

/-! ### The result -/

/-- What `BLD` has built when the map has a key (R108). -/
structure TreeOf (freq : List Nat) (t : Built) : Prop where
  forest : Forest (leafList freq 0) { node := t.node, pq := t.pq }
  nleaf : t.nleaf = (leafList freq 0).length
  nnode : t.nnode = t.node.length
  size : t.node.length = 2 * t.nleaf - 1
  root : t.root = t.node.length - 1
  treev : t.treev = true
  single : ∃ k, t.pq = [k] ∧ k.idx = t.root

theorem leafList_kind {freq : List Nat} {sym : Nat} {nd : Node} (h : nd ∈ leafList freq sym) : nd.kind = .leaf := by
  simp only [leafList, List.mem_map] at h
  obtain ⟨p, -, rfl⟩ := h
  rfl

/-- The root of a forest with one member in its queue is the last node: every other node has a parent above it. -/
theorem Forest.root_eq {ls : List Node} {b : Build} {k : Key} (h : Forest ls b) (hk : b.pq = [k]) :
    k.idx = b.node.length - 1 := by
  have hmem : ∀ a, a ∈ b.pq ↔ a = k := by simp [hk]
  obtain ⟨⟨nk, hnk, -⟩, -⟩ := (h.members k).1 (by simp [hk])
  have hlt := (List.getElem?_eq_some_iff.1 hnk).1
  have hlast : b.node[b.node.length - 1]? = some b.node[b.node.length - 1] := List.getElem?_eq_getElem (by omega)
  have := (h.members ⟨b.node[b.node.length - 1].freq, b.node.length - 1⟩).2
    ⟨⟨_, hlast, rfl⟩, fun m hm => by
      have hml := isChild_lt hm
      obtain ⟨nd, hn, hki, hj⟩ := hm
      have hg := h.merged m nd hn hki
      have := hg.leftLt
      have := hg.rightLt
      simp only at hj
      omega⟩
  rw [hmem] at this
  rw [← this]

/-- With no key nothing is built (R107). -/
theorem buildTree_of_no_key {freq : List Nat} (h : leafList freq 0 = []) : buildTree freq = noBuilt := by
  obtain ⟨h1, h2⟩ := addLeaves_spec freq 0 (b := { node := [], pq := pqClear }) ⟨pqClear_sorted, .refl _⟩
  have hnode : (addLeaves freq 0 { node := [], pq := pqClear }).node = [] := by rw [h1, h]; rfl
  have hpq : (addLeaves freq 0 { node := [], pq := pqClear }).pq = [] := by
    have := h2.members
    rw [hnode] at this
    exact this.eq_nil
  simp [buildTree, hnode, hpq, noBuilt]

/-- With a key the tree is built (R108). -/
theorem buildTree_spec {freq : List Nat} (h : leafList freq 0 ≠ []) : TreeOf freq (buildTree freq) := by
  obtain ⟨h1, h2⟩ := addLeaves_spec freq 0 (b := { node := [], pq := pqClear }) ⟨pqClear_sorted, .refl _⟩
  set b := addLeaves freq 0 { node := [], pq := pqClear } with hb
  have hnode : b.node = leafList freq 0 := by simpa using h1
  have hlen : b.node.length ≠ 0 := by rw [hnode]; simpa using h
  have hf : Forest (leafList freq 0) b := by
    rw [← hnode]
    exact h2.forest fun nd hnd => leafList_kind (by rw [← hnode]; exact hnd)
  have hsize : pqSize b.pq = b.node.length := by
    have := h2.members.length_eq
    simpa [allKeys, pqSize] using this
  obtain ⟨g1, g2, g3⟩ := hf.mergeAll (pqSize b.pq) (Nat.le_refl _)
  set m := mergeAll (pqSize b.pq) b with hm
  have hone : pqSize m.pq = 1 := by
    have := g3 (by omega)
    omega
  obtain ⟨k, hk⟩ := List.length_eq_one_iff.1 hone
  have hbt : buildTree freq =
      { node := m.node, nleaf := b.node.length, nnode := m.node.length, root := k.idx, treev := true, pq := m.pq } := by
    unfold buildTree
    simp only [← hb, if_neg hlen, ← hm, hk, pqExtractMin]
  have hcount := g1.count
  rw [hk] at hcount
  simp only [List.length_singleton] at hcount
  rw [hbt]
  exact
    { forest := g1
      nleaf := by rw [hnode]
      nnode := rfl
      size := by simp only; rw [hnode]; omega
      root := g1.root_eq hk
      treev := rfl
      single := ⟨k, hk, rfl⟩ }

end Sys2Proof.Machine
end

