-- ==== Sys2Proof/Laws/CodeTable.lean ====
section
/-! SUPPORT. Paths in the built tree, and the table that `DRV` derives from it (44_code_table.md R116 to R123). -/

namespace Sys2Proof.Machine

/-! ### Paths -/

/-- Node `j` is the leaf of symbol `x`. -/
def LeafAt (node : List Node) (j x : Nat) : Prop := ∃ nd, node[j]? = some nd ∧ nd.kind = .leaf ∧ nd.sym = x

@[simp] theorem walkPath_nil (node : List Node) (i : Nat) : walkPath node i [] = some i := by simp [walkPath]

theorem walkPath_cons_some {node : List Node} {i j : Nat} {b : Bool} {bs : List Bool} :
    walkPath node i (b :: bs) = some j ↔
      ∃ nd, node[i]? = some nd ∧ nd.kind = .internal ∧ walkPath node (nd.child b) bs = some j := by
  rw [walkPath]
  cases hn : node[i]? with
  | none => simp
  | some nd => cases hk : nd.kind <;> simp [hk]

theorem walkPath_append {node : List Node} {i j : Nat} {p q : List Bool} :
    walkPath node i (p ++ q) = some j ↔ ∃ m, walkPath node i p = some m ∧ walkPath node m q = some j := by
  induction p generalizing i with
  | nil => simp
  | cons b p ih =>
    simp only [List.cons_append, walkPath_cons_some, ih]
    constructor
    · rintro ⟨nd, h1, h2, m, h3, h4⟩
      exact ⟨m, ⟨nd, h1, h2, h3⟩, h4⟩
    · rintro ⟨m, ⟨nd, h1, h2, h3⟩, h4⟩
      exact ⟨nd, h1, h2, m, h3, h4⟩

theorem child_isChild {node : List Node} {i : Nat} {nd : Node} (h : node[i]? = some nd) (hk : nd.kind = .internal)
    (b : Bool) : IsChild node (nd.child b) i := by
  refine ⟨nd, h, hk, ?_⟩
  cases b
  · exact .inl rfl
  · exact .inr rfl

theorem isChild_child {node : List Node} {j i : Nat} (h : IsChild node j i) :
    ∃ nd b, node[i]? = some nd ∧ nd.kind = .internal ∧ nd.child b = j := by
  obtain ⟨nd, hn, hk, h | h⟩ := h
  · exact ⟨nd, false, hn, hk, h⟩
  · exact ⟨nd, true, hn, hk, h⟩

/-- The two children of an internal node are different nodes. -/
theorem Merged.left_ne_right {node : List Node} {i : Nat} {nd : Node} (h : Merged node i nd) : nd.left ≠ nd.right := by
  obtain ⟨a, b, ha, hb, hab⟩ := h.order
  intro he
  rw [he, hb] at ha
  cases ha
  omega

theorem Merged.child_lt {node : List Node} {i : Nat} {nd : Node} (h : Merged node i nd) (b : Bool) : nd.child b < i := by
  cases b
  · exact h.leftLt
  · exact h.rightLt

theorem Merged.child_inj {node : List Node} {i : Nat} {nd : Node} (h : Merged node i nd) {b c : Bool}
    (he : nd.child b = nd.child c) : b = c := by
  have := h.left_ne_right
  cases b <;> cases c <;> simp_all [Node.child]

/-- The root is no node's child (R108 (e)). -/
theorem TreeOf.root_free {freq : List Nat} {t : Built} (h : TreeOf freq t) (m : Nat) : ¬ IsChild t.node t.root m := by
  obtain ⟨k, hk, hr⟩ := h.single
  have := ((h.forest.members k).1 (by simp [hk])).2 m
  rwa [hr] at this

theorem TreeOf.length_pos {freq : List Nat} {t : Built} (h : TreeOf freq t) : 0 < t.node.length := by
  obtain ⟨k, hk, hr⟩ := h.single
  obtain ⟨⟨nk, hn, -⟩, -⟩ := (h.forest.members k).1 (by simp [hk])
  have := (List.getElem?_eq_some_iff.1 hn).1
  simp only at this
  omega

/-- Every node but the root has a parent, with a greater index (R108 (d), (e)). -/
theorem TreeOf.parent {freq : List Nat} {t : Built} (h : TreeOf freq t) {j : Nat} (hj : j < t.node.length)
    (hr : j ≠ t.root) : ∃ m, IsChild t.node j m ∧ j < m := by
  obtain ⟨k, hk, hkr⟩ := h.single
  by_contra hno
  have hnone : ∀ m, ¬ IsChild t.node j m := by
    intro m hm
    obtain ⟨nd, b, hn, hki, hc⟩ := isChild_child hm
    exact hno ⟨m, hm, hc ▸ (h.forest.merged m nd hn hki).child_lt b⟩
  have := (h.forest.members ⟨t.node[j].freq, j⟩).2 ⟨⟨_, List.getElem?_eq_getElem hj, rfl⟩, hnone⟩
  simp only [hk, List.mem_singleton] at this
  exact hr (by rw [← hkr, ← this])

/-- Every node is reached from the root. -/
theorem TreeOf.reach {freq : List Nat} {t : Built} (h : TreeOf freq t) :
    ∀ n j, j < t.node.length → t.node.length - j ≤ n → ∃ q, walkPath t.node t.root q = some j := by
  intro n
  induction n with
  | zero => intro j hj hn; omega
  | succ n ih =>
    intro j hj hn
    by_cases hr : j = t.root
    · exact ⟨[], by rw [hr]; simp⟩
    · obtain ⟨m, hm, hlt⟩ := h.parent hj hr
      have hml := isChild_lt hm
      obtain ⟨nd, b, hnd, hk, hc⟩ := isChild_child hm
      obtain ⟨q, hq⟩ := ih m hml (by omega)
      exact ⟨q ++ [b], walkPath_append.2 ⟨m, hq, walkPath_cons_some.2 ⟨nd, hnd, hk, by simp [hc]⟩⟩⟩

/-- A node is reached from the root by one path only. -/
theorem TreeOf.path_unique {freq : List Nat} {t : Built} (h : TreeOf freq t) :
    ∀ (n : Nat) (p q : List Bool) (j : Nat), p.length ≤ n → walkPath t.node t.root p = some j →
      walkPath t.node t.root q = some j → p = q := by
  have last : ∀ (p : List Bool) (b : Bool) (j : Nat), walkPath t.node t.root (p ++ [b]) = some j →
      ∃ m nd, walkPath t.node t.root p = some m ∧ t.node[m]? = some nd ∧ nd.kind = .internal ∧ nd.child b = j := by
    intro p b j hp
    obtain ⟨m, hm, hj⟩ := walkPath_append.1 hp
    obtain ⟨nd, hn, hk, hc⟩ := walkPath_cons_some.1 hj
    exact ⟨m, nd, hm, hn, hk, by simpa using hc⟩
  intro n
  induction n with
  | zero =>
    intro p q j hp h1 h2
    obtain rfl := List.length_eq_zero_iff.1 (Nat.le_zero.1 hp)
    rcases List.eq_nil_or_concat q with rfl | ⟨q', b, rfl⟩
    · rfl
    · obtain ⟨m, nd, -, hn, hk, hc⟩ := last q' b j (by simpa using h2)
      simp at h1
      exact absurd (h1 ▸ hc ▸ child_isChild hn hk b) (h.root_free m)
  | succ n ih =>
    intro p q j hp h1 h2
    rcases List.eq_nil_or_concat p with rfl | ⟨p', b, rfl⟩ <;> rcases List.eq_nil_or_concat q with rfl | ⟨q', c, rfl⟩
    · rfl
    · obtain ⟨m, nd, -, hn, hk, hc⟩ := last q' c j (by simpa using h2)
      simp at h1
      exact absurd (h1 ▸ hc ▸ child_isChild hn hk c) (h.root_free m)
    · obtain ⟨m, nd, -, hn, hk, hc⟩ := last p' b j (by simpa using h1)
      simp at h2
      exact absurd (h2 ▸ hc ▸ child_isChild hn hk b) (h.root_free m)
    · obtain ⟨m, nd, hm, hn, hk, hc⟩ := last p' b j (by simpa using h1)
      obtain ⟨m', nd', hm', hn', hk', hc'⟩ := last q' c j (by simpa using h2)
      obtain rfl := h.forest.oneParent j m m' (hc ▸ child_isChild hn hk b) (hc' ▸ child_isChild hn' hk' c)
      rw [hn] at hn'
      cases hn'
      have hpq := ih p' q' m (by simp at hp; omega) hm hm'
      have hbc := (h.forest.merged m nd hn hk).child_inj (hc.trans hc'.symm)
      rw [hpq, hbc]

/-! ### The leaves -/

theorem mem_leafList {freq : List Nat} {nd : Node} :
    nd ∈ leafList freq 0 ↔ ∃ c x, freq[x]? = some c ∧ c ≠ 0 ∧ nd = leafNode c x := by
  simp only [leafList, List.mem_map, List.mem_filter, Prod.exists, List.mk_mem_zipIdx_iff_getElem?,
    decide_eq_true_eq]
  constructor
  · rintro ⟨c, x, ⟨h1, h2⟩, rfl⟩
    exact ⟨c, x, h1, h2, rfl⟩
  · rintro ⟨c, x, h1, h2, rfl⟩
    exact ⟨c, x, ⟨h1, h2⟩, rfl⟩

/-- The leaves stand in ascending order of symbol (R102). -/
theorem leafList_ascending (freq : List Nat) (sym : Nat) :
    (leafList freq sym).Pairwise (fun a b => a.sym < b.sym) ∧ ∀ nd ∈ leafList freq sym, sym ≤ nd.sym := by
  induction freq generalizing sym with
  | nil => simp [leafList]
  | cons f fs ih =>
    obtain ⟨h1, h2⟩ := ih (sym + 1)
    rw [leafList_cons]
    split
    · refine ⟨List.pairwise_cons.2 ⟨fun nd hnd => h2 nd hnd, h1⟩, fun nd hnd => ?_⟩
      rcases List.mem_cons.1 hnd with rfl | hnd
      · exact Nat.le_refl _
      · exact Nat.le_of_lt (h2 nd hnd)
    · exact ⟨h1, fun nd hnd => Nat.le_of_lt (h2 nd hnd)⟩

/-- The leaves are the first `NLEAF` nodes (R108 (b)). -/
theorem TreeOf.leaf_iff {freq : List Nat} {t : Built} (h : TreeOf freq t) {i : Nat} {nd : Node}
    (hn : t.node[i]? = some nd) : nd.kind = .leaf ↔ i < t.nleaf := by
  obtain ⟨rest, hr, hk⟩ := h.forest.leaves
  simp only at hr
  rw [h.nleaf]
  rw [hr, List.getElem?_append] at hn
  split at hn
  · exact iff_of_true (leafList_kind (List.mem_of_getElem? hn)) ‹_›
  · have := hk nd (List.mem_of_getElem? hn)
    rw [this]
    exact iff_of_false (by simp) ‹_›

theorem TreeOf.leaf_get {freq : List Nat} {t : Built} (h : TreeOf freq t) {i : Nat} (hi : i < t.nleaf) :
    t.node[i]? = (leafList freq 0)[i]? := by
  obtain ⟨rest, hr, -⟩ := h.forest.leaves
  simp only at hr
  rw [hr, List.getElem?_append_left (by rwa [← h.nleaf])]

/-- A symbol has a leaf exactly when it is a key of the map (R102). -/
theorem TreeOf.leafAt_iff {freq : List Nat} {t : Built} (h : TreeOf freq t) (x : Nat) :
    (∃ j, LeafAt t.node j x) ↔ freq.getD x 0 ≠ 0 := by
  constructor
  · rintro ⟨j, nd, hn, hk, rfl⟩
    have hj := (h.leaf_iff hn).1 hk
    rw [h.leaf_get hj] at hn
    obtain ⟨c, x, hx, hc, rfl⟩ := mem_leafList.1 (List.mem_of_getElem? hn)
    simpa [List.getD_eq_getElem?_getD, leafNode, hx] using hc
  · intro hx
    cases hg : freq[x]? with
    | none => simp [List.getD_eq_getElem?_getD, hg] at hx
    | some c =>
      simp [List.getD_eq_getElem?_getD, hg] at hx
      obtain ⟨j, hj⟩ := List.mem_iff_getElem?.1 (mem_leafList.2 ⟨c, x, hg, hx, rfl⟩)
      have hlt := (List.getElem?_eq_some_iff.1 hj).1
      rw [← h.nleaf] at hlt
      exact ⟨j, leafNode c x, by rw [h.leaf_get hlt, hj], rfl, rfl⟩

/-- Distinct leaves hold distinct symbols (10_state.md R32). -/
theorem TreeOf.leafAt_inj {freq : List Nat} {t : Built} (h : TreeOf freq t) {i j x : Nat} (hi : LeafAt t.node i x)
    (hj : LeafAt t.node j x) : i = j := by
  obtain ⟨a, ha, hka, hsa⟩ := hi
  obtain ⟨b, hb, hkb, hsb⟩ := hj
  have li := (h.leaf_iff ha).1 hka
  have lj := (h.leaf_iff hb).1 hkb
  rw [h.leaf_get li] at ha
  rw [h.leaf_get lj] at hb
  have asc := (leafList_ascending freq 0).1
  rw [List.pairwise_iff_getElem] at asc
  obtain ⟨pi, ei⟩ := List.getElem?_eq_some_iff.1 ha
  obtain ⟨pj, ej⟩ := List.getElem?_eq_some_iff.1 hb
  rcases Nat.lt_trichotomy i j with hlt | he | hlt
  · have := asc i j pi pj hlt
    rw [ei, ej] at this
    omega
  · exact he
  · have := asc j i pj pi hlt
    rw [ei, ej] at this
    omega

/-! ### The walk of `DRV` -/

/-- What one pop of the walk writes: the code of a leaf (R116). -/
def writeVisit (node : List Node) (p : List Bool) (e : Nat × List Bool) (tbl : List (Option Code)) :
    List (Option Code) :=
  match node[e.1]? with
  | none => tbl
  | some nd =>
    match nd.kind with
    | .leaf => writeCode nd.sym (p ++ e.2) tbl
    | .internal => tbl

/-- What the pops of the walk write. -/
def writeVisits (node : List Node) (p : List Bool) (vis : List (Nat × List Bool)) (tbl : List (Option Code)) :
    List (Option Code) :=
  vis.foldl (fun acc e => writeVisit node p e acc) tbl

theorem writeVisits_append (node : List Node) (p : List Bool) (u v : List (Nat × List Bool))
    (tbl : List (Option Code)) :
    writeVisits node p (u ++ v) tbl = writeVisits node p v (writeVisits node p u tbl) := by
  simp [writeVisits]

theorem writeVisits_below (node : List Node) (p : List Bool) (b : Bool) (vis : List (Nat × List Bool))
    (tbl : List (Option Code)) :
    writeVisits node p (vis.map fun e => (e.1, b :: e.2)) tbl = writeVisits node (p ++ [b]) vis tbl := by
  induction vis generalizing tbl with
  | nil => rfl
  | cons e vis ih =>
    have he : writeVisit node p (e.1, b :: e.2) tbl = writeVisit node (p ++ [b]) e tbl := by
      simp [writeVisit]
    simp only [writeVisits, List.map_cons, List.foldl_cons] at ih ⊢
    rw [he, ih]

/-- The walk below node `i` pops every node below it once, with its path, and writes the leaves (R116, R119). -/
theorem walkTree_visits {node : List Node}
    (ordered : ∀ (i : Nat) (nd : Node), node[i]? = some nd → nd.kind = .internal → nd.left < i ∧ nd.right < i) :
    ∀ i, i < node.length → ∃ vis : List (Nat × List Bool),
      (∀ j q, (j, q) ∈ vis ↔ walkPath node i q = some j) ∧ (vis.map Prod.snd).Nodup ∧
      ∀ n p stack tbl, walkTree node (vis.length + n) ((i, p) :: stack) tbl =
        walkTree node n stack (writeVisits node p vis tbl) := by
  intro i
  induction i using Nat.strongRecOn with
  | ind i ih =>
    intro hi
    have hn : node[i]? = some node[i] := List.getElem?_eq_getElem hi
    cases hk : node[i].kind with
    | leaf =>
      refine ⟨[(i, [])], fun j q => ?_, by simp, fun n p stack tbl => ?_⟩
      · simp only [List.mem_singleton, Prod.mk.injEq]
        cases q with
        | nil => simp [eq_comm]
        | cons b bs =>
          refine iff_of_false (by simp) fun h => ?_
          obtain ⟨nd, h1, h2, -⟩ := walkPath_cons_some.1 h
          rw [hn] at h1
          cases h1
          rw [hk] at h2
          cases h2
      · rw [List.length_singleton, Nat.add_comm, walkTree, hn]
        simp only [hk]
        simp [writeVisits, writeVisit, hn, hk]
    | internal =>
      obtain ⟨hl, hr⟩ := ordered i _ hn hk
      obtain ⟨vl, ml, nl, wl⟩ := ih _ hl (by omega)
      obtain ⟨vr, mr, nr, wr⟩ := ih _ hr (by omega)
      refine ⟨(i, []) :: ((vl.map fun e => (e.1, false :: e.2)) ++ vr.map fun e => (e.1, true :: e.2)),
        fun j q => ?_, ?_, fun n p stack tbl => ?_⟩
      · cases q with
        | nil => simp [eq_comm]
        | cons b bs =>
          rw [walkPath_cons_some]
          have : (∃ nd, node[i]? = some nd ∧ nd.kind = .internal ∧ walkPath node (nd.child b) bs = some j) ↔
              walkPath node (node[i].child b) bs = some j := by
            simp [hn, hk]
          rw [this]
          cases b
          · simp [Node.child, ← ml]
          · simp [Node.child, ← mr]
      · simp only [List.map_cons, List.map_append, List.map_map, List.nodup_cons, List.mem_append, List.mem_map,
          Function.comp_apply, not_or, not_exists]
        refine ⟨⟨fun e he => by simp at he, fun e he => by simp at he⟩, ?_⟩
        have hfl : (Prod.snd ∘ fun e : Nat × List Bool => (e.1, false :: e.2)) = List.cons false ∘ Prod.snd := rfl
        have hfr : (Prod.snd ∘ fun e : Nat × List Bool => (e.1, true :: e.2)) = List.cons true ∘ Prod.snd := rfl
        rw [hfl, hfr, ← List.map_map, ← List.map_map]
        refine List.nodup_append.2 ⟨nl.map List.cons_injective, nr.map List.cons_injective, ?_⟩
        intro a ha b hb he
        obtain ⟨x, -, rfl⟩ := List.mem_map.1 ha
        obtain ⟨y, -, rfl⟩ := List.mem_map.1 hb
        cases he
      · have hlen : ((i, ([] : List Bool)) :: ((vl.map fun e => (e.1, false :: e.2)) ++
            vr.map fun e => (e.1, true :: e.2))).length + n = (vl.length + (vr.length + n)) + 1 := by
          simp
          omega
        rw [hlen, walkTree, hn]
        simp only [hk]
        rw [wl, wr]
        have h0 : ∀ tl, writeVisits node p ((i, []) :: tl) tbl = writeVisits node p tl tbl := by
          intro tl
          simp [writeVisits, writeVisit, hn, hk]
        rw [h0, writeVisits_append, writeVisits_below, writeVisits_below]

/-- What the pops of the walk leave in the entry of a symbol, when no symbol is written two different paths. -/
theorem writeVisits_getD {node : List Node} {p : List Bool} (x : Nat) (vis : List (Nat × List Bool))
    (tbl : List (Option Code)) :
    (writeVisits node p vis tbl).length = tbl.length ∧
    ((∀ j q, (j, q) ∈ vis → ¬ LeafAt node j x) → (writeVisits node p vis tbl).getD x none = tbl.getD x none) ∧
    (∀ q, x < tbl.length → (∃ j, (j, q) ∈ vis ∧ LeafAt node j x) →
      (∀ j' q', (j', q') ∈ vis → LeafAt node j' x → q' = q) →
      (writeVisits node p vis tbl).getD x none = some { clen := (p ++ q).length, cbits := p ++ q }) := by
  induction vis generalizing tbl with
  | nil =>
    refine ⟨rfl, fun _ => rfl, ?_⟩
    rintro q _ ⟨j, hj, -⟩ -
    cases hj
  | cons e vis ih =>
    have hw : writeVisits node p (e :: vis) tbl = writeVisits node p vis (writeVisit node p e tbl) := rfl
    obtain ⟨i1, i2, i3⟩ := ih (writeVisit node p e tbl)
    have hlen : (writeVisit node p e tbl).length = tbl.length := by
      unfold writeVisit
      split
      · rfl
      · split <;> simp [writeCode]
    have hother : ¬ LeafAt node e.1 x → (writeVisit node p e tbl).getD x none = tbl.getD x none := by
      intro hx
      unfold writeVisit
      split
      · rfl
      · split
        · have hne : ‹Node›.sym ≠ x := fun he => hx ⟨_, ‹_›, ‹_›, he⟩
          simp [writeCode, List.getD_eq_getElem?_getD, List.getElem?_set_ne hne]
        · rfl
    have hself : x < tbl.length → LeafAt node e.1 x →
        (writeVisit node p e tbl).getD x none = some { clen := (p ++ e.2).length, cbits := p ++ e.2 } := by
      rintro hx ⟨nd, hn, hk, rfl⟩
      simp [writeVisit, hn, hk, writeCode, List.getD_eq_getElem?_getD, List.getElem?_set_self hx]
    refine ⟨by rw [hw, i1, hlen], ?_, ?_⟩
    · intro hno
      rw [hw, i2 fun j q hj => hno j q (List.mem_cons_of_mem _ hj)]
      exact hother (hno e.1 e.2 (by simp))
    · rintro q hx ⟨j, hj, hl⟩ huniq
      rw [hw]
      by_cases hin : ∃ j', (j', q) ∈ vis ∧ LeafAt node j' x
      · exact i3 q (by rwa [hlen]) hin fun j' q' hj' => huniq j' q' (List.mem_cons_of_mem _ hj')
      · have hnone : ∀ j' q', (j', q') ∈ vis → ¬ LeafAt node j' x := by
          intro j' q' hj' hl'
          exact hin ⟨j', huniq j' q' (List.mem_cons_of_mem _ hj') hl' ▸ hj', hl'⟩
        rw [i2 hnone]
        rcases List.mem_cons.1 hj with rfl | hj
        · exact hself hx hl
        · exact absurd hl (hnone j q hj)

/-- The table `DRV` derives from a tree with an internal root: the code of a symbol is the path from the root to its
leaf, and no other symbol has one (R116, R119). -/
theorem TreeOf.derive_paths {freq : List Nat} {t : Built} (h : TreeOf freq t) (h2 : 2 ≤ t.nleaf) {n : Nat}
    (hn : freq.length ≤ n) :
    ∃ tbl, deriveTable t.node t.root t.treev (List.replicate n none) = .ok tbl ∧ tbl.length = n ∧
      ∀ x c, tbl.getD x none = some c ↔
        ∃ j q, walkPath t.node t.root q = some j ∧ LeafAt t.node j x ∧ c = { clen := q.length, cbits := q } := by
  have hpos := h.length_pos
  have hroot : t.root < t.node.length := by rw [h.root]; omega
  have hget : t.node[t.root]? = some t.node[t.root] := List.getElem?_eq_getElem hroot
  have hkind : t.node[t.root].kind = .internal := by
    cases hk : t.node[t.root].kind with
    | internal => rfl
    | leaf =>
      have h1 := (h.leaf_iff hget).1 hk
      have hs := h.size
      have hr := h.root
      omega
  obtain ⟨vis, hmem, hnd, hwalk⟩ := walkTree_visits
    (fun i nd hi hk => ⟨(h.forest.merged i nd hi hk).leftLt, (h.forest.merged i nd hi hk).rightLt⟩) t.root hroot
  have hvlen : vis.length ≤ t.node.length := by
    have hinj : (vis.map Prod.fst).Nodup := by
      have hv : vis.Nodup := List.Nodup.of_map _ hnd
      refine hv.map_on ?_
      rintro ⟨j, q⟩ hj ⟨j', q'⟩ hj' he
      simp only at he
      subst he
      rw [h.path_unique _ q q' j (Nat.le_refl _) ((hmem j q).1 hj) ((hmem j q').1 hj')]
    have hsub : vis.map Prod.fst ⊆ List.range t.node.length := by
      intro j hj
      obtain ⟨⟨j', q⟩, hjq, rfl⟩ := List.mem_map.1 hj
      rw [List.mem_range]
      have hw := (hmem j' q).1 hjq
      rcases List.eq_nil_or_concat q with rfl | ⟨q', b, rfl⟩
      · simp at hw
        omega
      · obtain ⟨m, -, hw⟩ := walkPath_append.1 (by simpa using hw)
        obtain ⟨nd, hnd, hk, hc⟩ := walkPath_cons_some.1 hw
        have := (h.forest.merged m nd hnd hk).child_lt b
        have hm := (List.getElem?_eq_some_iff.1 hnd).1
        simp at hc hm ⊢
        omega
    have := (List.subperm_of_subset hinj hsub).length_le
    simpa using this
  have hderive : deriveTable t.node t.root t.treev (List.replicate n none) =
      .ok (writeVisits t.node [] vis (List.replicate n none)) := by
    unfold deriveTable
    rw [if_pos h.treev, hget]
    simp only [hkind]
    have := hwalk (t.node.length - vis.length) [] [] (List.replicate n none)
    rw [Nat.add_sub_cancel' hvlen] at this
    rw [this]
    cases t.node.length - vis.length <;> rfl
  refine ⟨_, hderive, ?_, ?_⟩
  · rw [(writeVisits_getD 0 vis _).1]
    simp
  · intro x c
    obtain ⟨-, w2, w3⟩ := writeVisits_getD (node := t.node) (p := []) x vis (List.replicate n none)
    have hkey : ∀ j, LeafAt t.node j x → x < (List.replicate n (none : Option Code)).length := by
      intro j hj
      have := (h.leafAt_iff x).1 ⟨j, hj⟩
      rw [List.length_replicate]
      by_contra hlt
      rw [List.getD_eq_default _ _ (by omega)] at this
      exact this rfl
    have huniq : ∀ j q j' q', walkPath t.node t.root q = some j → LeafAt t.node j x →
        (j', q') ∈ vis → LeafAt t.node j' x → q' = q := by
      intro j q j' q' hw hl hv hl'
      rw [h.leafAt_inj hl' hl] at hv
      exact h.path_unique _ q' q j (Nat.le_refl _) ((hmem j q').1 hv) hw
    constructor
    · intro hc
      by_cases hex : ∃ j, LeafAt t.node j x
      · obtain ⟨j, hj⟩ := hex
        have hjl : j < t.node.length := by
          obtain ⟨nd, hnd, -⟩ := hj
          exact (List.getElem?_eq_some_iff.1 hnd).1
        obtain ⟨q, hq⟩ := h.reach _ j hjl (Nat.le_refl _)
        have := w3 q (hkey j hj) ⟨j, (hmem j q).2 hq, hj⟩ (fun j' q' => huniq j q j' q' hq hj)
        rw [this] at hc
        exact ⟨j, q, hq, hj, by simpa using hc.symm⟩
      · rw [w2 fun j q _ hl => hex ⟨j, hl⟩] at hc
        simp at hc
    · rintro ⟨j, q, hq, hj, rfl⟩
      simpa using w3 q (hkey j hj) ⟨j, (hmem j q).2 hq, hj⟩ (fun j' q' => huniq j q j' q' hq hj)

/-- The table `DRV` derives from a single-leaf tree (R117). -/
theorem TreeOf.derive_single {freq : List Nat} {t : Built} (h : TreeOf freq t) (h1 : t.nleaf = 1)
    (tbl : List (Option Code)) :
    ∃ nd, t.node[t.root]? = some nd ∧ nd.kind = .leaf ∧ t.root = 0 ∧
      deriveTable t.node t.root t.treev tbl = .ok (writeCode nd.sym [true] tbl) := by
  have hs := h.size
  have hr : t.root = 0 := by rw [h.root]; omega
  have hlt : 0 < t.node.length := h.length_pos
  have hget : t.node[t.root]? = some t.node[0] := by rw [hr]; exact List.getElem?_eq_getElem hlt
  have hk : t.node[0].kind = .leaf := (h.leaf_iff hget).2 (by omega)
  refine ⟨_, hget, hk, hr, ?_⟩
  unfold deriveTable
  rw [if_pos h.treev, hget]
  simp only [hk]

/-- A path that descends at all passes only internal nodes, each below the one before (R108 (c)). -/
theorem TreeOf.path_length {freq : List Nat} {t : Built} (h : TreeOf freq t) {i j : Nat} {p : List Bool}
    (hp : walkPath t.node i p = some j) : p = [] ∨ p.length + t.nleaf ≤ i + 1 := by
  induction p generalizing i with
  | nil => exact .inl rfl
  | cons b p ih =>
    obtain ⟨nd, hn, hk, hp⟩ := walkPath_cons_some.1 hp
    have hi : ¬ i < t.nleaf := fun hlt => by
      rw [(h.leaf_iff hn).2 hlt] at hk
      cases hk
    have hc := (h.forest.merged i nd hn hk).child_lt b
    rcases ih hp with rfl | hl
    · simp only [List.length_cons, List.length_nil]
      omega
    · simp only [List.length_cons]
      omega

/-- As many leaves as keys (R102). -/
theorem leafList_length (freq : List Nat) (sym : Nat) :
    (leafList freq sym).length = (freq.filter fun c => decide (c ≠ 0)).length := by
  induction freq generalizing sym with
  | nil => rfl
  | cons f fs ih =>
    rw [leafList_cons]
    by_cases hf : f = 0 <;> simp only [hf, ne_eq, not_true_eq_false, not_false_eq_true, if_false, if_true,
      decide_true, decide_false, List.filter_cons, List.length_cons, ih, Bool.false_eq_true]

/-- The leaves hold the whole count (R105). -/
theorem leafList_sum (freq : List Nat) (sym : Nat) : ((leafList freq sym).map Node.freq).sum = freq.sum := by
  induction freq generalizing sym with
  | nil => rfl
  | cons f fs ih =>
    rw [leafList_cons]
    by_cases hf : f = 0 <;> simp [hf, ih, leafNode]

/-- A leaf holds the count of its symbol, a key of the map (R33, R102). -/
theorem TreeOf.leaf_facts {freq : List Nat} {t : Built} (h : TreeOf freq t) {i : Nat} {nd : Node}
    (hn : t.node[i]? = some nd) (hk : nd.kind = .leaf) :
    nd.freq = freq.getD nd.sym 0 ∧ nd.freq ≠ 0 ∧ nd.sym < freq.length := by
  rw [h.leaf_get ((h.leaf_iff hn).1 hk)] at hn
  obtain ⟨c, x, hx, hc, rfl⟩ := mem_leafList.1 (List.mem_of_getElem? hn)
  exact ⟨by simp [leafNode, hx], hc, (List.getElem?_eq_some_iff.1 hx).1⟩

end Sys2Proof.Machine
end

