-- ==== Sys2Proof/Laws/Decode.lean ====
section
/-! SUPPORT. The fields of a word as numbers, and the fields of an encoded command (30_encoding.md R60, R71). -/

namespace Sys2Proof

theorem opField_eq (w : Word) : opField w = w.toNat / 2 ^ 24 := by
  have := w.isLt
  simp only [opField, BitVec.extractLsb'_toNat, Nat.shiftRight_eq_div_pow]
  omega

theorem subField_eq (w : Word) : subField w = w.toNat / 2 ^ 20 % 2 ^ 4 := by
  simp only [subField, BitVec.extractLsb'_toNat, Nat.shiftRight_eq_div_pow]

theorem zField_eq (w : Word) : zField w = w.toNat / 2 ^ 17 % 2 ^ 3 := by
  simp only [zField, BitVec.extractLsb'_toNat, Nat.shiftRight_eq_div_pow]

theorem argField_eq (w : Word) : argField w = w.toNat % 2 ^ 17 := by
  simp only [argField, BitVec.extractLsb'_toNat, Nat.shiftRight_eq_div_pow]
  omega

/-- The four fields cover the word (R60). -/
theorem toNat_fields (w : Word) :
    w.toNat = opField w * 2 ^ 24 + subField w * 2 ^ 20 + zField w * 2 ^ 17 + argField w := by
  rw [opField_eq, subField_eq, zField_eq, argField_eq]
  omega

/-- An operand of a well-formed command fits the field `arg` (R60). -/
theorem arg_lt_of_wellFormed {symw : Nat} {i : Instr} (hs : symw ≤ 16) (h : i.wellFormed symw = true) :
    i.arg < 2 ^ 17 := by
  have hp : 2 ^ symw ≤ 2 ^ 16 := Nat.pow_le_pow_right (by decide) hs
  cases i <;> simp [Instr.wellFormed, Instr.arg] at h ⊢ <;> first | omega | (split <;> omega)

theorem op_lt (i : Instr) : i.op < 2 ^ 8 := by cases i <;> simp [Instr.op]

theorem sub_lt (i : Instr) : i.sub < 2 ^ 4 := by cases i <;> simp [Instr.sub]

/-- The encoded word as a number (R71). -/
theorem encode_toNat {i : Instr} (h : i.arg < 2 ^ 17) :
    (encode i).toNat = i.op * 2 ^ 24 + i.sub * 2 ^ 20 + i.arg := by
  have ho := op_lt i
  have hs := sub_lt i
  have e1 : (BitVec.ofNat 32 i.op <<< 24).toNat = i.op <<< 24 := by
    rw [BitVec.toNat_shiftLeft, BitVec.toNat_ofNat, Nat.shiftLeft_eq, Nat.shiftLeft_eq]
    omega
  have e2 : (BitVec.ofNat 32 i.sub <<< 20).toNat = i.sub <<< 20 := by
    rw [BitVec.toNat_shiftLeft, BitVec.toNat_ofNat, Nat.shiftLeft_eq, Nat.shiftLeft_eq]
    omega
  have e3 : (BitVec.ofNat 32 i.arg).toNat = i.arg := by
    rw [BitVec.toNat_ofNat]
    omega
  rw [encode, BitVec.toNat_or, BitVec.toNat_or, e1, e2, e3]
  have a1 : i.sub <<< 20 < 2 ^ 24 := by rw [Nat.shiftLeft_eq]; omega
  rw [← Nat.shiftLeft_add_eq_or_of_lt a1, Nat.shiftLeft_eq, Nat.shiftLeft_eq]
  have a2 : i.op * 2 ^ 24 + i.sub * 2 ^ 20 = (i.op * 2 ^ 4 + i.sub) <<< 20 := by
    rw [Nat.shiftLeft_eq]
    omega
  have a3 : i.arg < 2 ^ 20 := by omega
  rw [a2, ← Nat.shiftLeft_add_eq_or_of_lt a3]

/-- The fields of an encoded command whose operand fits `arg`. -/
theorem fields_encode {i : Instr} (h : i.arg < 2 ^ 17) :
    opField (encode i) = i.op ∧ subField (encode i) = i.sub ∧ zField (encode i) = 0 ∧
      argField (encode i) = i.arg := by
  have ho := op_lt i
  have hs := sub_lt i
  rw [opField_eq, subField_eq, zField_eq, argField_eq, encode_toNat h]
  omega

end Sys2Proof
end

