-- ==== Sys2Proof/Laws/State.lean ====
section
/-! SUPPORT. One lemma per field per named update of the state, each true by `rfl`, so that no proof unfolds a record
update; and what a transfer, the delivery of all transfers, and the empty queue of transfers do. -/

namespace Sys2Proof.Machine

/-! ### `State.send` -/

@[simp] theorem State.send_param (s : State) (ts : List Transfer) : (s.send ts).param = s.param := rfl
@[simp] theorem State.send_freq (s : State) (ts : List Transfer) : (s.send ts).freq = s.freq := rfl
@[simp] theorem State.send_total (s : State) (ts : List Transfer) : (s.send ts).total = s.total := rfl
@[simp] theorem State.send_node (s : State) (ts : List Transfer) : (s.send ts).node = s.node := rfl
@[simp] theorem State.send_nleaf (s : State) (ts : List Transfer) : (s.send ts).nleaf = s.nleaf := rfl
@[simp] theorem State.send_nnode (s : State) (ts : List Transfer) : (s.send ts).nnode = s.nnode := rfl
@[simp] theorem State.send_root (s : State) (ts : List Transfer) : (s.send ts).root = s.root := rfl
@[simp] theorem State.send_treev (s : State) (ts : List Transfer) : (s.send ts).treev = s.treev := rfl
@[simp] theorem State.send_cur (s : State) (ts : List Transfer) : (s.send ts).cur = s.cur := rfl
@[simp] theorem State.send_code (s : State) (ts : List Transfer) : (s.send ts).code = s.code := rfl
@[simp] theorem State.send_pq (s : State) (ts : List Transfer) : (s.send ts).pq = s.pq := rfl
@[simp] theorem State.send_err (s : State) (ts : List Transfer) : (s.send ts).err = s.err := rfl
@[simp] theorem State.send_phase (s : State) (ts : List Transfer) : (s.send ts).phase = s.phase := rfl
@[simp] theorem State.send_out (s : State) (ts : List Transfer) : (s.send ts).out = s.out ++ ts := rfl
@[simp] theorem State.send_bitout (s : State) (ts : List Transfer) : (s.send ts).bitout = s.bitout := rfl
@[simp] theorem State.send_symout (s : State) (ts : List Transfer) : (s.send ts).symout = s.symout := rfl
@[simp] theorem State.send_rspout (s : State) (ts : List Transfer) : (s.send ts).rspout = s.rspout := rfl
@[simp] theorem State.send_input (s : State) (ts : List Transfer) : (s.send ts).input = s.input := rfl

/-! ### `State.emitBits` -/

@[simp] theorem State.emitBits_param (s : State) (b : List Bool) : (s.emitBits b).param = s.param := rfl
@[simp] theorem State.emitBits_freq (s : State) (b : List Bool) : (s.emitBits b).freq = s.freq := rfl
@[simp] theorem State.emitBits_total (s : State) (b : List Bool) : (s.emitBits b).total = s.total := rfl
@[simp] theorem State.emitBits_node (s : State) (b : List Bool) : (s.emitBits b).node = s.node := rfl
@[simp] theorem State.emitBits_nleaf (s : State) (b : List Bool) : (s.emitBits b).nleaf = s.nleaf := rfl
@[simp] theorem State.emitBits_nnode (s : State) (b : List Bool) : (s.emitBits b).nnode = s.nnode := rfl
@[simp] theorem State.emitBits_root (s : State) (b : List Bool) : (s.emitBits b).root = s.root := rfl
@[simp] theorem State.emitBits_treev (s : State) (b : List Bool) : (s.emitBits b).treev = s.treev := rfl
@[simp] theorem State.emitBits_cur (s : State) (b : List Bool) : (s.emitBits b).cur = s.cur := rfl
@[simp] theorem State.emitBits_code (s : State) (b : List Bool) : (s.emitBits b).code = s.code := rfl
@[simp] theorem State.emitBits_pq (s : State) (b : List Bool) : (s.emitBits b).pq = s.pq := rfl
@[simp] theorem State.emitBits_err (s : State) (b : List Bool) : (s.emitBits b).err = s.err := rfl
@[simp] theorem State.emitBits_phase (s : State) (b : List Bool) : (s.emitBits b).phase = s.phase := rfl
@[simp] theorem State.emitBits_out (s : State) (b : List Bool) : (s.emitBits b).out = s.out ++ b.map Transfer.bit := rfl
@[simp] theorem State.emitBits_bitout (s : State) (b : List Bool) : (s.emitBits b).bitout = s.bitout := rfl
@[simp] theorem State.emitBits_symout (s : State) (b : List Bool) : (s.emitBits b).symout = s.symout := rfl
@[simp] theorem State.emitBits_rspout (s : State) (b : List Bool) : (s.emitBits b).rspout = s.rspout := rfl
@[simp] theorem State.emitBits_input (s : State) (b : List Bool) : (s.emitBits b).input = s.input := rfl

/-! ### `State.emitSym` -/

@[simp] theorem State.emitSym_param (s : State) (x : Nat) : (s.emitSym x).param = s.param := rfl
@[simp] theorem State.emitSym_freq (s : State) (x : Nat) : (s.emitSym x).freq = s.freq := rfl
@[simp] theorem State.emitSym_total (s : State) (x : Nat) : (s.emitSym x).total = s.total := rfl
@[simp] theorem State.emitSym_node (s : State) (x : Nat) : (s.emitSym x).node = s.node := rfl
@[simp] theorem State.emitSym_nleaf (s : State) (x : Nat) : (s.emitSym x).nleaf = s.nleaf := rfl
@[simp] theorem State.emitSym_nnode (s : State) (x : Nat) : (s.emitSym x).nnode = s.nnode := rfl
@[simp] theorem State.emitSym_root (s : State) (x : Nat) : (s.emitSym x).root = s.root := rfl
@[simp] theorem State.emitSym_treev (s : State) (x : Nat) : (s.emitSym x).treev = s.treev := rfl
@[simp] theorem State.emitSym_cur (s : State) (x : Nat) : (s.emitSym x).cur = s.cur := rfl
@[simp] theorem State.emitSym_code (s : State) (x : Nat) : (s.emitSym x).code = s.code := rfl
@[simp] theorem State.emitSym_pq (s : State) (x : Nat) : (s.emitSym x).pq = s.pq := rfl
@[simp] theorem State.emitSym_err (s : State) (x : Nat) : (s.emitSym x).err = s.err := rfl
@[simp] theorem State.emitSym_phase (s : State) (x : Nat) : (s.emitSym x).phase = s.phase := rfl
@[simp] theorem State.emitSym_out (s : State) (x : Nat) : (s.emitSym x).out = s.out ++ [Transfer.sym x] := rfl
@[simp] theorem State.emitSym_bitout (s : State) (x : Nat) : (s.emitSym x).bitout = s.bitout := rfl
@[simp] theorem State.emitSym_symout (s : State) (x : Nat) : (s.emitSym x).symout = s.symout := rfl
@[simp] theorem State.emitSym_rspout (s : State) (x : Nat) : (s.emitSym x).rspout = s.rspout := rfl
@[simp] theorem State.emitSym_input (s : State) (x : Nat) : (s.emitSym x).input = s.input := rfl

/-! ### `State.setErr` -/

@[simp] theorem State.setErr_param (s : State) (e : Fatal) : (s.setErr e).param = s.param := rfl
@[simp] theorem State.setErr_freq (s : State) (e : Fatal) : (s.setErr e).freq = s.freq := rfl
@[simp] theorem State.setErr_total (s : State) (e : Fatal) : (s.setErr e).total = s.total := rfl
@[simp] theorem State.setErr_node (s : State) (e : Fatal) : (s.setErr e).node = s.node := rfl
@[simp] theorem State.setErr_nleaf (s : State) (e : Fatal) : (s.setErr e).nleaf = s.nleaf := rfl
@[simp] theorem State.setErr_nnode (s : State) (e : Fatal) : (s.setErr e).nnode = s.nnode := rfl
@[simp] theorem State.setErr_root (s : State) (e : Fatal) : (s.setErr e).root = s.root := rfl
@[simp] theorem State.setErr_treev (s : State) (e : Fatal) : (s.setErr e).treev = s.treev := rfl
@[simp] theorem State.setErr_cur (s : State) (e : Fatal) : (s.setErr e).cur = s.cur := rfl
@[simp] theorem State.setErr_code (s : State) (e : Fatal) : (s.setErr e).code = s.code := rfl
@[simp] theorem State.setErr_pq (s : State) (e : Fatal) : (s.setErr e).pq = s.pq := rfl
@[simp] theorem State.setErr_err (s : State) (e : Fatal) : (s.setErr e).err = some e := rfl
@[simp] theorem State.setErr_phase (s : State) (e : Fatal) : (s.setErr e).phase = s.phase := rfl
@[simp] theorem State.setErr_out (s : State) (e : Fatal) : (s.setErr e).out = s.out := rfl
@[simp] theorem State.setErr_bitout (s : State) (e : Fatal) : (s.setErr e).bitout = s.bitout := rfl
@[simp] theorem State.setErr_symout (s : State) (e : Fatal) : (s.setErr e).symout = s.symout := rfl
@[simp] theorem State.setErr_rspout (s : State) (e : Fatal) : (s.setErr e).rspout = s.rspout := rfl
@[simp] theorem State.setErr_input (s : State) (e : Fatal) : (s.setErr e).input = s.input := rfl

/-! ### `State.setPhase` -/

@[simp] theorem State.setPhase_param (s : State) (p : Phase) : (s.setPhase p).param = s.param := rfl
@[simp] theorem State.setPhase_freq (s : State) (p : Phase) : (s.setPhase p).freq = s.freq := rfl
@[simp] theorem State.setPhase_total (s : State) (p : Phase) : (s.setPhase p).total = s.total := rfl
@[simp] theorem State.setPhase_node (s : State) (p : Phase) : (s.setPhase p).node = s.node := rfl
@[simp] theorem State.setPhase_nleaf (s : State) (p : Phase) : (s.setPhase p).nleaf = s.nleaf := rfl
@[simp] theorem State.setPhase_nnode (s : State) (p : Phase) : (s.setPhase p).nnode = s.nnode := rfl
@[simp] theorem State.setPhase_root (s : State) (p : Phase) : (s.setPhase p).root = s.root := rfl
@[simp] theorem State.setPhase_treev (s : State) (p : Phase) : (s.setPhase p).treev = s.treev := rfl
@[simp] theorem State.setPhase_cur (s : State) (p : Phase) : (s.setPhase p).cur = s.cur := rfl
@[simp] theorem State.setPhase_code (s : State) (p : Phase) : (s.setPhase p).code = s.code := rfl
@[simp] theorem State.setPhase_pq (s : State) (p : Phase) : (s.setPhase p).pq = s.pq := rfl
@[simp] theorem State.setPhase_err (s : State) (p : Phase) : (s.setPhase p).err = s.err := rfl
@[simp] theorem State.setPhase_phase (s : State) (p : Phase) : (s.setPhase p).phase = p := rfl
@[simp] theorem State.setPhase_out (s : State) (p : Phase) : (s.setPhase p).out = s.out := rfl
@[simp] theorem State.setPhase_bitout (s : State) (p : Phase) : (s.setPhase p).bitout = s.bitout := rfl
@[simp] theorem State.setPhase_symout (s : State) (p : Phase) : (s.setPhase p).symout = s.symout := rfl
@[simp] theorem State.setPhase_rspout (s : State) (p : Phase) : (s.setPhase p).rspout = s.rspout := rfl
@[simp] theorem State.setPhase_input (s : State) (p : Phase) : (s.setPhase p).input = s.input := rfl

/-! ### `State.setCur` -/

@[simp] theorem State.setCur_param (s : State) (i : Nat) : (s.setCur i).param = s.param := rfl
@[simp] theorem State.setCur_freq (s : State) (i : Nat) : (s.setCur i).freq = s.freq := rfl
@[simp] theorem State.setCur_total (s : State) (i : Nat) : (s.setCur i).total = s.total := rfl
@[simp] theorem State.setCur_node (s : State) (i : Nat) : (s.setCur i).node = s.node := rfl
@[simp] theorem State.setCur_nleaf (s : State) (i : Nat) : (s.setCur i).nleaf = s.nleaf := rfl
@[simp] theorem State.setCur_nnode (s : State) (i : Nat) : (s.setCur i).nnode = s.nnode := rfl
@[simp] theorem State.setCur_root (s : State) (i : Nat) : (s.setCur i).root = s.root := rfl
@[simp] theorem State.setCur_treev (s : State) (i : Nat) : (s.setCur i).treev = s.treev := rfl
@[simp] theorem State.setCur_cur (s : State) (i : Nat) : (s.setCur i).cur = i := rfl
@[simp] theorem State.setCur_code (s : State) (i : Nat) : (s.setCur i).code = s.code := rfl
@[simp] theorem State.setCur_pq (s : State) (i : Nat) : (s.setCur i).pq = s.pq := rfl
@[simp] theorem State.setCur_err (s : State) (i : Nat) : (s.setCur i).err = s.err := rfl
@[simp] theorem State.setCur_phase (s : State) (i : Nat) : (s.setCur i).phase = s.phase := rfl
@[simp] theorem State.setCur_out (s : State) (i : Nat) : (s.setCur i).out = s.out := rfl
@[simp] theorem State.setCur_bitout (s : State) (i : Nat) : (s.setCur i).bitout = s.bitout := rfl
@[simp] theorem State.setCur_symout (s : State) (i : Nat) : (s.setCur i).symout = s.symout := rfl
@[simp] theorem State.setCur_rspout (s : State) (i : Nat) : (s.setCur i).rspout = s.rspout := rfl
@[simp] theorem State.setCur_input (s : State) (i : Nat) : (s.setCur i).input = s.input := rfl

/-! ### `State.clear` -/

@[simp] theorem State.clear_param (s : State) : (s.clear).param = s.param := rfl
@[simp] theorem State.clear_freq (s : State) : (s.clear).freq = List.replicate s.param.nsym 0 := rfl
@[simp] theorem State.clear_total (s : State) : (s.clear).total = 0 := rfl
@[simp] theorem State.clear_node (s : State) : (s.clear).node = [] := rfl
@[simp] theorem State.clear_nleaf (s : State) : (s.clear).nleaf = 0 := rfl
@[simp] theorem State.clear_nnode (s : State) : (s.clear).nnode = 0 := rfl
@[simp] theorem State.clear_root (s : State) : (s.clear).root = 0 := rfl
@[simp] theorem State.clear_treev (s : State) : (s.clear).treev = false := rfl
@[simp] theorem State.clear_cur (s : State) : (s.clear).cur = 0 := rfl
@[simp] theorem State.clear_code (s : State) : (s.clear).code = List.replicate s.param.nsym none := rfl
@[simp] theorem State.clear_pq (s : State) : (s.clear).pq = [] := rfl
@[simp] theorem State.clear_err (s : State) : (s.clear).err = none := rfl
@[simp] theorem State.clear_phase (s : State) : (s.clear).phase = Phase.count := rfl
@[simp] theorem State.clear_out (s : State) : (s.clear).out = s.out := rfl
@[simp] theorem State.clear_bitout (s : State) : (s.clear).bitout = s.bitout := rfl
@[simp] theorem State.clear_symout (s : State) : (s.clear).symout = s.symout := rfl
@[simp] theorem State.clear_rspout (s : State) : (s.clear).rspout = s.rspout := rfl
@[simp] theorem State.clear_input (s : State) : (s.clear).input = s.input := rfl

/-! ### `State.resetBlock` -/

@[simp] theorem State.resetBlock_param (s : State) : (s.resetBlock).param = s.param := rfl
@[simp] theorem State.resetBlock_freq (s : State) : (s.resetBlock).freq = List.replicate s.param.nsym 0 := rfl
@[simp] theorem State.resetBlock_total (s : State) : (s.resetBlock).total = 0 := rfl
@[simp] theorem State.resetBlock_node (s : State) : (s.resetBlock).node = [] := rfl
@[simp] theorem State.resetBlock_nleaf (s : State) : (s.resetBlock).nleaf = 0 := rfl
@[simp] theorem State.resetBlock_nnode (s : State) : (s.resetBlock).nnode = 0 := rfl
@[simp] theorem State.resetBlock_root (s : State) : (s.resetBlock).root = 0 := rfl
@[simp] theorem State.resetBlock_treev (s : State) : (s.resetBlock).treev = false := rfl
@[simp] theorem State.resetBlock_cur (s : State) : (s.resetBlock).cur = 0 := rfl
@[simp] theorem State.resetBlock_code (s : State) : (s.resetBlock).code = List.replicate s.param.nsym none := rfl
@[simp] theorem State.resetBlock_pq (s : State) : (s.resetBlock).pq = [] := rfl
@[simp] theorem State.resetBlock_err (s : State) : (s.resetBlock).err = none := rfl
@[simp] theorem State.resetBlock_phase (s : State) : (s.resetBlock).phase = Phase.count := rfl
@[simp] theorem State.resetBlock_out (s : State) : (s.resetBlock).out = [] := rfl
@[simp] theorem State.resetBlock_bitout (s : State) : (s.resetBlock).bitout = s.bitout := rfl
@[simp] theorem State.resetBlock_symout (s : State) : (s.resetBlock).symout = s.symout := rfl
@[simp] theorem State.resetBlock_rspout (s : State) : (s.resetBlock).rspout = s.rspout := rfl
@[simp] theorem State.resetBlock_input (s : State) : (s.resetBlock).input = s.input := rfl

/-! ### `State.countSymbol` -/

@[simp] theorem State.countSymbol_param (s : State) (x : Nat) : (s.countSymbol x).param = s.param := rfl
@[simp] theorem State.countSymbol_freq (s : State) (x : Nat) : (s.countSymbol x).freq = s.freq.set x (s.freqAt x + 1) := rfl
@[simp] theorem State.countSymbol_total (s : State) (x : Nat) : (s.countSymbol x).total = s.total + 1 := rfl
@[simp] theorem State.countSymbol_node (s : State) (x : Nat) : (s.countSymbol x).node = s.node := rfl
@[simp] theorem State.countSymbol_nleaf (s : State) (x : Nat) : (s.countSymbol x).nleaf = s.nleaf := rfl
@[simp] theorem State.countSymbol_nnode (s : State) (x : Nat) : (s.countSymbol x).nnode = s.nnode := rfl
@[simp] theorem State.countSymbol_root (s : State) (x : Nat) : (s.countSymbol x).root = s.root := rfl
@[simp] theorem State.countSymbol_treev (s : State) (x : Nat) : (s.countSymbol x).treev = s.treev := rfl
@[simp] theorem State.countSymbol_cur (s : State) (x : Nat) : (s.countSymbol x).cur = s.cur := rfl
@[simp] theorem State.countSymbol_code (s : State) (x : Nat) : (s.countSymbol x).code = s.code := rfl
@[simp] theorem State.countSymbol_pq (s : State) (x : Nat) : (s.countSymbol x).pq = s.pq := rfl
@[simp] theorem State.countSymbol_err (s : State) (x : Nat) : (s.countSymbol x).err = s.err := rfl
@[simp] theorem State.countSymbol_phase (s : State) (x : Nat) : (s.countSymbol x).phase = s.phase := rfl
@[simp] theorem State.countSymbol_out (s : State) (x : Nat) : (s.countSymbol x).out = s.out := rfl
@[simp] theorem State.countSymbol_bitout (s : State) (x : Nat) : (s.countSymbol x).bitout = s.bitout := rfl
@[simp] theorem State.countSymbol_symout (s : State) (x : Nat) : (s.countSymbol x).symout = s.symout := rfl
@[simp] theorem State.countSymbol_rspout (s : State) (x : Nat) : (s.countSymbol x).rspout = s.rspout := rfl
@[simp] theorem State.countSymbol_input (s : State) (x : Nat) : (s.countSymbol x).input = s.input := rfl

/-! ### `State.installTree` -/

@[simp] theorem State.installTree_param (s : State) (t : Built) : (s.installTree t).param = s.param := rfl
@[simp] theorem State.installTree_freq (s : State) (t : Built) : (s.installTree t).freq = s.freq := rfl
@[simp] theorem State.installTree_total (s : State) (t : Built) : (s.installTree t).total = s.total := rfl
@[simp] theorem State.installTree_node (s : State) (t : Built) : (s.installTree t).node = t.node := rfl
@[simp] theorem State.installTree_nleaf (s : State) (t : Built) : (s.installTree t).nleaf = t.nleaf := rfl
@[simp] theorem State.installTree_nnode (s : State) (t : Built) : (s.installTree t).nnode = t.nnode := rfl
@[simp] theorem State.installTree_root (s : State) (t : Built) : (s.installTree t).root = t.root := rfl
@[simp] theorem State.installTree_treev (s : State) (t : Built) : (s.installTree t).treev = t.treev := rfl
@[simp] theorem State.installTree_cur (s : State) (t : Built) : (s.installTree t).cur = t.root := rfl
@[simp] theorem State.installTree_code (s : State) (t : Built) : (s.installTree t).code = s.code := rfl
@[simp] theorem State.installTree_pq (s : State) (t : Built) : (s.installTree t).pq = t.pq := rfl
@[simp] theorem State.installTree_err (s : State) (t : Built) : (s.installTree t).err = s.err := rfl
@[simp] theorem State.installTree_phase (s : State) (t : Built) : (s.installTree t).phase = s.phase := rfl
@[simp] theorem State.installTree_out (s : State) (t : Built) : (s.installTree t).out = s.out := rfl
@[simp] theorem State.installTree_bitout (s : State) (t : Built) : (s.installTree t).bitout = s.bitout := rfl
@[simp] theorem State.installTree_symout (s : State) (t : Built) : (s.installTree t).symout = s.symout := rfl
@[simp] theorem State.installTree_rspout (s : State) (t : Built) : (s.installTree t).rspout = s.rspout := rfl
@[simp] theorem State.installTree_input (s : State) (t : Built) : (s.installTree t).input = s.input := rfl

/-! ### `State.installCode` -/

@[simp] theorem State.installCode_param (s : State) (c : List (Option Code)) : (s.installCode c).param = s.param := rfl
@[simp] theorem State.installCode_freq (s : State) (c : List (Option Code)) : (s.installCode c).freq = s.freq := rfl
@[simp] theorem State.installCode_total (s : State) (c : List (Option Code)) : (s.installCode c).total = s.total := rfl
@[simp] theorem State.installCode_node (s : State) (c : List (Option Code)) : (s.installCode c).node = s.node := rfl
@[simp] theorem State.installCode_nleaf (s : State) (c : List (Option Code)) : (s.installCode c).nleaf = s.nleaf := rfl
@[simp] theorem State.installCode_nnode (s : State) (c : List (Option Code)) : (s.installCode c).nnode = s.nnode := rfl
@[simp] theorem State.installCode_root (s : State) (c : List (Option Code)) : (s.installCode c).root = s.root := rfl
@[simp] theorem State.installCode_treev (s : State) (c : List (Option Code)) : (s.installCode c).treev = s.treev := rfl
@[simp] theorem State.installCode_cur (s : State) (c : List (Option Code)) : (s.installCode c).cur = s.cur := rfl
@[simp] theorem State.installCode_code (s : State) (c : List (Option Code)) : (s.installCode c).code = c := rfl
@[simp] theorem State.installCode_pq (s : State) (c : List (Option Code)) : (s.installCode c).pq = s.pq := rfl
@[simp] theorem State.installCode_err (s : State) (c : List (Option Code)) : (s.installCode c).err = s.err := rfl
@[simp] theorem State.installCode_phase (s : State) (c : List (Option Code)) : (s.installCode c).phase = s.phase := rfl
@[simp] theorem State.installCode_out (s : State) (c : List (Option Code)) : (s.installCode c).out = s.out := rfl
@[simp] theorem State.installCode_bitout (s : State) (c : List (Option Code)) : (s.installCode c).bitout = s.bitout := rfl
@[simp] theorem State.installCode_symout (s : State) (c : List (Option Code)) : (s.installCode c).symout = s.symout := rfl
@[simp] theorem State.installCode_rspout (s : State) (c : List (Option Code)) : (s.installCode c).rspout = s.rspout := rfl
@[simp] theorem State.installCode_input (s : State) (c : List (Option Code)) : (s.installCode c).input = s.input := rfl

/-! ### `State.offer` -/

@[simp] theorem State.offer_param (s : State) (e : HostPins) : (s.offer e).param = s.param := rfl
@[simp] theorem State.offer_freq (s : State) (e : HostPins) : (s.offer e).freq = s.freq := rfl
@[simp] theorem State.offer_total (s : State) (e : HostPins) : (s.offer e).total = s.total := rfl
@[simp] theorem State.offer_node (s : State) (e : HostPins) : (s.offer e).node = s.node := rfl
@[simp] theorem State.offer_nleaf (s : State) (e : HostPins) : (s.offer e).nleaf = s.nleaf := rfl
@[simp] theorem State.offer_nnode (s : State) (e : HostPins) : (s.offer e).nnode = s.nnode := rfl
@[simp] theorem State.offer_root (s : State) (e : HostPins) : (s.offer e).root = s.root := rfl
@[simp] theorem State.offer_treev (s : State) (e : HostPins) : (s.offer e).treev = s.treev := rfl
@[simp] theorem State.offer_cur (s : State) (e : HostPins) : (s.offer e).cur = s.cur := rfl
@[simp] theorem State.offer_code (s : State) (e : HostPins) : (s.offer e).code = s.code := rfl
@[simp] theorem State.offer_pq (s : State) (e : HostPins) : (s.offer e).pq = s.pq := rfl
@[simp] theorem State.offer_err (s : State) (e : HostPins) : (s.offer e).err = s.err := rfl
@[simp] theorem State.offer_phase (s : State) (e : HostPins) : (s.offer e).phase = s.phase := rfl
@[simp] theorem State.offer_out (s : State) (e : HostPins) : (s.offer e).out = s.out := rfl
@[simp] theorem State.offer_bitout (s : State) (e : HostPins) : (s.offer e).bitout = s.bitout := rfl
@[simp] theorem State.offer_symout (s : State) (e : HostPins) : (s.offer e).symout = s.symout := rfl
@[simp] theorem State.offer_rspout (s : State) (e : HostPins) : (s.offer e).rspout = s.rspout := rfl
@[simp] theorem State.offer_input (s : State) (e : HostPins) : (s.offer e).input = e :: s.input := rfl

/-! ### `State.record` -/

@[simp] theorem State.record_param (s : State) (x : Transfer) : (s.record x).param = s.param := by cases x <;> rfl
@[simp] theorem State.record_freq (s : State) (x : Transfer) : (s.record x).freq = s.freq := by cases x <;> rfl
@[simp] theorem State.record_total (s : State) (x : Transfer) : (s.record x).total = s.total := by cases x <;> rfl
@[simp] theorem State.record_node (s : State) (x : Transfer) : (s.record x).node = s.node := by cases x <;> rfl
@[simp] theorem State.record_nleaf (s : State) (x : Transfer) : (s.record x).nleaf = s.nleaf := by cases x <;> rfl
@[simp] theorem State.record_nnode (s : State) (x : Transfer) : (s.record x).nnode = s.nnode := by cases x <;> rfl
@[simp] theorem State.record_root (s : State) (x : Transfer) : (s.record x).root = s.root := by cases x <;> rfl
@[simp] theorem State.record_treev (s : State) (x : Transfer) : (s.record x).treev = s.treev := by cases x <;> rfl
@[simp] theorem State.record_cur (s : State) (x : Transfer) : (s.record x).cur = s.cur := by cases x <;> rfl
@[simp] theorem State.record_code (s : State) (x : Transfer) : (s.record x).code = s.code := by cases x <;> rfl
@[simp] theorem State.record_pq (s : State) (x : Transfer) : (s.record x).pq = s.pq := by cases x <;> rfl
@[simp] theorem State.record_err (s : State) (x : Transfer) : (s.record x).err = s.err := by cases x <;> rfl
@[simp] theorem State.record_phase (s : State) (x : Transfer) : (s.record x).phase = s.phase := by cases x <;> rfl
@[simp] theorem State.record_out (s : State) (x : Transfer) : (s.record x).out = s.out := by cases x <;> rfl
@[simp] theorem State.record_input (s : State) (x : Transfer) : (s.record x).input = s.input := by cases x <;> rfl
@[simp] theorem State.record_bit_bitout (s : State) (b : Bool) : (s.record (.bit b)).bitout = s.bitout ++ [b] := rfl
@[simp] theorem State.record_bit_symout (s : State) (b : Bool) : (s.record (.bit b)).symout = s.symout := rfl
@[simp] theorem State.record_bit_rspout (s : State) (b : Bool) : (s.record (.bit b)).rspout = s.rspout := rfl
@[simp] theorem State.record_sym_bitout (s : State) (y : Nat) : (s.record (.sym y)).bitout = s.bitout := rfl
@[simp] theorem State.record_sym_symout (s : State) (y : Nat) : (s.record (.sym y)).symout = s.symout ++ [y] := rfl
@[simp] theorem State.record_sym_rspout (s : State) (y : Nat) : (s.record (.sym y)).rspout = s.rspout := rfl
@[simp] theorem State.record_rsp_bitout (s : State) (r : Response) : (s.record (.rsp r)).bitout = s.bitout := rfl
@[simp] theorem State.record_rsp_symout (s : State) (r : Response) : (s.record (.rsp r)).symout = s.symout := rfl
@[simp] theorem State.record_rsp_rspout (s : State) (r : Response) : (s.record (.rsp r)).rspout = s.rspout ++ [r] := rfl

/-! ### `State.deliver` -/

/-- Recording a list of transfers adds each channel's data, in order, to that channel's history and changes nothing
else. -/
theorem State.foldl_record (ts : List Transfer) (s : State) :
    ts.foldl State.record s =
      { s with
        bitout := s.bitout ++ ts.filterMap Transfer.asBit
        symout := s.symout ++ ts.filterMap Transfer.asSym
        rspout := s.rspout ++ ts.filterMap Transfer.asRsp } := by
  induction ts generalizing s with
  | nil => simp
  | cons x xs ih => cases x <;> simp [ih, State.record, List.filterMap_cons, Transfer.asBit, Transfer.asSym, Transfer.asRsp]

/-- With no transfer pending there is nothing to deliver. -/
theorem State.deliver_of_out_nil (s : State) (h : s.out = []) : s.deliver = s := by
  cases s
  simp_all [State.deliver]

/-- Delivery, field by field (R52, R56). -/
theorem State.deliver_eq (s : State) :
    s.deliver =
      { s with
        out := []
        bitout := s.bitout ++ s.out.filterMap Transfer.asBit
        symout := s.symout ++ s.out.filterMap Transfer.asSym
        rspout := s.rspout ++ s.out.filterMap Transfer.asRsp } := by
  rw [State.deliver, State.foldl_record]

/-- Delivery of one response. -/
theorem State.deliver_rsp {s : State} (h : s.out = []) (r : Response) :
    (s.send [.rsp r]).deliver = { s with rspout := s.rspout ++ [r] } := by
  rw [State.deliver_eq]
  simp [h, Transfer.asBit, Transfer.asSym, Transfer.asRsp, State.send]

/-- Delivery of one symbol and the response. -/
theorem State.deliver_sym_rsp {s : State} (h : s.out = []) (x : Nat) (r : Response) :
    (s.send [.sym x, .rsp r]).deliver = { s with symout := s.symout ++ [x], rspout := s.rspout ++ [r] } := by
  rw [State.deliver_eq]
  simp [h, List.filterMap_cons, Transfer.asBit, Transfer.asSym, Transfer.asRsp, State.send]

/-- Delivery of the bits of a code and the response. -/
theorem State.deliver_bits_rsp {s : State} (h : s.out = []) (bs : List Bool) (r : Response) :
    (s.send (bs.map Transfer.bit ++ [.rsp r])).deliver =
      { s with bitout := s.bitout ++ bs, rspout := s.rspout ++ [r] } := by
  have h1 : (bs.map Transfer.bit).filterMap Transfer.asBit = bs := by
    induction bs with
    | nil => rfl
    | cons b bs ih => simp [Transfer.asBit, ih]
  have h2 : (bs.map Transfer.bit).filterMap Transfer.asSym = [] := by
    induction bs with
    | nil => rfl
    | cons b bs ih => simp [Transfer.asSym, List.filterMap_cons]
  have h3 : (bs.map Transfer.bit).filterMap Transfer.asRsp = [] := by
    induction bs with
    | nil => rfl
    | cons b bs ih => simp [Transfer.asRsp, List.filterMap_cons]
  rw [State.deliver_eq]
  simp [h, h1, h2, h3, Transfer.asBit, Transfer.asSym, Transfer.asRsp, State.send]

end Sys2Proof.Machine
end

