-- ==== Sys2Proof/Laws/Ops.lean ====
section
/-! SUPPORT. What each shared operation can do, said once: a command's answer, the checks before a command, the reads of
the arrays. -/

namespace Sys2Proof.Machine

/-- `respond` always answers a next state: the state with one more pending response. -/
@[simp] theorem respond_eq (rc : Rc) (d : Word) (s : State) :
    respond rc d s = .next (s.send [.rsp ⟨rc, d⟩]) := rfl

/-- A refusal answers the state it found, with the response (R176). -/
@[simp] theorem refuse_eq (r : Reason) (s : State) :
    refuse r s = .next (s.send [.rsp ⟨.refusal r, 0⟩]) := rfl

/-- A fatal error answers the state it found with `ERR` written, and the response (R175). -/
@[simp] theorem raise_eq (e : Fatal) (s : State) :
    raise e s = .next ((s.setErr e).send [.rsp ⟨.error e, 0⟩]) := rfl

/-- The response code of a state that has just queued a response. -/
@[simp] theorem lastRc_send_rsp (s : State) (r : Response) : (s.send [.rsp r]).lastRc = some r.rc := by
  simp [State.lastRc]

/-- Queueing in two parts is queueing at once. -/
@[simp] theorem send_send (s : State) (xs ys : List Transfer) : (s.send xs).send ys = s.send (xs ++ ys) := by
  simp [State.send]

/-- A halted block turns a working command away (R155). -/
theorem ifAdmitted_of_halted {adm : Phase → Bool} {s : State} {run : Outcome} (h : s.err ≠ none) :
    ifAdmitted adm s run = refuse .halted s := by
  rw [ifAdmitted, if_pos (Option.isSome_iff_ne_none.2 h)]

/-- A working command is turned away in a phase that does not accept it (R151). -/
theorem ifAdmitted_of_order {adm : Phase → Bool} {s : State} {run : Outcome} (h : s.err = none)
    (hp : adm s.phase = false) : ifAdmitted adm s run = refuse .order s := by
  simp [ifAdmitted, h, hp]

/-- A working command runs in a phase that admits it (R151). -/
theorem ifAdmitted_of_ok {adm : Phase → Bool} {s : State} {run : Outcome} (h : s.err = none)
    (hp : adm s.phase = true) : ifAdmitted adm s run = run := by
  simp [ifAdmitted, h, hp]

/-- All that `ifAdmitted` can answer as a next state. -/
theorem ifAdmitted_next {adm : Phase → Bool} {s t : State} {run : Outcome} (h : ifAdmitted adm s run = .next t) :
    (s.err ≠ none ∧ t = s.send [.rsp ⟨.refusal .halted, 0⟩]) ∨
    (s.err = none ∧ adm s.phase = false ∧ t = s.send [.rsp ⟨.refusal .order, 0⟩]) ∨
    (s.err = none ∧ adm s.phase = true ∧ run = .next t) := by
  by_cases he : s.err = none
  · cases hp : adm s.phase
    · rw [ifAdmitted_of_order he hp] at h
      exact .inr (.inl ⟨he, rfl, (Host.Outcome.next.inj h).symm⟩)
    · rw [ifAdmitted_of_ok he hp] at h
      exact .inr (.inr ⟨he, rfl, h⟩)
  · rw [ifAdmitted_of_halted he] at h
    exact .inl ⟨he, (Host.Outcome.next.inj h).symm⟩

/-- A legal symbol operand passes the first check (R61). -/
theorem withSymbol_of_lt {x : Nat} {s : State} {run : Outcome} (h : x < s.param.nsym) :
    withSymbol x s run = run := if_pos h

/-- An operand that is no symbol is refused (R66). -/
theorem withSymbol_of_not_lt {x : Nat} {s : State} {run : Outcome} (h : ¬ x < s.param.nsym) :
    withSymbol x s run = refuse .illegal s := if_neg h

/-- All that `withSymbol` can answer as a next state. -/
theorem withSymbol_next {x : Nat} {s t : State} {run : Outcome} (h : withSymbol x s run = .next t) :
    (¬ x < s.param.nsym ∧ t = s.send [.rsp ⟨.refusal .illegal, 0⟩]) ∨ (x < s.param.nsym ∧ run = .next t) := by
  by_cases hx : x < s.param.nsym
  · rw [withSymbol_of_lt hx] at h
    exact .inr ⟨hx, h⟩
  · rw [withSymbol_of_not_lt hx] at h
    exact .inl ⟨hx, (Host.Outcome.next.inj h).symm⟩

/-- A read of an arena entry that holds a value. -/
theorem readNode_of_some {i : Nat} {s : State} {nd : Node} {use : Node → Outcome} (h : s.node[i]? = some nd) :
    readNode i s use = use nd := by
  simp [readNode, h]

/-- All that `readNode` can answer as a next state. -/
theorem readNode_next {i : Nat} {s t : State} {use : Node → Outcome} (h : readNode i s use = .next t) :
    ∃ nd, s.node[i]? = some nd ∧ use nd = .next t := by
  unfold readNode at h
  split at h
  · exact ⟨_, ‹_›, h⟩
  · cases h

/-- All that `withNode` can answer as a next state. -/
theorem withNode_next {x : Nat} {s t : State} {use : Node → Outcome} (h : withNode x s use = .next t) :
    (s.nnode ≤ x ∧ t = s.send [.rsp ⟨.refusal .range, 0⟩]) ∨
    (x < s.nnode ∧ ∃ nd, s.node[x]? = some nd ∧ use nd = .next t) := by
  unfold withNode at h
  split at h
  · exact .inr ⟨‹_›, readNode_next h⟩
  · exact .inl ⟨by omega, (Host.Outcome.next.inj h).symm⟩

end Sys2Proof.Machine
end

