-- ==== Sys2Proof/Laws/Exec.lean ====
section
/-! SUPPORT. What a command can do, said once for each command and once for all: it is refused, it raises its fatal
error, or it has its own effect. -/

namespace Sys2Proof.Machine

/-- The own effect of a command, answered `OK` (R74). -/
def OkEffect (s t : State) : Instr → Prop
  | .clr => t = s.clear.send [.rsp ⟨.ok, 0⟩]
  | .cnt x => x < s.param.nsym ∧ s.err = none ∧ s.phase = .count ∧ s.total ≠ s.param.cntMax ∧
      t = (s.countSymbol x).send [.rsp ⟨.ok, 0⟩]
  | .bld => s.err = none ∧ s.phase = .count ∧
      t = ((s.installTree (buildTree s.freq)).setPhase .tree).send
        [.rsp ⟨.ok, zext32 (buildTree s.freq).nleaf⟩]
  | .drv => s.err = none ∧ s.phase = .tree ∧ ∃ tbl, deriveTable s.node s.root s.treev s.code = .ok tbl ∧
      t = ((s.installCode tbl).setPhase .code).send [.rsp ⟨.ok, zext32 s.nleaf⟩]
  | .enc x => x < s.param.nsym ∧ s.err = none ∧ s.phase = .code ∧ ∃ c, s.codeAt x = some c ∧
      t = s.send (c.cbits.map Transfer.bit ++ [.rsp ⟨.ok, zext32 c.clen⟩])
  | .dec b => s.err = none ∧ s.phase ≠ .count ∧
      ((s.treev = false ∧ t = s.send [.rsp ⟨.ok, 0⟩]) ∨
       (s.treev = true ∧ ∃ rt, s.node[s.root]? = some rt ∧
        ((rt.kind = .leaf ∧ t = s.send [.sym rt.sym, .rsp ⟨.ok, symbolData rt.sym⟩]) ∨
         (rt.kind = .internal ∧ ∃ nd c, s.node[s.cur]? = some nd ∧ s.node[nd.child b]? = some c ∧
          ((c.kind = .leaf ∧ t = (s.setCur s.root).send [.sym c.sym, .rsp ⟨.ok, symbolData c.sym⟩]) ∨
           (c.kind = .internal ∧ t = (s.setCur (nd.child b)).send [.rsp ⟨.ok, 0⟩]))))))
  | .fin => s.err = none ∧ s.phase ≠ .count ∧ s.mid = false ∧ t = s.send [.rsp ⟨.ok, 0⟩]
  | .abt => False
  | .rds x => ∃ v, s.statusReg x = some v ∧ t = s.send [.rsp ⟨.ok, v⟩]
  | .rdf x => x < s.param.nsym ∧ t = s.send [.rsp ⟨.ok, zext32 (s.freqAt x)⟩]
  | .rdl x => x < s.param.nsym ∧
      t = s.send [.rsp ⟨.ok, match s.codeAt x with
        | some c => zext32 c.clen
        | none => 0⟩]
  | .rdnk x => x < s.nnode ∧ ∃ nd, s.node[x]? = some nd ∧ t = s.send [.rsp ⟨.ok, nd.kindSym⟩]
  | .rdnf x => x < s.nnode ∧ ∃ nd, s.node[x]? = some nd ∧ t = s.send [.rsp ⟨.ok, zext32 nd.freq⟩]
  | .rdnl x => x < s.nnode ∧ ∃ nd, s.node[x]? = some nd ∧ t = s.send [.rsp ⟨.ok, zext32 nd.left⟩]
  | .rdnr x => x < s.nnode ∧ ∃ nd, s.node[x]? = some nd ∧ t = s.send [.rsp ⟨.ok, zext32 nd.right⟩]

/-- When a command is refused, and with which reason (R174). -/
def RefusedWith (s : State) (i : Instr) : Reason → Prop
  | .illegal => i.wellFormed s.param.symw = false
  | .halted => isWork i = true ∧ s.err ≠ none
  | .order => isWork i = true ∧ s.err = none ∧ admissionTable i s.phase = false
  | .range => outOfRange s i = true

/-- When a command raises its fatal error (R174). -/
def RaisesError (s : State) (i : Instr) (e : Fatal) : Prop :=
  isWork i = true ∧ s.err = none ∧ admissionTable i s.phase = true ∧ fatalCondition s i = some e

/-- What `exec` can answer as a next state. -/
def ExecCases (s t : State) (i : Instr) : Prop :=
  (∃ r, RefusedWith s i r ∧ t = s.send [.rsp ⟨.refusal r, 0⟩]) ∨
  (∃ e, RaisesError s i e ∧ t = (s.setErr e).send [.rsp ⟨.error e, 0⟩]) ∨
  OkEffect s t i

theorem execClr_cases {s t : State} (h : execClr s = .next t) : ExecCases s t .clr :=
  .inr (.inr (Host.Outcome.next.inj h).symm)

theorem execCnt_cases {x : Nat} {s t : State} (h : execCnt x s = .next t) : ExecCases s t (.cnt x) := by
  rcases withSymbol_next h with ⟨hx, rfl⟩ | ⟨hx, h⟩
  · exact .inl ⟨.illegal, by simpa [RefusedWith, Instr.wellFormed, Param.nsym] using hx, rfl⟩
  rcases ifAdmitted_next h with ⟨he, rfl⟩ | ⟨he, hp, rfl⟩ | ⟨he, hp, h⟩
  · exact .inl ⟨.halted, ⟨rfl, he⟩, rfl⟩
  · refine .inl ⟨.order, ⟨rfl, he, ?_⟩, rfl⟩
    cases hs : s.phase <;> simp_all [admCnt, admissionTable]
  · have hph : s.phase = .count := by cases hs : s.phase <;> simp_all [admCnt]
    split at h
    · exact .inr (.inl ⟨.cap, ⟨rfl, he, by simp [admissionTable, hph], by simp [fatalCondition, *]⟩,
        (Host.Outcome.next.inj h).symm⟩)
    · exact .inr (.inr ⟨hx, he, hph, ‹_›, (Host.Outcome.next.inj h).symm⟩)

theorem execBld_cases {s t : State} (h : execBld s = .next t) : ExecCases s t .bld := by
  rcases ifAdmitted_next h with ⟨he, rfl⟩ | ⟨he, hp, rfl⟩ | ⟨he, hp, h⟩
  · exact .inl ⟨.halted, ⟨rfl, he⟩, rfl⟩
  · refine .inl ⟨.order, ⟨rfl, he, ?_⟩, rfl⟩
    cases hs : s.phase <;> simp_all [admBld, admissionTable]
  · have hph : s.phase = .count := by cases hs : s.phase <;> simp_all [admBld]
    exact .inr (.inr ⟨he, hph, (Host.Outcome.next.inj h).symm⟩)

theorem execDrv_cases {s t : State} (h : execDrv s = .next t) : ExecCases s t .drv := by
  rcases ifAdmitted_next h with ⟨he, rfl⟩ | ⟨he, hp, rfl⟩ | ⟨he, hp, h⟩
  · exact .inl ⟨.halted, ⟨rfl, he⟩, rfl⟩
  · refine .inl ⟨.order, ⟨rfl, he, ?_⟩, rfl⟩
    cases hs : s.phase <;> simp_all [admDrv, admissionTable]
  · have hph : s.phase = .tree := by cases hs : s.phase <;> simp_all [admDrv]
    split at h
    · exact .inr (.inr ⟨he, hph, _, ‹_›, (Host.Outcome.next.inj h).symm⟩)
    · cases h

theorem execEnc_cases {x : Nat} {s t : State} (h : execEnc x s = .next t) : ExecCases s t (.enc x) := by
  rcases withSymbol_next h with ⟨hx, rfl⟩ | ⟨hx, h⟩
  · exact .inl ⟨.illegal, by simpa [RefusedWith, Instr.wellFormed, Param.nsym] using hx, rfl⟩
  rcases ifAdmitted_next h with ⟨he, rfl⟩ | ⟨he, hp, rfl⟩ | ⟨he, hp, h⟩
  · exact .inl ⟨.halted, ⟨rfl, he⟩, rfl⟩
  · refine .inl ⟨.order, ⟨rfl, he, ?_⟩, rfl⟩
    cases hs : s.phase <;> simp_all [admEnc, admissionTable]
  · have hph : s.phase = .code := by cases hs : s.phase <;> simp_all [admEnc]
    split at h
    · exact .inr (.inl ⟨.consist, ⟨rfl, he, by simp [admissionTable, hph], by simp [fatalCondition, *]⟩,
        (Host.Outcome.next.inj h).symm⟩)
    · refine .inr (.inr ⟨hx, he, hph, _, ‹_›, ?_⟩)
      rw [← Host.Outcome.next.inj h, State.emitBits, send_send]

theorem execDec_cases {b : Bool} {s t : State} (h : execDec b s = .next t) : ExecCases s t (.dec b) := by
  rcases ifAdmitted_next h with ⟨he, rfl⟩ | ⟨he, hp, rfl⟩ | ⟨he, hp, h⟩
  · exact .inl ⟨.halted, ⟨rfl, he⟩, rfl⟩
  · refine .inl ⟨.order, ⟨rfl, he, ?_⟩, rfl⟩
    cases hs : s.phase <;> simp_all [admDec, admissionTable]
  · have hph : s.phase ≠ .count := by cases hs : s.phase <;> simp_all [admDec]
    refine .inr (.inr ⟨he, hph, ?_⟩)
    split at h
    · obtain ⟨rt, hrt, h⟩ := readNode_next h
      refine .inr ⟨‹_›, rt, hrt, ?_⟩
      split at h
      · refine .inl ⟨‹_›, ?_⟩
        rw [← Host.Outcome.next.inj h, State.emitSym, send_send]
        rfl
      · obtain ⟨nd, hnd, h⟩ := readNode_next h
        obtain ⟨c, hc, h⟩ := readNode_next h
        refine .inr ⟨‹_›, nd, c, hnd, hc, ?_⟩
        split at h
        · exact .inl ⟨‹_›, by rw [← Host.Outcome.next.inj h]; simp [State.send, State.emitSym, State.setCur]⟩
        · exact .inr ⟨‹_›, (Host.Outcome.next.inj h).symm⟩
    · exact .inl ⟨by simpa using ‹¬ s.treev = true›, (Host.Outcome.next.inj h).symm⟩

theorem execFin_cases {s t : State} (h : execFin s = .next t) : ExecCases s t .fin := by
  rcases ifAdmitted_next h with ⟨he, rfl⟩ | ⟨he, hp, rfl⟩ | ⟨he, hp, h⟩
  · exact .inl ⟨.halted, ⟨rfl, he⟩, rfl⟩
  · refine .inl ⟨.order, ⟨rfl, he, ?_⟩, rfl⟩
    cases hs : s.phase <;> simp_all [admFin, admissionTable]
  · have hph : s.phase ≠ .count := by cases hs : s.phase <;> simp_all [admFin]
    split at h
    · refine .inr (.inl ⟨.trunc, ⟨rfl, he, ?_, ?_⟩, (Host.Outcome.next.inj h).symm⟩)
      · cases hs : s.phase <;> simp_all [admissionTable]
      · simpa [fatalCondition, State.mid] using ‹s.mid = true›
    · exact .inr (.inr ⟨he, hph, by simpa using ‹¬ s.mid = true›, (Host.Outcome.next.inj h).symm⟩)

theorem execAbt_cases {s t : State} (h : execAbt s = .next t) : ExecCases s t .abt := by
  rcases ifAdmitted_next h with ⟨he, rfl⟩ | ⟨he, hp, rfl⟩ | ⟨he, hp, h⟩
  · exact .inl ⟨.halted, ⟨rfl, he⟩, rfl⟩
  · cases hs : s.phase <;> simp_all [admAbt]
  · exact .inr (.inl ⟨.io, ⟨rfl, he, rfl, rfl⟩, (Host.Outcome.next.inj h).symm⟩)

/-- The status registers are numbers 0 to 6 (R30). -/
theorem statusReg_none_iff (s : State) (x : Nat) : s.statusReg x = none ↔ 6 < x := by
  unfold State.statusReg
  split <;> simp_all
  omega

theorem execRds_cases {x : Nat} {s t : State} (h : execRds x s = .next t) : ExecCases s t (.rds x) := by
  unfold execRds at h
  split at h
  · exact .inr (.inr ⟨_, ‹_›, (Host.Outcome.next.inj h).symm⟩)
  · refine .inl ⟨.range, ?_, (Host.Outcome.next.inj h).symm⟩
    simpa [RefusedWith, outOfRange] using (statusReg_none_iff s x).1 ‹_›

theorem execRdf_cases {x : Nat} {s t : State} (h : execRdf x s = .next t) : ExecCases s t (.rdf x) := by
  rcases withSymbol_next h with ⟨hx, rfl⟩ | ⟨hx, h⟩
  · exact .inl ⟨.illegal, by simpa [RefusedWith, Instr.wellFormed, Param.nsym] using hx, rfl⟩
  · exact .inr (.inr ⟨hx, (Host.Outcome.next.inj h).symm⟩)

theorem execRdl_cases {x : Nat} {s t : State} (h : execRdl x s = .next t) : ExecCases s t (.rdl x) := by
  rcases withSymbol_next h with ⟨hx, rfl⟩ | ⟨hx, h⟩
  · exact .inl ⟨.illegal, by simpa [RefusedWith, Instr.wellFormed, Param.nsym] using hx, rfl⟩
  · refine .inr (.inr ⟨hx, ?_⟩)
    cases hc : s.codeAt x with
    | some c =>
      simp only [hc] at h
      exact (Host.Outcome.next.inj h).symm
    | none =>
      simp only [hc] at h
      exact (Host.Outcome.next.inj h).symm

theorem execRdnk_cases {x : Nat} {s t : State} (h : execRdnk x s = .next t) : ExecCases s t (.rdnk x) := by
  rcases withNode_next h with ⟨hx, rfl⟩ | ⟨hx, nd, hn, h⟩
  · exact .inl ⟨.range, by simpa [RefusedWith, outOfRange] using hx, rfl⟩
  · exact .inr (.inr ⟨hx, nd, hn, (Host.Outcome.next.inj h).symm⟩)

theorem execRdnf_cases {x : Nat} {s t : State} (h : execRdnf x s = .next t) : ExecCases s t (.rdnf x) := by
  rcases withNode_next h with ⟨hx, rfl⟩ | ⟨hx, nd, hn, h⟩
  · exact .inl ⟨.range, by simpa [RefusedWith, outOfRange] using hx, rfl⟩
  · exact .inr (.inr ⟨hx, nd, hn, (Host.Outcome.next.inj h).symm⟩)

theorem execRdnl_cases {x : Nat} {s t : State} (h : execRdnl x s = .next t) : ExecCases s t (.rdnl x) := by
  rcases withNode_next h with ⟨hx, rfl⟩ | ⟨hx, nd, hn, h⟩
  · exact .inl ⟨.range, by simpa [RefusedWith, outOfRange] using hx, rfl⟩
  · exact .inr (.inr ⟨hx, nd, hn, (Host.Outcome.next.inj h).symm⟩)

theorem execRdnr_cases {x : Nat} {s t : State} (h : execRdnr x s = .next t) : ExecCases s t (.rdnr x) := by
  rcases withNode_next h with ⟨hx, rfl⟩ | ⟨hx, nd, hn, h⟩
  · exact .inl ⟨.range, by simpa [RefusedWith, outOfRange] using hx, rfl⟩
  · exact .inr (.inr ⟨hx, nd, hn, (Host.Outcome.next.inj h).symm⟩)

/-- Everything a command can answer as a next state. -/
theorem exec_cases {i : Instr} {s t : State} (h : exec i s = .next t) : ExecCases s t i := by
  cases i with
  | clr => exact execClr_cases h
  | cnt x => exact execCnt_cases h
  | bld => exact execBld_cases h
  | drv => exact execDrv_cases h
  | enc x => exact execEnc_cases h
  | dec b => exact execDec_cases h
  | fin => exact execFin_cases h
  | abt => exact execAbt_cases h
  | rds x => exact execRds_cases h
  | rdf x => exact execRdf_cases h
  | rdl x => exact execRdl_cases h
  | rdnk x => exact execRdnk_cases h
  | rdnf x => exact execRdnf_cases h
  | rdnl x => exact execRdnl_cases h
  | rdnr x => exact execRdnr_cases h

end Sys2Proof.Machine
end

