-- ==== Sys2Proof/Laws/Step.lean ====
section
/-! SUPPORT. What one accepted word, one rising edge and a run of words can do, said once
(20_memory.md R51, R55, R56, 30_encoding.md R70). -/

namespace Sys2Proof.Machine

/-- All that accepting a word can answer as a next state (R66, R70). -/
theorem runWord_next {w : Word} {s t : State} (h : runWord w s = .next t) :
    (∃ e, decode s.param.symw w = .error e ∧ t = s.send [.rsp ⟨.refusal .illegal, 0⟩]) ∨
    (∃ i, decode s.param.symw w = .ok i ∧ exec i s = .next t) := by
  unfold runWord at h
  split at h
  · exact .inl ⟨_, ‹_›, (Host.Outcome.next.inj h).symm⟩
  · exact .inr ⟨_, ‹_›, h⟩

/-- All that one rising edge can do (R55, R56, R190). -/
theorem clockEdge_next {e : HostPins} {s t : State} (h : clockEdge e s = .next t) :
    (e.rst = true ∧ t = s.resetBlock) ∨
    (e.rst = false ∧ s.out = [] ∧ e.cmdValid = true ∧ runWord e.cmdWord s = .next t) ∨
    (e.rst = false ∧ (∃ x xs, s.out = x :: xs ∧ e.takes x = true ∧ t = State.record { s with out := xs } x)) ∨
    (e.rst = false ∧ t = s) := by
  unfold clockEdge at h
  split at h
  · exact .inl ⟨‹_›, (Host.Outcome.next.inj h).symm⟩
  · have hr : e.rst = false := by simpa using ‹¬ e.rst = true›
    split at h
    · split at h
      · exact .inr (.inl ⟨hr, ‹_›, ‹_›, h⟩)
      · exact .inr (.inr (.inr ⟨hr, (Host.Outcome.next.inj h).symm⟩))
    · split at h
      · exact .inr (.inr (.inl ⟨hr, _, _, ‹_›, ‹_›, (Host.Outcome.next.inj h).symm⟩))
      · exact .inr (.inr (.inr ⟨hr, (Host.Outcome.next.inj h).symm⟩))

/-- All that one step can do: nothing while no edge waits, else the next edge. -/
theorem step_next {s t : State} (h : step s = .next t) :
    s.param.legal = true ∧
    ((s.input = [] ∧ t = s) ∨ ∃ e es, s.input = e :: es ∧ clockEdge e { s with input := es } = .next t) := by
  unfold step stepEdge at h
  split at h
  · refine ⟨‹_›, ?_⟩
    split at h
    · exact .inl ⟨‹_›, (Host.Outcome.next.inj h).symm⟩
    · exact .inr ⟨_, _, ‹_›, h⟩
  · cases h

/-- A run of one step more, of any machine. -/
theorem machine_run_succ (M : Host.Core) {k : Nat} {s t : M.State} (h : M.step s = .next t) :
    M.run (k + 1) s = M.run k t := by
  simp [Host.Core.run, h]

/-- A run of one step more. -/
theorem run_succ {k : Nat} {s t : State} (h : step s = .next t) :
    Host.Core.run Sys2Proof.core (k + 1) s = Host.Core.run Sys2Proof.core k t :=
  machine_run_succ Sys2Proof.core h

/-- A transaction of a legal word is its command, then the delivery of its transfers (R51). -/
theorem transact_ok {w : Word} {s t : State} {i : Instr} (hd : decode s.param.symw w = .ok i)
    (h : exec i s = .next t) : transact w s = .next t.deliver := by
  simp [transact, runWord, hd, h]

/-- A run of words goes on from where the first transaction ends. -/
theorem runWords_cons {w : Word} {ws : List Word} {s t : State} (h : transact w s = .next t) :
    runWords (w :: ws) s = runWords ws t := by
  simp [runWords, h]

/-- A run of two lists of words is the run of the second from where the first ends. -/
theorem runWords_append {us vs : List Word} {s t : State} (h : runWords us s = .next t) :
    runWords (us ++ vs) s = runWords vs t := by
  induction us generalizing s with
  | nil => cases h; rfl
  | cons w us ih =>
    simp only [List.cons_append, runWords] at h ⊢
    split at h
    · exact ih h
    · cases h
    · cases h

end Sys2Proof.Machine
end

