-- ==== Sys2Proof/Laws/Invariant.lean ====
section
/-! SUPPORT. What the invariant of the block says of its parts (10_state.md R32 to R36): there is a tree exactly while
`TREEV = 1`, every node the decoder reads is there, and the code table is derived without a stop. -/

namespace Sys2Proof.Machine

/-- A tree is there only after `BLD` (R20, R36). -/
theorem Inv.phase_of_treev {s : State} (h : Inv s) (ht : s.treev = true) : s.phase ≠ .count := by
  intro hp
  have := congrArg Built.treev (h.beforeBuild hp)
  simp [State.built, noBuilt, ht] at this

/-- While `TREEV = 1` the arena is the tree built from the counts (R32, R35). -/
theorem Inv.tree {s : State} (h : Inv s) (ht : s.treev = true) : TreeOf s.freq s.built := by
  have hb := h.afterBuild (h.phase_of_treev ht)
  have hne : leafList s.freq 0 ≠ [] := by
    intro hl
    rw [buildTree_of_no_key hl] at hb
    have := congrArg Built.treev hb
    simp [State.built, noBuilt, ht] at this
  rw [hb]
  exact buildTree_spec hne

/-- While `TREEV = 0` the tree elements are those of reset (R20, R36). -/
theorem Inv.no_tree {s : State} (h : Inv s) (ht : s.treev = false) : s.built = noBuilt := by
  by_cases hp : s.phase = .count
  · exact h.beforeBuild hp
  · have hb := h.afterBuild hp
    by_cases hl : leafList s.freq 0 = []
    · rw [hb, buildTree_of_no_key hl]
    · have := (buildTree_spec hl).treev
      rw [← hb] at this
      simp [State.built, ht] at this

/-- The root is there; it is a leaf exactly in the tree of one leaf (R107, R108). -/
theorem Inv.root {s : State} (h : Inv s) (ht : s.treev = true) :
    ∃ rt, s.node[s.root]? = some rt ∧ (rt.kind = .leaf ↔ s.nleaf = 1) := by
  have t := h.tree ht
  have hp := t.length_pos
  have h1 := t.size
  have h2 := t.root
  simp only [State.built] at hp h1 h2
  have hr : s.root < s.node.length := by omega
  refine ⟨_, List.getElem?_eq_getElem hr, ?_⟩
  have := t.leaf_iff (i := s.root) (nd := s.node[s.root]) (List.getElem?_eq_getElem hr)
  rw [this]
  simp only [State.built]
  omega

/-- Both children of an internal node are there (R32). -/
theorem Inv.child {s : State} (h : Inv s) (ht : s.treev = true) {i : Nat} {nd : Node} (hn : s.node[i]? = some nd)
    (hk : nd.kind = .internal) (b : Bool) : ∃ c, s.node[nd.child b]? = some c := by
  have := ((h.tree ht).forest.merged i nd hn hk).child_lt b
  have := (List.getElem?_eq_some_iff.1 hn).1
  exact ⟨_, List.getElem?_eq_getElem (by omega)⟩

/-- The walk of `DRV` ends and reads only nodes that are there (R116). -/
theorem Inv.derive {s : State} (h : Inv s) :
    ∃ tbl, deriveTable s.node s.root s.treev (emptyTable s.param) = .ok tbl := by
  cases ht : s.treev with
  | false => exact ⟨emptyTable s.param, by simp [deriveTable]⟩
  | true =>
    have t := h.tree ht
    have hr : s.built.treev = true := ht
    by_cases h2 : 2 ≤ s.nleaf
    · obtain ⟨tbl, h3, -⟩ := t.derive_paths (n := s.param.nsym) h2 (by rw [h.freqLength])
      rw [hr] at h3
      exact ⟨tbl, h3⟩
    · have h1 : s.nleaf = 1 := by
        have hp := t.length_pos
        have hs := t.size
        simp only [State.built] at hp hs
        omega
      obtain ⟨nd, -, -, -, h3⟩ := t.derive_single h1 (emptyTable s.param)
      rw [hr] at h3
      exact ⟨_, h3⟩

/-- Counting one symbol adds one to the sum of the counts (R15, R81). -/
theorem sum_set_succ (l : List Nat) (i : Nat) (h : i < l.length) : (l.set i (l.getD i 0 + 1)).sum = l.sum + 1 := by
  induction l generalizing i with
  | nil => simp at h
  | cons a l ih =>
    cases i with
    | zero =>
      simp
      omega
    | succ i =>
      simp only [List.length_cons, Nat.add_lt_add_iff_right] at h
      have := ih i h
      simp only [List.set_cons_succ, List.getD_cons_succ, List.sum_cons] at this ⊢
      omega

/-- One response alone is the output of a command that emits nothing (R56). -/
theorem outOk_rsp (r : Response) : OutOk [.rsp r] := .inr ⟨[], r, rfl, by simp⟩

/-- A transfer made leaves the rest of its command's transfers (R56). -/
theorem OutOk.tail {x : Transfer} {xs : List Transfer} (h : OutOk (x :: xs)) : OutOk xs := by
  rcases h with h | ⟨ems, r, he, hx⟩
  · cases h
  · cases ems with
    | nil => exact .inl (List.cons.inj he).2
    | cons e es => exact .inr ⟨es, r, (List.cons.inj he).2, fun y hy => hx y (List.mem_cons_of_mem _ hy)⟩

/-- The pins of later edges play no part in the invariant. -/
theorem Inv.input {s : State} (h : Inv s) (es : List HostPins) : Inv { s with input := es } :=
  ⟨h.legal, h.freqLength, h.totalSum, h.totalBound, h.beforeBuild, h.afterBuild, h.beforeDerive, h.afterDerive,
    h.cursor, h.output⟩

/-- The three shapes of a derived table (R116 to R118): no tree and no code; one leaf, whose code is `1`; or every leaf's
path. -/
theorem Inv.codes {s : State} (h : Inv s) (hp : s.phase ≠ .count) {tbl : List (Option Code)}
    (hd : deriveTable s.node s.root s.treev (emptyTable s.param) = .ok tbl) :
    (s.treev = false ∧ ∀ x, tbl.getD x none = none ∧ s.freqAt x = 0) ∨
    (s.treev = true ∧ s.nleaf = 1 ∧ ∃ rt, s.node[s.root]? = some rt ∧ rt.kind = .leaf ∧
      ∀ x c, tbl.getD x none = some c ↔ (x = rt.sym ∧ c = { clen := 1, cbits := [true] })) ∨
    (s.treev = true ∧ 2 ≤ s.nleaf ∧ ∀ x c, tbl.getD x none = some c ↔
      ∃ j q, walkPath s.node s.root q = some j ∧ LeafAt s.node j x ∧ c = { clen := q.length, cbits := q }) := by
  cases ht : s.treev with
  | false =>
    rw [ht] at hd
    simp only [deriveTable, Bool.false_eq_true, if_false, Except.ok.injEq] at hd
    subst hd
    refine .inl ⟨rfl, fun x => ⟨by simp [emptyTable], ?_⟩⟩
    have hl : leafList s.freq 0 = [] := by
      by_contra hl
      have := (buildTree_spec hl).treev
      rw [← h.afterBuild hp] at this
      simp [State.built, ht] at this
    have hz : s.freq.filter (fun c => decide (c ≠ 0)) = [] := by
      rw [← List.length_eq_zero_iff, ← leafList_length s.freq 0, hl]
      rfl
    rw [List.filter_eq_nil_iff] at hz
    simp only [State.freqAt, List.getD_eq_getElem?_getD]
    cases hx : s.freq[x]? with
    | none => rfl
    | some c => simpa using hz c (List.mem_of_getElem? hx)
  | true =>
    have t := h.tree ht
    have hr : s.built.treev = true := ht
    rw [ht] at hd
    by_cases h2 : 2 ≤ s.nleaf
    · obtain ⟨tbl', h3, -, h4⟩ := t.derive_paths (n := s.param.nsym) h2 (by rw [h.freqLength])
      rw [hr] at h3
      have : Except.ok (ε := Fault) tbl = .ok tbl' := hd.symm.trans h3
      cases this
      exact .inr (.inr ⟨rfl, h2, h4⟩)
    · have h1 : s.nleaf = 1 := by
        have hl := t.length_pos
        have hs := t.size
        simp only [State.built] at hl hs
        omega
      obtain ⟨nd, hnd, hk, -, h3⟩ := t.derive_single h1 (emptyTable s.param)
      rw [hr] at h3
      have : Except.ok (ε := Fault) tbl = .ok _ := hd.symm.trans h3
      cases this
      refine .inr (.inl ⟨rfl, h1, nd, hnd, hk, fun x c => ?_⟩)
      have hlt := (t.leaf_facts hnd hk).2.2
      rw [h.freqLength] at hlt
      simp only [writeCode, emptyTable, List.getD_eq_getElem?_getD, List.getElem?_set, List.length_replicate, hlt]
      by_cases hx : nd.sym = x
      · simp [hx, eq_comm]
      · simp only [hx, if_false, List.getElem?_replicate]
        split <;> simp [Ne.symm hx]

end Sys2Proof.Machine
end

