-- ==== Sys2Proof/Laws/PerInstr.lean ====
section
/-! SUPPORT. Statements made per instruction, about the instruction as syntax. -/

namespace Sys2Proof.Laws.WordFields

/-- The word of a well-formed command carries the command's `op`, `sub` and operand in the fields R60 gives them, and 0
in the reserved field. -/
def Statement (i : Instr) : Prop :=
  ∀ symw, symw ≤ 16 → i.wellFormed symw = true →
    opField (encode i) = i.op ∧ subField (encode i) = i.sub ∧ zField (encode i) = 0 ∧ argField (encode i) = i.arg

theorem clr : Statement .clr := fun _ hs h => fields_encode (arg_lt_of_wellFormed hs h)
theorem cnt (x : Nat) : Statement (.cnt x) := fun _ hs h => fields_encode (arg_lt_of_wellFormed hs h)
theorem bld : Statement .bld := fun _ hs h => fields_encode (arg_lt_of_wellFormed hs h)
theorem drv : Statement .drv := fun _ hs h => fields_encode (arg_lt_of_wellFormed hs h)
theorem enc (x : Nat) : Statement (.enc x) := fun _ hs h => fields_encode (arg_lt_of_wellFormed hs h)
theorem dec (b : Bool) : Statement (.dec b) := fun _ hs h => fields_encode (arg_lt_of_wellFormed hs h)
theorem fin : Statement .fin := fun _ hs h => fields_encode (arg_lt_of_wellFormed hs h)
theorem abt : Statement .abt := fun _ hs h => fields_encode (arg_lt_of_wellFormed hs h)
theorem rds (x : Nat) : Statement (.rds x) := fun _ hs h => fields_encode (arg_lt_of_wellFormed hs h)
theorem rdf (x : Nat) : Statement (.rdf x) := fun _ hs h => fields_encode (arg_lt_of_wellFormed hs h)
theorem rdl (x : Nat) : Statement (.rdl x) := fun _ hs h => fields_encode (arg_lt_of_wellFormed hs h)
theorem rdnk (x : Nat) : Statement (.rdnk x) := fun _ hs h => fields_encode (arg_lt_of_wellFormed hs h)
theorem rdnf (x : Nat) : Statement (.rdnf x) := fun _ hs h => fields_encode (arg_lt_of_wellFormed hs h)
theorem rdnl (x : Nat) : Statement (.rdnl x) := fun _ hs h => fields_encode (arg_lt_of_wellFormed hs h)
theorem rdnr (x : Nat) : Statement (.rdnr x) := fun _ hs h => fields_encode (arg_lt_of_wellFormed hs h)

end Sys2Proof.Laws.WordFields
end

