-- ==== Sys2Proof/Laws/Session.lean ====
section
/-! SUPPORT. Transactions of the count pass and of the decode pass, one command at a time (20_memory.md R51). -/

namespace Sys2Proof.Machine

/-- One accepted command of a run: the rest of the run goes on from what the delivery leaves. -/
theorem runWords_command {s t u : State} {i : Instr} {is : List Instr}
    (hd : decode s.param.symw (encode i) = .ok i) (hx : exec i s = .next t) (hu : t.deliver = u) :
    runWords (wordsOf (i :: is)) s = runWords (wordsOf is) u := by
  subst hu
  exact runWords_cons (transact_ok hd hx)

/-- A run of two lists of commands. -/
theorem runWords_commands {s t : State} {is js : List Instr} (h : runWords (wordsOf is) s = .next t) :
    runWords (wordsOf (is ++ js)) s = runWords (wordsOf js) t := by
  simp only [wordsOf, List.map_append]
  exact runWords_append h

/-- The transaction of a `CNT` that is admitted below `CNTMAX` (R81). -/
theorem exec_cnt_ok {s : State} {x : Nat} (ho : s.out = []) (hx : x < s.param.nsym) (he : s.err = none)
    (hp : s.phase = .count) (ht : s.total ≠ s.param.cntMax) :
    ∃ t, exec (.cnt x) s = .next t ∧
      t.deliver = { s.countSymbol x with rspout := s.rspout ++ [⟨.ok, 0⟩] } := by
  refine ⟨(s.countSymbol x).send [.rsp ⟨.ok, 0⟩], ?_, State.deliver_rsp (s := s.countSymbol x) ho ⟨.ok, 0⟩⟩
  rw [exec, execCnt, withSymbol_of_lt hx, ifAdmitted_of_ok he (by simp [hp, admCnt]), if_neg ht]
  rfl

/-- The transaction of a `DEC` in a tree with an internal root (R137, R138): the edge the bit names is followed; a leaf
at its end is emitted and the decoder is back at the root. -/
theorem exec_dec_edge {s : State} {rt nd c : Node} {b : Bool} (ho : s.out = []) (he : s.err = none)
    (hp : s.phase ≠ .count) (ht : s.treev = true) (hr : s.node[s.root]? = some rt) (hk : rt.kind = .internal)
    (hn : s.node[s.cur]? = some nd) (hc : s.node[nd.child b]? = some c) :
    ∃ t, exec (.dec b) s = .next t ∧
      (c.kind = .leaf → t.deliver = { s with
        cur := s.root, symout := s.symout ++ [c.sym], rspout := s.rspout ++ [⟨.ok, symbolData c.sym⟩] }) ∧
      (c.kind = .internal → t.deliver = { s with
        cur := nd.child b, rspout := s.rspout ++ [⟨.ok, 0⟩] }) := by
  have ha : admDec s.phase = true := by cases h : s.phase <;> simp_all [admDec]
  rw [exec, execDec, ifAdmitted_of_ok he ha, if_pos ht, readNode_of_some hr, hk]
  simp only [descend]
  rw [readNode_of_some hn, readNode_of_some hc]
  cases hck : c.kind with
  | leaf =>
    refine ⟨_, rfl, fun _ => ?_, fun h => nomatch h⟩
    have := State.deliver_sym_rsp (s := s.setCur s.root) ho c.sym ⟨.ok, symbolData c.sym⟩
    simpa [State.emitSym, State.setCur, State.send] using this
  | internal =>
    refine ⟨_, rfl, fun h => (nomatch h), fun _ => ?_⟩
    exact State.deliver_rsp (s := s.setCur (nd.child b)) ho ⟨.ok, 0⟩

end Sys2Proof.Machine
end

