-- ==== Sys2Proof/Machine/Assembler.lean ====
section
/-! DEFINITION. The spec's assembler: the lines of 30_encoding.md R71, the pseudo-instructions of R72, and how a
response is written (R73). Texts are lists of characters. -/

namespace Sys2Proof.Machine

/-- One line of source (30_encoding.md R71, R72). -/
inductive Line where
  /-- A blank line, or a comment alone. -/
  | blank
  /-- A command. -/
  | cmd (i : Instr)
  /-- `.word 0x........`: a raw word, legal or not. -/
  | raw (w : Word)
  /-- `COUNT "..."`. -/
  | count (syms : List Nat)
  /-- `ENCODE "..."`. -/
  | encode (syms : List Nat)
  /-- `DECODE "..."`. -/
  | decode (bits : List Bool)
  /-- `COMPRESS "..."`. -/
  | compress (syms : List Nat)
  /-- `EXPAND "...", "..."`. -/
  | expand (ref : List Nat) (bits : List Bool)
  /-- `NOP`. -/
  | nop
  deriving DecidableEq, Repr

/-- The words a line stands for (30_encoding.md R71, R72). -/
def Line.words : Line → List Word
  | .blank => []
  | .cmd i => [Sys2Proof.encode i]
  | .raw w => [w]
  | .count syms => wordsOf (countPass syms)
  | .encode syms => wordsOf (encodePass syms)
  | .decode bits => wordsOf (decodePass bits)
  | .compress syms => wordsOf (compressSeq syms)
  | .expand ref bits => wordsOf (expandSeq ref bits)
  | .nop => [Sys2Proof.encode (.rds 0)]

/-- A piece of a line. -/
inductive Token where
  /-- A run of characters without spaces. -/
  | word (cs : List Char)
  /-- A character in single quotes. -/
  | chr (c : Char)
  /-- A text in double quotes. -/
  | str (cs : List Char)
  | comma
  deriving DecidableEq, Repr

/-- Where in a line the reader of tokens stands. -/
inductive LexMode where
  | gap
  | inWord (acc : List Char)
  | inStr (acc : List Char)
  | chrOpen
  | chrClose (c : Char)
  deriving DecidableEq, Repr

/-- The tokens of a line; a `#` outside quotes starts a comment (30_encoding.md R71). -/
def lexLine : LexMode → List Char → Option (List Token)
  | .gap, [] => some []
  | .gap, c :: cs =>
    if c = ' ' ∨ c = '\t' then lexLine .gap cs
    else if c = '#' then some []
    else if c = ',' then (lexLine .gap cs).map (Token.comma :: ·)
    else if c = '\"' then lexLine (.inStr []) cs
    else if c = '\'' then lexLine .chrOpen cs
    else lexLine (.inWord [c]) cs
  | .inWord acc, [] => some [.word acc.reverse]
  | .inWord acc, c :: cs =>
    if c = ' ' ∨ c = '\t' then (lexLine .gap cs).map (Token.word acc.reverse :: ·)
    else if c = '#' then some [.word acc.reverse]
    else if c = ',' then (lexLine .gap cs).map fun ts => Token.word acc.reverse :: Token.comma :: ts
    else lexLine (.inWord (c :: acc)) cs
  | .inStr _, [] => none
  | .inStr acc, c :: cs =>
    if c = '\"' then (lexLine .gap cs).map (Token.str acc.reverse :: ·) else lexLine (.inStr (c :: acc)) cs
  | .chrOpen, [] => none
  | .chrOpen, c :: cs => lexLine (.chrClose c) cs
  | .chrClose _, [] => none
  | .chrClose x, c :: cs => if c = '\'' then (lexLine .gap cs).map (Token.chr x :: ·) else none

/-- The value of a decimal digit. -/
def decDigit (c : Char) : Option Nat :=
  if 48 ≤ c.toNat ∧ c.toNat ≤ 57 then some (c.toNat - 48) else none

/-- The value of a hexadecimal digit, of either case. -/
def hexDigit (c : Char) : Option Nat :=
  if 48 ≤ c.toNat ∧ c.toNat ≤ 57 then some (c.toNat - 48)
  else if 65 ≤ c.toNat ∧ c.toNat ≤ 70 then some (c.toNat - 55)
  else if 97 ≤ c.toNat ∧ c.toNat ≤ 102 then some (c.toNat - 87)
  else none

/-- The number a run of digits stands for, after those already read. -/
def digits (dig : Char → Option Nat) (base : Nat) : Nat → List Char → Option Nat
  | acc, [] => some acc
  | acc, c :: cs =>
    match dig c with
    | some d => digits dig base (acc * base + d) cs
    | none => none

/-- A number: decimal, or hexadecimal after `0x` (30_encoding.md R71). -/
def number : List Char → Option Nat
  | [] => none
  | '0' :: 'x' :: [] => none
  | '0' :: 'x' :: cs => digits hexDigit 16 0 cs
  | cs => digits decDigit 10 0 cs

/-- An operand must fit the field `arg` (30_encoding.md R60). -/
def fitsArg (n : Nat) : Option Nat := if n < 2 ^ 17 then some n else none

/-- A symbol operand: a number or a character in single quotes (30_encoding.md R71). DESIGN CHOICE (log entry 15):
00_scope.md section 5 and R71 give a quoted character's number only as its ASCII code at `SYMW = 8`; the model takes the
character's Unicode code point in every instance. Unsafe for a claim about source text. -/
def symbolOperand : Token → Option Nat
  | .word cs => (number cs).bind fitsArg
  | .chr c => fitsArg c.toNat
  | .str _ => none
  | .comma => none

/-- An index operand: a number (30_encoding.md R71). -/
def indexOperand : Token → Option Nat
  | .word cs => (number cs).bind fitsArg
  | .chr _ => none
  | .str _ => none
  | .comma => none

/-- A bit operand: `0` or `1` (30_encoding.md R71). -/
def bitOperand : Token → Option Bool
  | .word ['0'] => some false
  | .word ['1'] => some true
  | _ => none

/-- The symbols of a text in double quotes (30_encoding.md R72). DESIGN CHOICE (log entry 15): each character's number is
its Unicode code point, as in `symbolOperand`. -/
def textSymbols (cs : List Char) : Option (List Nat) := cs.mapM fun c => fitsArg c.toNat

/-- The bits of a text in double quotes (30_encoding.md R72). -/
def textBits (cs : List Char) : Option (List Bool) :=
  cs.mapM fun c => if c = '0' then some false else if c = '1' then some true else none

/-- A command of form `S` or `X`, by its mnemonic. -/
def numberedCommand (m : List Char) : Option ((Token → Option Nat) × (Nat → Instr)) :=
  if m = ['C', 'N', 'T'] then some (symbolOperand, .cnt)
  else if m = ['E', 'N', 'C'] then some (symbolOperand, .enc)
  else if m = ['R', 'D', 'F'] then some (symbolOperand, .rdf)
  else if m = ['R', 'D', 'L'] then some (symbolOperand, .rdl)
  else if m = ['R', 'D', 'S'] then some (indexOperand, .rds)
  else if m = ['R', 'D', 'N', 'K'] then some (indexOperand, .rdnk)
  else if m = ['R', 'D', 'N', 'F'] then some (indexOperand, .rdnf)
  else if m = ['R', 'D', 'N', 'L'] then some (indexOperand, .rdnl)
  else if m = ['R', 'D', 'N', 'R'] then some (indexOperand, .rdnr)
  else none

/-- A line without operand, by its mnemonic. -/
def bareCommand (m : List Char) : Option Line :=
  if m = ['C', 'L', 'R'] then some (.cmd .clr)
  else if m = ['B', 'L', 'D'] then some (.cmd .bld)
  else if m = ['D', 'R', 'V'] then some (.cmd .drv)
  else if m = ['F', 'I', 'N'] then some (.cmd .fin)
  else if m = ['A', 'B', 'T'] then some (.cmd .abt)
  else if m = ['N', 'O', 'P'] then some .nop
  else none

/-- A line with one word operand. -/
def wordLine (m : List Char) (t : Token) : Option Line :=
  if m = ['D', 'E', 'C'] then (bitOperand t).map fun b => .cmd (.dec b)
  else
    match numberedCommand m with
    | some (operand, mk) => (operand t).map fun n => .cmd (mk n)
    | none => none

/-- A line `.word 0x........`. -/
def rawLine (cs : List Char) : Option Line :=
  match cs with
  | '0' :: 'x' :: ds =>
    if ds.length = 8 then (digits hexDigit 16 0 ds).map fun n => .raw (BitVec.ofNat 32 n) else none
  | _ => none

/-- A pseudo-instruction with one text (30_encoding.md R72). -/
def textLine (m : List Char) (cs : List Char) : Option Line :=
  if m = ['C', 'O', 'U', 'N', 'T'] then (textSymbols cs).map .count
  else if m = ['E', 'N', 'C', 'O', 'D', 'E'] then (textSymbols cs).map .encode
  else if m = ['D', 'E', 'C', 'O', 'D', 'E'] then (textBits cs).map .decode
  else if m = ['C', 'O', 'M', 'P', 'R', 'E', 'S', 'S'] then (textSymbols cs).map .compress
  else none

/-- The line a list of tokens stands for. -/
def lineOf : List Token → Option Line
  | [] => some .blank
  | [.word m] => bareCommand m
  | [.word m, .str cs] => textLine m cs
  | [.word m, .word cs] =>
    if m = ['.', 'w', 'o', 'r', 'd'] then rawLine cs else wordLine m (.word cs)
  | [.word m, .chr c] => wordLine m (.chr c)
  | [.word m, .str r, .comma, .str b] =>
    if m = ['E', 'X', 'P', 'A', 'N', 'D'] then
      match textSymbols r, textBits b with
      | some ref, some bits => some (.expand ref bits)
      | _, _ => none
    else none
  | _ => none

/-- Reading one line of source (30_encoding.md R71, R72). -/
def parseLine (cs : List Char) : Option Line := (lexLine .gap cs).bind lineOf

/-- The words of a source text, line by line (30_encoding.md R71). -/
def assemble (src : List (List Char)) : Option (List Word) :=
  (src.mapM parseLine).map fun ls => ls.flatMap Line.words

/-- The name of a response code (30_encoding.md R69). -/
def Rc.text : Rc → List Char
  | .ok => ['O', 'K']
  | .error .io => ['E', '_', 'I', 'O']
  | .error .consist => ['E', '_', 'C', 'O', 'N', 'S', 'I', 'S', 'T']
  | .error .trunc => ['E', '_', 'T', 'R', 'U', 'N', 'C']
  | .error .cap => ['E', '_', 'C', 'A', 'P']
  | .refusal .illegal => ['R', '_', 'I', 'L', 'L', 'E', 'G', 'A', 'L']
  | .refusal .order => ['R', '_', 'O', 'R', 'D', 'E', 'R']
  | .refusal .range => ['R', '_', 'R', 'A', 'N', 'G', 'E']
  | .refusal .halted => ['R', '_', 'H', 'A', 'L', 'T', 'E', 'D']

/-- The character of a hexadecimal digit. -/
def hexChar (n : Nat) : Char := if n < 10 then Char.ofNat (48 + n) else Char.ofNat (55 + n)

/-- A number in hexadecimal with the given number of digits. -/
def hexText : Nat → Nat → List Char
  | 0, _ => []
  | k + 1, n => hexText k (n / 16) ++ [hexChar (n % 16)]

/-- A response as it is written: `-> RC, RDATA` (30_encoding.md R73). -/
def Response.text (r : Response) : List Char :=
  ['-', '>', ' '] ++ r.rc.text ++ [',', ' ', '0', 'x'] ++ hexText 8 r.rdata.toNat

/-- A bit string as it is written, its first bit first (00_scope.md section 5, 30_encoding.md R73). -/
def bitsText (b : List Bool) : List Char := b.map fun x => if x then '1' else '0'

/-- What a command emitted on the bit port as it is written (30_encoding.md R73). -/
def bitsEmission (b : List Bool) : List Char :=
  ['B', 'I', 'T', 'O', 'U', 'T', ' ', '+', '=', ' ', '\"'] ++ bitsText b ++ ['\"']

/-- The symbol a command emitted on the symbol port as it is written (30_encoding.md R73). DESIGN CHOICE (log entry 15):
how a symbol is written that is no ASCII character, or whose instance has not `SYMW = 8`, the spec leaves open; the model
writes the character with that code point in single quotes, unescaped. A 16-bit symbol in the surrogate range is no
character, and all such symbols are written as the one character of number 0. Unsafe for a claim about written text. -/
def symEmission (sym : Nat) : List Char :=
  ['S', 'Y', 'M', 'O', 'U', 'T', ' ', '+', '=', ' ', '\'', Char.ofNat sym, '\'']

end Sys2Proof.Machine
end

