-- ==== Sys2Proof/Tests/Slice0.lean ====
section
/-! SUPPORT. Tests of the model against 95_test_vectors.md and the rules' own examples, each about one word, one step or
one small state; and, for every obligation with hypotheses, a witness that meets them. The small states are those of
95_test_vectors.md for the input "aaabbc" with `a`, `b`, `c` as symbols 0, 1, 2, on an instance with `SYMW = 2`,
`CNTW = 3`, so `NSYM = 4`, `CNTMAX = 7`. -/

namespace Sys2Proof.Tests

open Sys2Proof Sys2Proof.Machine

/-! ### Small states -/

/-- The next state of an outcome. -/
def after (o : Outcome) : Option State :=
  match o with
  | .next t => some t
  | .fault _ => none
  | .refused _ => none

/-- The response code and the datum of the last response an outcome queues. -/
def answer (o : Outcome) : Option (Rc × Word) :=
  match (after o).bind fun t => t.out.getLast? with
  | some (.rsp r) => some (r.rc, r.rdata)
  | some (.bit _) => none
  | some (.sym _) => none
  | none => none

/-- The instance `SYMW = 2`, `CNTW = 3`. -/
def small : Param := { symw := 2, cntw := 3 }

/-- That instance right after reset. -/
def fresh : State := State.resetOf small

/-- After the count pass over "aaabbc". -/
def counted : State := { fresh with freq := [3, 2, 1, 0], total := 6 }

/-- After a count pass of `CNTMAX` symbols. -/
def full : State := { fresh with freq := [4, 2, 1, 0], total := 7 }

/-- After `BLD` (95_test_vectors.md section 2.4, row "aaabbc"). -/
def treed : State :=
  { counted with
    node := [⟨.leaf, 3, 0, 0, 0⟩, ⟨.leaf, 2, 1, 0, 0⟩, ⟨.leaf, 1, 2, 0, 0⟩, ⟨.internal, 3, 0, 2, 1⟩,
      ⟨.internal, 6, 0, 0, 3⟩]
    nleaf := 3, nnode := 5, root := 4, treev := true, cur := 4, pq := [⟨6, 4⟩], phase := .tree }

/-- After `DRV` (the same row). -/
def coded : State :=
  { treed with
    code := [some ⟨1, [false]⟩, some ⟨2, [true, true]⟩, some ⟨2, [true, false]⟩, none], phase := .code }

/-- Mid-code: after `DEC 1` (95_test_vectors.md section 2.6). -/
def midCode : State := { treed with cur := 3 }

/-- After the count pass over symbol 0 five times and `BLD` (row "aaaaa"). -/
def single : State :=
  { fresh with
    freq := [5, 0, 0, 0], total := 5, node := [⟨.leaf, 5, 0, 0, 0⟩], nleaf := 1, nnode := 1, treev := true,
    pq := [⟨5, 0⟩], phase := .tree }

/-- After `BLD` on the empty map (row of the empty input). -/
def noTree : State := { fresh with phase := .tree }

/-- The state halted by a fatal error. -/
def haltedBy (e : Fatal) (s : State) : State := { s with err := some e }

/-- The state with one more edge waiting. -/
def edge (e : HostPins) (s : State) : State := s.offer e

/-! ### Operands a command word cannot carry (30_encoding.md R61) -/

theorem test_wellFormed_cnt : (Instr.cnt 3).wellFormed 2 = true ∧ (Instr.cnt 4).wellFormed 2 = false := by decide
theorem test_wellFormed_enc : (Instr.enc 255).wellFormed 8 = true ∧ (Instr.enc 256).wellFormed 8 = false := by decide
theorem test_wellFormed_rdf : (Instr.rdf 1).wellFormed 1 = true ∧ (Instr.rdf 2).wellFormed 1 = false := by decide
theorem test_wellFormed_rdl : (Instr.rdl 65535).wellFormed 16 = true ∧ (Instr.rdl 65536).wellFormed 16 = false := by
  decide
theorem test_wellFormed_rds : (Instr.rds 131071).wellFormed 8 = true ∧ (Instr.rds 131072).wellFormed 8 = false := by
  decide
theorem test_wellFormed_rdnk : (Instr.rdnk 131071).wellFormed 8 = true ∧ (Instr.rdnk 131072).wellFormed 8 = false := by
  decide
theorem test_wellFormed_rdnf : (Instr.rdnf 131071).wellFormed 8 = true ∧ (Instr.rdnf 131072).wellFormed 8 = false := by
  decide
theorem test_wellFormed_rdnl : (Instr.rdnl 131071).wellFormed 8 = true ∧ (Instr.rdnl 131072).wellFormed 8 = false := by
  decide
theorem test_wellFormed_rdnr : (Instr.rdnr 131071).wellFormed 8 = true ∧ (Instr.rdnr 131072).wellFormed 8 = false := by
  decide

/-! ### Words written out from the encoding: `op` 8 bits, `sub` 4 bits, `z` 3 bits, `arg` 17 bits (30_encoding.md R60,
R65; 95_test_vectors.md section 2.1) -/

theorem test_decode_clr : decode 8 0b00000001000000000000000000000000 = .ok (.clr) ∧ encode (.clr) = 0x01000000 := by
  decide
theorem test_decode_cnt : decode 8 0b00000010000000000000000001100001 = .ok (.cnt 0x61) ∧ encode (.cnt 0x61) = 0x02000061 := by
  decide
theorem test_decode_bld : decode 8 0b00000011000000000000000000000000 = .ok (.bld) ∧ encode (.bld) = 0x03000000 := by
  decide
theorem test_decode_drv : decode 8 0b00000100000000000000000000000000 = .ok (.drv) ∧ encode (.drv) = 0x04000000 := by
  decide
theorem test_decode_enc : decode 8 0b00000101000000000000000001100010 = .ok (.enc 0x62) ∧ encode (.enc 0x62) = 0x05000062 := by
  decide
theorem test_decode_dec : decode 8 0b00000110000000000000000000000001 = .ok (.dec true) ∧ encode (.dec true) = 0x06000001 := by
  decide
theorem test_decode_fin : decode 8 0b00000111000000000000000000000000 = .ok (.fin) ∧ encode (.fin) = 0x07000000 := by
  decide
theorem test_decode_abt : decode 8 0b00001000000000000000000000000000 = .ok (.abt) ∧ encode (.abt) = 0x08000000 := by
  decide
theorem test_decode_rds : decode 8 0b00010000000000000000000000000110 = .ok (.rds 6) ∧ encode (.rds 6) = 0x10000006 := by
  decide
theorem test_decode_rdf : decode 8 0b00010001000000000000000001111010 = .ok (.rdf 0x7A) ∧ encode (.rdf 0x7A) = 0x1100007A := by
  decide
theorem test_decode_rdl : decode 8 0b00010010000000000000000001100011 = .ok (.rdl 0x63) ∧ encode (.rdl 0x63) = 0x12000063 := by
  decide
theorem test_decode_rdnk : decode 8 0b00010011000000000000000000000100 = .ok (.rdnk 4) ∧ encode (.rdnk 4) = 0x13000004 := by
  decide
theorem test_decode_rdnf : decode 8 0b00010011000100000000000000000100 = .ok (.rdnf 4) ∧ encode (.rdnf 4) = 0x13100004 := by
  decide
theorem test_decode_rdnl : decode 8 0b00010011001000000000000000000100 = .ok (.rdnl 4) ∧ encode (.rdnl 4) = 0x13200004 := by
  decide
theorem test_decode_rdnr : decode 8 0b00010011001100000000000000000100 = .ok (.rdnr 4) ∧ encode (.rdnr 4) = 0x13300004 := by
  decide

/-- The same words as the table numbers their bits. -/
theorem test_decodeTableWord :
    decodeTableWord 32 0x02000061 = some (.cnt 0x61) ∧ decodeTableWord 32 0x13300004 = some (.rdnr 4) ∧
      decodeTableWord 32 0x00000000 = none := by decide

/-! ### Illegal words, one of each reason, at the edges of each case (95_test_vectors.md section 2.1) -/

theorem test_illegal_op :
    decode 8 0x00000000 = .error .reservedOp ∧ decode 8 0x09000000 = .error .reservedOp ∧
      decode 8 0x0F000000 = .error .reservedOp ∧ decode 8 0x14000000 = .error .reservedOp ∧
      decode 8 0x000200FF = .error .reservedBits ∧ decode 8 0xFFFFFFFF = .error .reservedBits := by decide
theorem test_illegal_z : decode 8 0x02020061 = .error .reservedBits ∧ decode 8 0x10020000 = .error .reservedBits := by
  decide
theorem test_illegal_sub :
    decode 8 0x03100000 = .error .subNotZero ∧ decode 8 0x12F00000 = .error .subNotZero ∧
      decode 8 0x13400000 = .error .subReserved ∧ decode 8 0x13F00000 = .error .subReserved := by decide
theorem test_illegal_arg :
    decode 8 0x01000001 = .error .argNotZero ∧ decode 8 0x02000100 = .error .argNotSymbol ∧
      decode 8 0x11000100 = .error .argNotSymbol ∧ decode 8 0x06000002 = .error .argNotBit ∧
      decode 2 0x02000004 = .error .argNotSymbol := by decide
theorem test_legal_edges :
    decode 8 0x020000FF = .ok (.cnt 255) ∧ decode 8 0x1001FFFF = .ok (.rds 131071) ∧
      decode 2 0x02000003 = .ok (.cnt 3) := by decide

/-! ### One step of each command -/

/-- A word placed for the fetch is the next thing the step runs. -/
theorem test_withFetchWord :
    after (step (counted.withFetchWord 32 0x11000000)) = some { counted with out := [.rsp ⟨.ok, 3⟩] } := by decide

/-- 95_test_vectors.md section 2.1: an illegal word sent from the reset state. -/
theorem test_illegal_step :
    after (step (fresh.withFetchWord 32 0xFFFFFFFF)) = some { fresh with out := [.rsp ⟨.refusal .illegal, 0⟩] } := by
  decide

/-- `CLR` from a halted state (P5): the reset state. -/
theorem test_clr : after (exec .clr (haltedBy .trunc midCode)) = some { fresh with out := [.rsp ⟨.ok, 0⟩] } := by decide

/-- Section 2.2: `CNT` counts in the last place below `CNTMAX` ... -/
theorem test_cnt : after (exec (.cnt 0) counted) = some { full with out := [.rsp ⟨.ok, 0⟩] } := by decide

/-- ... and at `CNTMAX` raises `E_CAP` (P8). -/
theorem test_cnt_cap : after (exec (.cnt 0) full) = some { haltedBy .cap full with out := [.rsp ⟨.error .cap, 0⟩] } := by
  decide

/-- Section 2.4, row "aaabbc". -/
theorem test_bld : after (exec .bld counted) = some { treed with out := [.rsp ⟨.ok, 3⟩] } := by decide

/-- Section 2.3, all frequencies equal: pure insertion order. -/
theorem test_bld_ties :
    (buildTree [1, 1, 1, 1]).node.drop 4 =
      [⟨.internal, 2, 0, 0, 1⟩, ⟨.internal, 2, 0, 2, 3⟩, ⟨.internal, 4, 0, 4, 5⟩] := by decide

/-- Section 2.4, row "aaabbc". -/
theorem test_drv : after (exec .drv treed) = some { coded with out := [.rsp ⟨.ok, 3⟩] } := by decide

/-- P7: a second `DRV`. -/
theorem test_drv_order : after (exec .drv coded) = some { coded with out := [.rsp ⟨.refusal .order, 0⟩] } := by decide

/-- Section 2.5: the code of `c` is `10`, first bit first. -/
theorem test_enc :
    after (exec (.enc 2) coded) = some { coded with out := [.bit true, .bit false, .rsp ⟨.ok, 2⟩] } := by decide

/-- Section 2.5: a symbol with no code. -/
theorem test_enc_consist :
    after (exec (.enc 3) coded) =
      some { haltedBy .consist coded with out := [.rsp ⟨.error .consist, 0⟩] } := by decide

/-- Section 2.6: `DEC 1` from the root goes to node 3, and `DEC 0` there emits `c` and goes back to the root. -/
theorem test_dec :
    after (exec (.dec true) treed) = some { midCode with out := [.rsp ⟨.ok, 0⟩] } ∧
      after (exec (.dec false) midCode) = some { treed with out := [.sym 2, .rsp ⟨.ok, 0x80000002⟩] } := by decide

/-- Section 2.6: the truncated stream. -/
theorem test_fin_trunc :
    after (exec .fin midCode) = some { haltedBy .trunc midCode with out := [.rsp ⟨.error .trunc, 0⟩] } := by decide

/-- Section 2.6: the whole stream. -/
theorem test_fin : after (exec .fin treed) = some { treed with out := [.rsp ⟨.ok, 0⟩] } := by decide

/-- Section 2.7: `ABT` during the count pass. -/
theorem test_abt : after (exec .abt counted) = some { haltedBy .io counted with out := [.rsp ⟨.error .io, 0⟩] } := by
  decide

/-- P6: `ABT` on a halted block. -/
theorem test_abt_halted : answer (exec .abt (haltedBy .consist coded)) = some (.refusal .halted, 0) := by decide

/-- Section 2.6: `STATUS` after the truncation is `0x3D`; section 2.2: `PARAM` with `CNTW = 2`, `SYMW = 8`. -/
theorem test_rds :
    answer (exec (.rds 0) (haltedBy .trunc midCode)) = some (.ok, 0x3D) ∧
      answer (exec (.rds 6) { fresh with param := ⟨8, 2⟩ }) = some (.ok, 0x208) ∧
      answer (exec (.rds 6) State.reset) = some (.ok, 0x2008) := by decide

/-- Section 2.7: the status registers in mid-code, and the first number that is none. -/
theorem test_rds_numbers :
    answer (exec (.rds 1) midCode) = some (.ok, 6) ∧ answer (exec (.rds 2) midCode) = some (.ok, 3) ∧
      answer (exec (.rds 3) midCode) = some (.ok, 5) ∧ answer (exec (.rds 4) midCode) = some (.ok, 4) ∧
      answer (exec (.rds 5) midCode) = some (.ok, 3) ∧ answer (exec (.rds 7) midCode) = some (.refusal .range, 0) := by
  decide

/-- Section 2.2. -/
theorem test_rdf : answer (exec (.rdf 1) counted) = some (.ok, 2) ∧ answer (exec (.rdf 3) counted) = some (.ok, 0) := by
  decide

/-- Section 2.4, note (4). -/
theorem test_rdl :
    answer (exec (.rdl 1) coded) = some (.ok, 2) ∧ answer (exec (.rdl 3) coded) = some (.ok, 0) ∧
      answer (exec (.rdl 1) treed) = some (.ok, 0) := by decide

/-- Section 2.4, note (3). -/
theorem test_rdnk :
    answer (exec (.rdnk 1) treed) = some (.ok, 1) ∧ answer (exec (.rdnk 3) treed) = some (.ok, 0x80000000) ∧
      answer (exec (.rdnk 5) treed) = some (.refusal .range, 0) := by decide
theorem test_rdnf : answer (exec (.rdnf 3) treed) = some (.ok, 3) ∧ answer (exec (.rdnf 4) treed) = some (.ok, 6) := by
  decide
theorem test_rdnl :
    answer (exec (.rdnl 3) treed) = some (.ok, 2) ∧ answer (exec (.rdnl 4) treed) = some (.ok, 0) ∧
      answer (exec (.rdnl 0) treed) = some (.ok, 0) := by decide
theorem test_rdnr :
    answer (exec (.rdnr 3) treed) = some (.ok, 1) ∧ answer (exec (.rdnr 4) treed) = some (.ok, 3) ∧
      answer (exec (.rdnr 5) treed) = some (.refusal .range, 0) := by decide

/-- Section 2.6: a single leaf is emitted whichever the bit; with no tree nothing is. -/
theorem test_dec_small :
    answer (exec (.dec false) single) = some (.ok, 0x80000000) ∧
      after (exec (.dec true) noTree) = some { noTree with out := [.rsp ⟨.ok, 0⟩] } := by decide

/-- Section 2.3, row "aaabbc": the keys the first merge extracts. -/
theorem test_pq_extract :
    (pqExtractMin (pqInsert ⟨1, 2⟩ (pqInsert ⟨2, 1⟩ (pqInsert ⟨3, 0⟩ pqClear)))).map Prod.fst = some ⟨1, 2⟩ ∧
      (pqExtractMin (pqInsert ⟨3, 3⟩ (pqInsert ⟨3, 0⟩ pqClear))).map Prod.fst = some ⟨3, 0⟩ := by decide

/-! ### Ports -/

/-- 20_memory.md R56: the bits come before the response, and no command is accepted meanwhile. -/
theorem test_outPins :
    ({ coded with out := [.bit true, .rsp ⟨.ok, 1⟩] } : State).outPins false =
      { cmdReady := false, rsp := none, bit := some true, sym := none } := by decide

/-- 70_reset_and_hazards.md R190: a reset drops what is pending; what was delivered stays (10_state.md R36). -/
theorem test_reset_edge :
    after (step (edge HostPins.reset { coded with out := [.bit true, .rsp ⟨.ok, 1⟩], bitout := [false] })) =
      some { fresh with bitout := [false] } := by decide

/-! ### The assembler (30_encoding.md R71, R72) -/

theorem test_parse_cnt : parseLine ['C', 'N', 'T', ' ', '\'', 'a', '\''] = some (.cmd (.cnt 0x61)) := by decide
theorem test_parse_hex : parseLine ['R', 'D', 'F', ' ', '0', 'x', '7', 'A'] = some (.cmd (.rdf 0x7A)) := by decide
theorem test_parse_comment : parseLine ['B', 'L', 'D', ' ', '#', 'x'] = some (.cmd .bld) := by decide
theorem test_parse_count : parseLine ['C', 'O', 'U', 'N', 'T', ' ', '\"', 'a', 'b', '\"'] = some (.count [0x61, 0x62]) := by
  decide

/-- R72: `COMPRESS` of the empty text is `CLR`, `BLD`, `DRV`, `FIN` (95_test_vectors.md section 1.7). -/
theorem test_compress_empty : (Line.compress []).words = [0x01000000, 0x03000000, 0x04000000, 0x07000000] := by decide

/-! ### The invariant of the small states -/

theorem outOk_nil : OutOk [] := .inl rfl

theorem fresh_inv : Inv fresh where
  legal := by decide
  freqLength := by decide
  totalSum := by decide
  totalBound := by decide
  beforeBuild := fun _ => rfl
  afterBuild := fun h => absurd rfl h
  beforeDerive := fun _ => rfl
  afterDerive := fun h => nomatch h
  cursor := ⟨fun _ => rfl, fun h => nomatch h⟩
  output := outOk_nil

theorem full_inv : Inv full where
  legal := by decide
  freqLength := by decide
  totalSum := by decide
  totalBound := by decide
  beforeBuild := fun _ => rfl
  afterBuild := fun h => absurd rfl h
  beforeDerive := fun _ => rfl
  afterDerive := fun h => nomatch h
  cursor := ⟨fun _ => rfl, fun h => nomatch h⟩
  output := outOk_nil

theorem treed_inv : Inv treed where
  legal := by decide
  freqLength := by decide
  totalSum := by decide
  totalBound := by decide
  beforeBuild := fun h => nomatch h
  afterBuild := fun _ => by decide
  beforeDerive := fun _ => rfl
  afterDerive := fun h => nomatch h
  cursor := ⟨fun h => (nomatch h), fun _ => .inr ⟨_, rfl, rfl⟩⟩
  output := outOk_nil

theorem midCode_inv : Inv midCode where
  legal := by decide
  freqLength := by decide
  totalSum := by decide
  totalBound := by decide
  beforeBuild := fun h => nomatch h
  afterBuild := fun _ => by decide
  beforeDerive := fun _ => rfl
  afterDerive := fun h => nomatch h
  cursor := ⟨fun h => (nomatch h), fun _ => .inr ⟨_, rfl, rfl⟩⟩
  output := outOk_nil

theorem coded_inv : Inv coded where
  legal := by decide
  freqLength := by decide
  totalSum := by decide
  totalBound := by decide
  beforeBuild := fun h => nomatch h
  afterBuild := fun _ => by decide
  beforeDerive := fun h => absurd rfl h
  afterDerive := fun _ => rfl
  cursor := ⟨fun h => (nomatch h), fun _ => .inr ⟨_, rfl, rfl⟩⟩
  output := outOk_nil

theorem single_inv : Inv single where
  legal := by decide
  freqLength := by decide
  totalSum := by decide
  totalBound := by decide
  beforeBuild := fun h => nomatch h
  afterBuild := fun _ => by decide
  beforeDerive := fun _ => rfl
  afterDerive := fun h => nomatch h
  cursor := ⟨fun h => (nomatch h), fun _ => .inl ⟨rfl, _, rfl, rfl⟩⟩
  output := outOk_nil

/-- The single-leaf tree with its code table (R117). -/
theorem single_coded_inv : Inv { single with code := [some ⟨1, [true]⟩, none, none, none], phase := .code } where
  legal := by decide
  freqLength := by decide
  totalSum := by decide
  totalBound := by decide
  beforeBuild := fun h => nomatch h
  afterBuild := fun _ => by decide
  beforeDerive := fun h => absurd rfl h
  afterDerive := fun _ => rfl
  cursor := ⟨fun h => (nomatch h), fun _ => .inl ⟨rfl, _, rfl, rfl⟩⟩
  output := outOk_nil

theorem noTree_inv : Inv noTree where
  legal := by decide
  freqLength := by decide
  totalSum := by decide
  totalBound := by decide
  beforeBuild := fun h => nomatch h
  afterBuild := fun _ => by decide
  beforeDerive := fun _ => rfl
  afterDerive := fun h => nomatch h
  cursor := ⟨fun _ => rfl, fun h => nomatch h⟩
  output := outOk_nil

/-! ### Witnesses: the hypotheses of each obligation, met together -/

theorem witness_DecodeOfEncodeIsTheCommand :
    16 ≤ 16 ∧ (Instr.cnt 65535).wellFormed 16 = true ∧ (Instr.rdnr 131071).wellFormed 16 = true ∧
      decode 16 (encode (.rdnr 131071)) = .ok (.rdnr 131071) := by decide

theorem witness_EncodeOfDecodeIsTheWord :
    decode 8 0x1001FFFF = .ok (.rds 131071) ∧ decode 8 0x06000000 = .ok (.dec false) := by decide

theorem witness_IllegalWordsAreExactlyThese :
    decode fresh.param.symw 0x02000004 = .error .argNotSymbol ∧
      after (runWord 0x02000004 fresh) = some (fresh.send [.rsp ⟨.refusal .illegal, 0⟩]) := by decide

/-- At the edges of each default mask. -/
theorem witness_DefaultMasksDecideLegality :
    decode 8 0x020000FF = .ok (.cnt 255) ∧ (0x020000FF : Word) &&& 0xFFFFFF00 = 0x02000000 ∧
      decode 8 0x06000001 = .ok (.dec true) ∧ (0x06000001 : Word) &&& 0xFFFFFFFE = 0x06000000 ∧
      decode 8 0x1331FFFF = .ok (.rdnr 131071) ∧ (0x1331FFFF : Word) &&& 0xFFFE0000 = 0x13300000 := by decide

theorem witness_StepRunsTheDecodedCommand :
    let s := edge (HostPins.command 0x03000000) counted
    s.param.legal = true ∧ s.input = [HostPins.command 0x03000000] ∧
      (HostPins.command 0x03000000).rst = false ∧ (HostPins.command 0x03000000).cmdValid = true ∧ s.out = [] ∧
      decode s.param.symw (HostPins.command 0x03000000).cmdWord = .ok .bld := by decide

theorem witness_IllegalWordStepIsRefused :
    let s := edge (HostPins.command 0x02000004) (haltedBy .io counted)
    s.param.legal = true ∧ s.input = [HostPins.command 0x02000004] ∧
      (HostPins.command 0x02000004).rst = false ∧ (HostPins.command 0x02000004).cmdValid = true ∧ s.out = [] ∧
      decode s.param.symw (HostPins.command 0x02000004).cmdWord = .error .argNotSymbol := by decide

/-- A reset in the middle of a command, with a command word offered. -/
def pendingBit : State := { coded with out := [.bit true, .rsp ⟨.ok, 1⟩], bitout := [false] }

/-- A symbol pending. -/
def pendingSym : State := { treed with out := [.sym 0, .rsp ⟨.ok, 0x80000000⟩] }

/-- A response pending. -/
def pendingRsp : State := { treed with out := [.rsp ⟨.ok, 3⟩] }

theorem witness_ResetAndClrGiveTheResetState :
    let s := edge HostPins.reset pendingBit
    s.param.legal = true ∧ s.input = [HostPins.reset] ∧ HostPins.reset.rst = true := by decide

theorem witness_ResetDropsPendingTransfers :
    let s := edge HostPins.reset pendingBit
    s.param.legal = true ∧ s.input = [HostPins.reset] ∧ HostPins.reset.rst = true ∧ s.out ≠ [] := by decide

/-- The host is ready on no channel, and offers a word. -/
def stalled : HostPins := { HostPins.command 0x01000000 with rspReady := false, bitReady := false, symReady := false }

theorem witness_OfferedTransferIsHeld :
    let s := edge stalled pendingBit
    s.param.legal = true ∧ s.input = [stalled] ∧ stalled.rst = false ∧ s.out = [.bit true, .rsp ⟨.ok, 1⟩] ∧
      stalled.takes (.bit true) = false ∧ stalled.takes (.sym 0) = false ∧
      stalled.takes (.rsp ⟨.ok, 1⟩) = false := by decide

/-- Each kind of transfer, one after the other. -/
theorem witness_TakenTransferJoinsItsHistory :
    small.legal = true ∧ HostPins.idle.rst = false ∧
      (edge HostPins.idle pendingBit).out = [.bit true, .rsp ⟨.ok, 1⟩] ∧ HostPins.idle.takes (.bit true) = true ∧
      (edge HostPins.idle pendingSym).out = [.sym 0, .rsp ⟨.ok, 0x80000000⟩] ∧ HostPins.idle.takes (.sym 0) = true ∧
      (edge HostPins.idle pendingRsp).out = [.rsp ⟨.ok, 3⟩] ∧ HostPins.idle.takes (.rsp ⟨.ok, 3⟩) = true := by decide

theorem witness_OutputPinsShowTheNextTransfer :
    (pendingBit.outPins false).bit = some true ∧ (pendingSym.outPins false).sym = some 0 ∧
      (pendingRsp.outPins false).rsp = some ⟨.ok, 3⟩ ∧ (fresh.outPins false).cmdReady = true := by decide

theorem witness_ReadyHostDrainsAllTransfers :
    let s : State := { pendingBit with input := [HostPins.idle, HostPins.idle, HostPins.reset] }
    s.param.legal = true ∧ s.input = List.replicate s.out.length HostPins.idle ++ [HostPins.reset] := by decide

theorem witness_HistoriesOnlyGrow :
    after (step (edge HostPins.idle pendingBit)) = some { coded with out := [.rsp ⟨.ok, 1⟩], bitout := [false, true] } := by
  decide

theorem witness_InstanceNeverChanges : after (step (edge HostPins.reset coded)) = some fresh := by decide

/-- Each parameter just outside its range. -/
theorem witness_ParametersOfNoInstanceStop :
    ∀ p ∈ ([⟨0, 32⟩, ⟨17, 32⟩, ⟨8, 0⟩, ⟨8, 33⟩] : List Param), ∀ s : State, s = { fresh with param := p } →
      ¬ (1 ≤ s.param.symw ∧ s.param.symw ≤ 16 ∧ 1 ≤ s.param.cntw ∧ s.param.cntw ≤ 32) := by
  rintro p hp s rfl
  revert p
  decide

theorem witness_OneResponsePerCommand :
    Inv coded ∧ after (runWord 0x05000002 coded) =
      some { coded with out := [.bit true, .bit false, .rsp ⟨.ok, 2⟩] } := ⟨coded_inv, by decide⟩

/-- Every answer that a command can give, but `OK`, given by one that can. -/
theorem witness_ResponseCodesAndWhoAnswersThem :
    (after (exec .abt fresh)).bind State.lastRc = some (.error .io) ∧
      (after (exec (.enc 3) coded)).bind State.lastRc = some (.error .consist) ∧
      (after (exec .fin midCode)).bind State.lastRc = some (.error .trunc) ∧
      (after (exec (.cnt 0) full)).bind State.lastRc = some (.error .cap) ∧
      (after (exec (.dec true) fresh)).bind State.lastRc = some (.refusal .order) ∧
      (after (exec (.rdnr 5) treed)).bind State.lastRc = some (.refusal .range) ∧
      (after (exec .abt (haltedBy .cap full))).bind State.lastRc = some (.refusal .halted) := by decide

/-- A refusal with each of the four reasons. -/
theorem witness_RefusalChangesNothing :
    ((after (exec (.cnt 4) fresh)).bind State.lastRc = some (.refusal .illegal)) ∧
      ((after (exec .drv fresh)).bind State.lastRc = some (.refusal .order)) ∧
      ((after (exec (.rdnk 5) treed)).bind State.lastRc = some (.refusal .range)) ∧
      ((after (exec .fin (haltedBy .io treed))).bind State.lastRc = some (.refusal .halted)) := by decide

/-- A fatal error with each of the four codes. -/
theorem witness_FatalErrorChangesOnlyErr :
    ((after (exec .abt fresh)).bind State.lastRc = some (.error .io)) ∧
      ((after (exec (.enc 3) coded)).bind State.lastRc = some (.error .consist)) ∧
      ((after (exec .fin midCode)).bind State.lastRc = some (.error .trunc)) ∧
      ((after (exec (.cnt 0) full)).bind State.lastRc = some (.error .cap)) := by decide

theorem witness_FirstErrorIsKept :
    (haltedBy .consist coded).err ≠ none ∧ Instr.abt ≠ Instr.clr ∧
      (after (exec .abt (haltedBy .consist coded))).map State.err = some (some .consist) := by decide

/-- The three moves of `PHASE`. -/
theorem witness_PhaseMovesOnlyForward :
    (after (exec .bld counted)).map State.phase = some .tree ∧
      (after (exec .drv treed)).map State.phase = some .code ∧
      (after (exec .clr coded)).map State.phase = some .count := by decide

theorem witness_BuiltStructuresAreFrozen :
    Instr.drv ≠ Instr.clr ∧ treed.phase ≠ .count ∧ (after (exec .drv treed)).map State.built = some treed.built ∧
      coded.phase = .code ∧ (after (exec (.dec true) coded)).map State.code = some coded.code := by decide

/-- A command in a phase on each side of each row of the table. -/
theorem witness_AdmissionTableHolds :
    fresh.err = none ∧ (Instr.cnt 3).wellFormed small.symw = true ∧
      admissionTable (.cnt 3) treed.phase = false ∧ admissionTable (.cnt 3) fresh.phase = true ∧
      admissionTable .bld coded.phase = false ∧ admissionTable .bld fresh.phase = true ∧
      admissionTable .drv fresh.phase = false ∧ admissionTable .drv coded.phase = false ∧
      admissionTable .drv treed.phase = true ∧
      admissionTable (.enc 0) treed.phase = false ∧ admissionTable (.enc 0) coded.phase = true ∧
      admissionTable (.dec true) fresh.phase = false ∧ admissionTable (.dec true) treed.phase = true ∧
      admissionTable .fin fresh.phase = false ∧ admissionTable .fin coded.phase = true ∧
      admissionTable .abt fresh.phase = true := by decide

theorem witness_HaltedAdmission :
    (Instr.enc 3).wellFormed small.symw = true ∧ (haltedBy .cap coded).err ≠ none ∧ isWork (.enc 3) = true ∧
      isWork .clr = false ∧ isWork (.rds 7) = false ∧ isWork .abt = true ∧ isRead (.rdl 2) = true ∧
      Instr.rdl 2 ≠ .rds 0 ∧ after (exec (.rdl 2) coded) = some (coded.send [.rsp ⟨.ok, 2⟩]) ∧
      after (exec (.rdl 2) (haltedBy .cap coded)) = some ((haltedBy .cap coded).send [.rsp ⟨.ok, 2⟩]) := by decide

/-- Each answer of the chain of checks. -/
theorem witness_FirstFailingCheckAnswers :
    ((after (runWord 0x02000004 (haltedBy .io fresh))).bind State.lastRc = some (.refusal .illegal)) ∧
      ((after (runWord 0x04000000 (haltedBy .io fresh))).bind State.lastRc = some (.refusal .halted)) ∧
      ((after (runWord 0x05000003 treed)).bind State.lastRc = some (.refusal .order)) ∧
      ((after (runWord 0x13000005 (haltedBy .io treed))).bind State.lastRc = some (.refusal .range)) ∧
      ((after (runWord 0x05000003 coded)).bind State.lastRc = some (.error .consist)) ∧
      ((after (runWord 0x05000002 coded)).bind State.lastRc = some .ok) := by decide

theorem witness_ReadsChangeNothing :
    isRead (.rdnf 4) = true ∧ after (exec (.rdnf 4) treed) = some (treed.send [.rsp ⟨.ok, 6⟩]) ∧
      isRead (.rds 7) = true ∧ after (exec (.rds 7) treed) = some (treed.send [.rsp ⟨.refusal .range, 0⟩]) := by decide

/-- The largest symbol and the first operand that is none; `TOTAL` at `CNTMAX` and one below. -/
theorem witness_CntCountsOneOccurrence :
    ¬ 4 < fresh.param.nsym ∧ 3 < fresh.param.nsym ∧ (haltedBy .io full).err ≠ none ∧ full.err = none ∧
      treed.phase ≠ .count ∧ full.phase = .count ∧ full.total = full.param.cntMax ∧
      counted.total + 1 = counted.param.cntMax ∧ counted.freq.length = counted.param.nsym := by decide

theorem witness_CountsNeverWrap :
    Inv full ∧ after (step (edge (HostPins.command 0x02000000) full)) =
      some { haltedBy .cap full with out := [.rsp ⟨.error .cap, 0⟩] } := ⟨full_inv, by decide⟩

theorem witness_RdfReadsTheCount :
    ¬ 4 < counted.param.nsym ∧ 3 < counted.param.nsym ∧ 0 < (haltedBy .io coded).param.nsym := by decide

/-- Two members of equal frequency, inserted in either order. -/
theorem witness_ExtractMinTakesTheLeastKey :
    ([⟨3, 3⟩, ⟨3, 0⟩] : List Key).Nodup ∧
      pqExtractMin (([⟨3, 3⟩, ⟨3, 0⟩] : List Key).foldl (fun acc k => pqInsert k acc) pqClear) =
        some (⟨3, 0⟩, [⟨3, 3⟩]) ∧
      pqExtractMin (([⟨3, 0⟩, ⟨3, 3⟩] : List Key).foldl (fun acc k => pqInsert k acc) pqClear) =
        some (⟨3, 0⟩, [⟨3, 3⟩]) := by decide

theorem witness_BldWritesTheTree :
    (haltedBy .io counted).err ≠ none ∧ treed.err = none ∧ treed.phase ≠ .count ∧ counted.err = none ∧
      counted.phase = .count := by decide

/-- The last leaf and the first internal node. -/
theorem witness_LeavesAreTheKeysInOrder :
    (buildTree [3, 2, 1, 0]).nleaf = 3 ∧ (buildTree [3, 2, 1, 0]).node[2]? = some ⟨.leaf, 1, 2, 0, 0⟩ ∧
      (buildTree [3, 2, 1, 0]).node[3]? = some ⟨.internal, 3, 0, 2, 1⟩ := by decide

theorem witness_MergeTakesTheTwoLeast :
    (buildTree [3, 2, 1, 0]).node[4]? = some ⟨.internal, 6, 0, 0, 3⟩ ∧
      (⟨.internal, 6, 0, 0, 3⟩ : Node).kind = .internal := by decide

/-- The fewest and the most leaves of the instance. -/
theorem witness_BuiltTreeHasTheShape :
    ([0, 0, 7, 0] : List Nat).length = small.nsym ∧ 1 = (buildTree [0, 0, 7, 0]).nleaf ∧
      ([1, 1, 1, 4] : List Nat).length = small.nsym ∧ 4 = (buildTree [1, 1, 1, 4]).nleaf ∧
      walkPath (buildTree [1, 1, 1, 4]).node 6 [false, false] = some 2 ∧
      (buildTree [1, 1, 1, 4]).root = 6 ∧ (buildTree [1, 1, 1, 4]).node[4]? = some ⟨.internal, 2, 0, 0, 1⟩ := by decide

theorem witness_FrequenciesAreConserved :
    Inv treed ∧ treed.treev = true ∧ Inv single ∧ single.treev = true := ⟨treed_inv, rfl, single_inv, rfl⟩

/-- The empty map; the one key in the first place and in the last. -/
theorem witness_SmallMapsBuild :
    fresh.err = none ∧ fresh.phase = .count ∧ (∀ c ∈ fresh.freq, c = 0) ∧ (5 : Nat) ≠ 0 ∧
      ({ fresh with freq := [5, 0, 0, 0] } : State).freq = List.replicate 0 0 ++ 5 :: List.replicate 3 0 ∧
      ({ fresh with freq := [0, 0, 0, 5] } : State).freq = List.replicate 3 0 ++ 5 :: List.replicate 0 0 := by decide

theorem witness_TreeDependsOnlyOnTheCounts :
    counted.err = none ∧ (haltedBy .io counted).param = counted.param ∧ counted.phase = .count ∧
      (after (exec .bld counted)).isSome = true ∧ counted.param.legal = true ∧ counted.out = [] ∧
      (∀ x ∈ [0, 0, 0, 1, 1, 2], x < counted.param.nsym) ∧ [0, 0, 0, 1, 1, 2].length ≤ counted.param.cntMax ∧
      [0, 0, 0, 1, 1, 2].Perm [2, 1, 0, 1, 0, 0] := by decide

/-- The last node and the first index that is none. -/
theorem witness_NodeReadsAnswerTheField :
    treed.nnode ≤ 5 ∧ 4 < treed.nnode ∧ treed.node[4]? = some ⟨.internal, 6, 0, 0, 3⟩ ∧
      fresh.nnode ≤ 0 := by decide

theorem witness_DrvWritesEveryPath :
    (Inv treed ∧ treed.err = none ∧ treed.phase = .tree ∧ 2 ≤ treed.nleaf) ∧
      (Inv single ∧ single.err = none ∧ single.phase = .tree ∧ single.nleaf = 1) ∧
      (Inv noTree ∧ noTree.err = none ∧ noTree.phase = .tree ∧ noTree.nleaf = 0) :=
  ⟨⟨treed_inv, by decide⟩, ⟨single_inv, by decide⟩, ⟨noTree_inv, by decide⟩⟩

theorem witness_DrvOnSmallTrees :
    (noTree.err = none ∧ noTree.phase = .tree ∧ noTree.treev = false ∧ noTree.nleaf = 0) ∧
      (single.err = none ∧ single.phase = .tree ∧ single.treev = true ∧
        single.node[single.root]? = some ⟨.leaf, 5, 0, 0, 0⟩ ∧ 0 < single.code.length) := by decide

theorem witness_DrvIsRefusedOutsideItsPhase :
    (haltedBy .io treed).err ≠ none ∧ fresh.err = none ∧ fresh.phase ≠ .tree ∧ coded.err = none ∧
      coded.phase ≠ .tree := by decide

theorem witness_CodeTableIsPrefixFree :
    Inv coded ∧ coded.phase = .code ∧ (1 : Nat) ≠ 2 ∧ coded.codeAt 1 = some ⟨2, [true, true]⟩ ∧
      coded.codeAt 2 = some ⟨2, [true, false]⟩ := ⟨coded_inv, by decide⟩

/-- The single-leaf tree, where the bound is 1, and the tree of three leaves, where it is 2. -/
theorem witness_CodeLengthsAreBounded :
    Inv { single with code := [some ⟨1, [true]⟩, none, none, none], phase := .code } ∧
      Inv coded ∧ coded.phase = .code ∧ coded.codeAt 2 = some ⟨2, [true, false]⟩ ∧ coded.nleaf = 3 :=
  ⟨single_coded_inv, coded_inv, by decide⟩

theorem witness_RdlReadsTheLength :
    ¬ 4 < coded.param.nsym ∧ 3 < coded.param.nsym ∧ coded.codeAt 3 = none ∧
      coded.codeAt 2 = some ⟨2, [true, false]⟩ := by decide

theorem witness_EncEmitsTheCode :
    ¬ 4 < coded.param.nsym ∧ 3 < coded.param.nsym ∧ (haltedBy .io coded).err ≠ none ∧ coded.err = none ∧
      treed.phase ≠ .code ∧ coded.phase = .code ∧ coded.codeAt 3 = none ∧
      coded.codeAt 2 = some ⟨2, [true, false]⟩ := by decide

theorem witness_EncodePassConcatenatesTheCodes :
    coded.param.legal = true ∧ coded.out = [] ∧ coded.err = none ∧ coded.phase = .code ∧
      ∀ x ∈ [0, 1, 2, 0], x < coded.param.nsym ∧ coded.codeAt x ≠ none := by decide

theorem witness_DecIsRefusedOutsideItsPhases :
    (haltedBy .io treed).err ≠ none ∧ fresh.err = none ∧ fresh.phase = .count := by decide

theorem witness_DecOnSmallTrees :
    (noTree.err = none ∧ noTree.phase ≠ .count ∧ noTree.treev = false) ∧
      (single.err = none ∧ single.phase ≠ .count ∧ single.treev = true ∧
        single.node[single.root]? = some ⟨.leaf, 5, 0, 0, 0⟩) := by decide

/-- An edge to a leaf and an edge to an internal node. -/
theorem witness_DecDescendsOneEdge :
    treed.err = none ∧ treed.phase ≠ .count ∧ treed.treev = true ∧
      treed.node[treed.root]? = some ⟨.internal, 6, 0, 0, 3⟩ ∧
      treed.node[treed.cur]? = some ⟨.internal, 6, 0, 0, 3⟩ ∧ treed.node[0]? = some ⟨.leaf, 3, 0, 0, 0⟩ ∧
      treed.node[3]? = some ⟨.internal, 3, 0, 2, 1⟩ := by decide

theorem witness_FinDetectsTruncation :
    (haltedBy .io midCode).err ≠ none ∧ fresh.err = none ∧ fresh.phase = .count ∧ midCode.err = none ∧
      midCode.phase ≠ .count ∧ (midCode.treev = true ∧ midCode.cur ≠ midCode.root) ∧ treed.phase ≠ .count ∧
      ¬ (treed.treev = true ∧ treed.cur ≠ treed.root) ∧ noTree.phase ≠ .count ∧
      ¬ (noTree.treev = true ∧ noTree.cur ≠ noTree.root) := by decide

theorem witness_EveryBitStringDecodes :
    Inv midCode ∧ midCode.out = [] ∧ midCode.err = none ∧ midCode.treev = true ∧
      midCode.node[midCode.root]? = some ⟨.internal, 6, 0, 0, 3⟩ := ⟨midCode_inv, by decide⟩

/-- A stream of `CNTMAX` symbols, the same counted in another order, and the empty stream. -/
theorem witness_DecodeOfEncodeIsTheStream :
    fresh.param.legal = true ∧ coded.param = fresh.param ∧ fresh.out = [] ∧ coded.out = [] ∧
      (∀ x ∈ [0, 0, 0, 1, 1, 2, 3], x < fresh.param.nsym) ∧ [0, 0, 0, 1, 1, 2, 3].length = fresh.param.cntMax ∧
      [0, 0, 0, 1, 1, 2, 3].Perm [3, 2, 1, 0, 1, 0, 0] ∧ ([] : List Nat).length ≤ fresh.param.cntMax ∧
      ([] : List Nat).Perm [] := by decide

theorem witness_AbtRaisesIo : coded.err = none ∧ (haltedBy .cap coded).err ≠ none := by decide

theorem witness_RdsReadsTheStatusRegisters : coded.param.legal = true ∧ (6 : Nat) < 7 := by decide

/-- The smallest and the largest instance. -/
theorem witness_ResetMeetsTheInvariant : (⟨1, 1⟩ : Param).legal = true ∧ (⟨16, 32⟩ : Param).legal = true := by decide

theorem witness_StepKeepsTheInvariant :
    Inv (edge (HostPins.command 0x06000001) treed) ∧
      after (step (edge (HostPins.command 0x06000001) treed)) = some { midCode with out := [.rsp ⟨.ok, 0⟩] } :=
  ⟨⟨treed_inv.legal, treed_inv.freqLength, treed_inv.totalSum, treed_inv.totalBound, treed_inv.beforeBuild,
    treed_inv.afterBuild, treed_inv.beforeDerive, treed_inv.afterDerive, treed_inv.cursor, treed_inv.output⟩,
    by decide⟩

theorem witness_EveryStepAnswers : Inv fresh ∧ Inv midCode := ⟨fresh_inv, midCode_inv⟩

end Sys2Proof.Tests
end

/-! Which parameters are an instance, and the step outside of them (00_scope.md R4, R5). -/

namespace Sys2Proof.Machine

/-- The check of the parameters is the two ranges of R4 and R5. -/
theorem Param.legal_iff {p : Param} :
    p.legal = true ↔ 1 ≤ p.symw ∧ p.symw ≤ 16 ∧ 1 ≤ p.cntw ∧ p.cntw ≤ 32 := by
  simp [Param.legal, and_assoc]

/-- Without an instance no pin is looked at: `step` stops by name (log entry 2). -/
theorem step_of_not_legal {s : State} (h : ¬ s.param.legal = true) : step s = .fault .notAnInstance :=
  if_neg h

/-- Settles O16: parameters outside the ranges of R4 and R5 fail the check that guards every step. -/
theorem parametersOfNoInstanceStop : Obligations.ParametersOfNoInstanceStop :=
  fun _ h => step_of_not_legal (mt Param.legal_iff.mp h)

end Sys2Proof.Machine

/-! The reset state, and the two ways into it: a reset and `CLR` (10_state.md R36, 70_reset_and_hazards.md R190,
R191). -/

namespace Sys2Proof.Machine

/-- A reset gives the reset state of the same instance, with the histories and the host's pins kept (R36, R190). -/
theorem State.resetBlock_eq_resetOf (s : State) :
    s.resetBlock = { State.resetOf s.param with
      bitout := s.bitout, symout := s.symout, rspout := s.rspout, input := s.input } := rfl

/-- `CLR` gives the same state, and its channels are not touched either (R152, R191). -/
theorem State.clear_eq_resetOf (s : State) :
    s.clear = { State.resetOf s.param with
      out := s.out, bitout := s.bitout, symout := s.symout, rspout := s.rspout, input := s.input } := rfl

/-- No symbol has been counted at reset (R36). -/
@[simp] theorem State.resetOf_freqAt (p : Param) (x : Nat) : (State.resetOf p).freqAt x = 0 := by
  simp only [State.freqAt, State.resetOf, List.getD_eq_getElem?_getD, List.getElem?_replicate]
  split <;> rfl

/-- No symbol has a code at reset (R36). -/
@[simp] theorem State.resetOf_codeAt (p : Param) (x : Nat) : (State.resetOf p).codeAt x = none := by
  simp only [State.codeAt, State.resetOf, List.getD_eq_getElem?_getD, List.getElem?_replicate]
  split <;> rfl

/-- A rising edge with `rst = 1` looks at nothing else (R190). -/
theorem step_of_rst {s : State} {e : HostPins} {es : List HostPins} (hl : s.param.legal = true)
    (hi : s.input = e :: es) (hr : e.rst = true) : step s = .next { s with input := es }.resetBlock := by
  simp [step, stepEdge, clockEdge, hl, hi, hr]

/-- Settles O8: a reset and a `CLR` both lead to `State.resetOf`, whose elements are those of R36. -/
theorem resetAndClrGiveTheResetState : Obligations.ResetAndClrGiveTheResetState := by
  refine ⟨fun s e es hl hi hr => ?_, fun s => ?_, ?_⟩
  · rw [step_of_rst hl hi hr, State.resetBlock_eq_resetOf]
  · rw [exec, execClr, respond_eq, State.clear_eq_resetOf, State.send]
  · rintro p _ rfl
    exact ⟨State.resetOf_freqAt p, rfl, rfl, rfl, rfl, rfl, rfl, State.resetOf_codeAt p, rfl, rfl, rfl, rfl, rfl,
      fun _ => rfl, rfl⟩

/-- The reset state of an instance is one of the block's states (R36). -/
theorem Inv.resetOf {p : Param} (h : p.legal = true) : Inv (State.resetOf p) where
  legal := h
  freqLength := List.length_replicate
  totalSum := by simp [State.resetOf]
  totalBound := Nat.zero_le _
  beforeBuild := fun _ => rfl
  afterBuild := fun hp => absurd rfl hp
  beforeDerive := fun _ => rfl
  afterDerive := nofun
  cursor := ⟨fun _ => rfl, nofun⟩
  output := .inl rfl

/-- Settles O56: at reset every element is at the value the invariant asks for in `PH_COUNT`. -/
theorem resetMeetsTheInvariant : Obligations.ResetMeetsTheInvariant := fun _ => Inv.resetOf

end Sys2Proof.Machine

/-! The frequencies in the tree (10_state.md R33, 43_tree_builder.md R105): positive, the root's the sum of the counts,
and none above the root's. -/

namespace Sys2Proof.Machine

/-- No node has the frequency 0: a leaf's is a count that is not 0, an internal node's the sum of two below it. -/
theorem TreeOf.freq_pos {freq : List Nat} {t : Built} (h : TreeOf freq t) {i : Nat} {nd : Node}
    (hn : t.node[i]? = some nd) : 1 ≤ nd.freq := by
  induction i using Nat.strong_induction_on generalizing nd with
  | _ i ih =>
    cases hk : nd.kind with
    | leaf => exact Nat.one_le_iff_ne_zero.2 (h.leaf_facts hn hk).2.1
    | internal =>
      have hm := h.forest.merged i nd hn hk
      obtain ⟨a, b, ha, -, hs⟩ := hm.sum
      have := ih nd.left hm.leftLt ha
      omega

/-- The root is the last member of the queue, and the queue holds the sum of the counts (R105). -/
theorem TreeOf.root_freq {freq : List Nat} {t : Built} (h : TreeOf freq t) :
    ∃ rt, t.node[t.root]? = some rt ∧ rt.freq = freq.sum := by
  obtain ⟨k, hk, hr⟩ := h.single
  obtain ⟨⟨rt, hrt, hf⟩, -⟩ := (h.forest.members k).1 (by simp [hk])
  have hsum : k.freq = freq.sum := by simpa [hk, leafList_sum] using h.forest.total
  exact ⟨rt, hr ▸ hrt, hf.trans hsum⟩

/-- A child's frequency is at most its parent's (R33). -/
theorem TreeOf.child_freq_le {freq : List Nat} {t : Built} (h : TreeOf freq t) {i : Nat} {nd c : Node} {b : Bool}
    (hn : t.node[i]? = some nd) (hk : nd.kind = .internal) (hc : t.node[nd.child b]? = some c) :
    c.freq ≤ nd.freq := by
  obtain ⟨l, r, hl, hr, hs⟩ := (h.forest.merged i nd hn hk).sum
  cases b with
  | false =>
    cases hc.symm.trans hl
    omega
  | true =>
    cases hc.symm.trans hr
    omega

/-- No frequency is above the sum of the counts: up the parents it only grows, and the root's is that sum (R105). -/
theorem TreeOf.freq_le_sum {freq : List Nat} {t : Built} (h : TreeOf freq t) {i : Nat} {nd : Node}
    (hn : t.node[i]? = some nd) : nd.freq ≤ freq.sum := by
  induction hd : t.node.length - i using Nat.strong_induction_on generalizing i nd with
  | _ d ih =>
    have hi := (List.getElem?_eq_some_iff.1 hn).1
    by_cases hr : i = t.root
    · obtain ⟨rt, hrt, hs⟩ := h.root_freq
      cases hn.symm.trans (hr ▸ hrt)
      exact hs.le
    · obtain ⟨m, hm, hlt⟩ := h.parent hi hr
      obtain ⟨p, b, hp, hk, hc⟩ := isChild_child hm
      calc nd.freq ≤ p.freq := h.child_freq_le hp hk (hc ▸ hn)
        _ ≤ freq.sum := ih (t.node.length - m) (by omega) hp rfl

/-- Settles O36: while `TREEV = 1` the arena is the tree `BLD` built from the counts, whose sum is `TOTAL`. -/
theorem frequenciesAreConserved : Obligations.FrequenciesAreConserved := by
  intro s h ht
  have t := h.tree ht
  refine ⟨fun i nd hn => ⟨t.freq_pos hn, ?_, fun hk => ?_, fun hk => (t.forest.merged i nd hn hk).sum⟩, ?_⟩
  · calc nd.freq ≤ s.freq.sum := t.freq_le_sum hn
      _ = s.total := h.totalSum.symm
      _ ≤ s.param.cntMax := h.totalBound
  · obtain ⟨hf, -, hlt⟩ := t.leaf_facts hn hk
    exact ⟨hf, h.freqLength ▸ hlt⟩
  · obtain ⟨rt, hrt, hs⟩ := t.root_freq
    exact ⟨rt, hrt, hs.trans h.totalSum.symm⟩

end Sys2Proof.Machine

/-! What a command does to the block's elements, apart from the transfers it queues, and what it leaves unchanged
(10_state.md R31, R35). -/

namespace Sys2Proof.Machine

/-- The state `u` a command leaves before its transfers are queued, with the conditions under which it gets there. -/
inductive BlockUpdate (s : State) : Instr → State → Prop where
  /-- Refusals, reads, `ENC`, `FIN`, and `DEC` where the tree has no edge to descend (R117, R139, R140, R176). -/
  | keep (i : Instr) : BlockUpdate s i s
  /-- A fatal error (R175). -/
  | error (i : Instr) (e : Fatal) : BlockUpdate s i (s.setErr e)
  | clear : BlockUpdate s .clr s.clear
  | count {x : Nat} (hx : x < s.param.nsym) (hp : s.phase = .count) (ht : s.total ≠ s.param.cntMax) :
      BlockUpdate s (.cnt x) (s.countSymbol x)
  | build (hp : s.phase = .count) : BlockUpdate s .bld ((s.installTree (buildTree s.freq)).setPhase .tree)
  | derive {tbl : List (Option Code)} (hp : s.phase = .tree)
      (hd : deriveTable s.node s.root s.treev s.code = .ok tbl) :
      BlockUpdate s .drv ((s.installCode tbl).setPhase .code)
  /-- The decoder goes to an internal node: a child, or the root after a leaf (R137, R138). -/
  | walk {b : Bool} {j : Nat} {nd : Node} (ht : s.treev = true) (hn : s.node[j]? = some nd)
      (hk : nd.kind = .internal) : BlockUpdate s (.dec b) (s.setCur j)

/-- Emissions, then the one response: the output of one command (R56). -/
theorem outOk_append_rsp {ems : List Transfer} (h : ∀ x ∈ ems, x.isRsp = false) (r : Response) :
    OutOk (ems ++ [.rsp r]) := .inr ⟨ems, r, rfl, h⟩

/-- One symbol, then the response. -/
theorem outOk_sym_rsp (x : Nat) (r : Response) : OutOk [.sym x, .rsp r] :=
  outOk_append_rsp (ems := [.sym x]) (by simp [Transfer.isRsp]) r

/-- The bits of a code, then the response. -/
theorem outOk_bits_rsp (bs : List Bool) (r : Response) : OutOk (bs.map Transfer.bit ++ [.rsp r]) := by
  refine outOk_append_rsp (fun x hx => ?_) r
  obtain ⟨b, -, rfl⟩ := List.mem_map.1 hx
  rfl

/-- A command's own effect is an update of the block's elements and the output of one command. -/
theorem OkEffect.update {i : Instr} {s t : State} (h : OkEffect s t i) :
    ∃ u ts, BlockUpdate s i u ∧ OutOk ts ∧ t = u.send ts := by
  cases i with
  | clr => exact ⟨_, _, .clear, outOk_rsp _, h⟩
  | cnt x =>
    obtain ⟨hx, -, hp, ht, h⟩ := h
    exact ⟨_, _, .count hx hp ht, outOk_rsp _, h⟩
  | bld =>
    obtain ⟨-, hp, h⟩ := h
    exact ⟨_, _, .build hp, outOk_rsp _, h⟩
  | drv =>
    obtain ⟨-, hp, tbl, hd, h⟩ := h
    exact ⟨_, _, .derive hp hd, outOk_rsp _, h⟩
  | enc x =>
    obtain ⟨-, -, -, c, -, h⟩ := h
    exact ⟨_, _, .keep _, outOk_bits_rsp _ _, h⟩
  | dec b =>
    obtain ⟨-, -, ⟨-, h⟩ | ⟨ht, rt, hrt, ⟨-, h⟩ | ⟨hrk, nd, c, -, hc, h⟩⟩⟩ := h
    · exact ⟨_, _, .keep _, outOk_rsp _, h⟩
    · exact ⟨_, _, .keep _, outOk_sym_rsp _ _, h⟩
    · rcases h with ⟨-, h⟩ | ⟨hck, h⟩
      · exact ⟨_, _, .walk ht hrt hrk, outOk_sym_rsp _ _, h⟩
      · exact ⟨_, _, .walk ht hc hck, outOk_rsp _, h⟩
  | fin =>
    obtain ⟨-, -, -, h⟩ := h
    exact ⟨_, _, .keep _, outOk_rsp _, h⟩
  | abt => exact h.elim
  | rds x =>
    obtain ⟨v, -, h⟩ := h
    exact ⟨_, _, .keep _, outOk_rsp _, h⟩
  | rdf x => exact ⟨_, _, .keep _, outOk_rsp _, h.2⟩
  | rdl x => exact ⟨_, _, .keep _, outOk_rsp _, h.2⟩
  | rdnk x | rdnf x | rdnl x | rdnr x =>
    obtain ⟨-, nd, -, h⟩ := h
    exact ⟨_, _, .keep _, outOk_rsp _, h⟩

/-- What a command does, in two parts: an update of the block's elements, then its transfers. -/
theorem exec_update {i : Instr} {s t : State} (h : exec i s = .next t) :
    ∃ u ts, BlockUpdate s i u ∧ OutOk ts ∧ t = u.send ts := by
  rcases exec_cases h with ⟨r, -, h⟩ | ⟨e, -, h⟩ | h
  · exact ⟨_, _, .keep i, outOk_rsp _, h⟩
  · exact ⟨_, _, .error i e, outOk_rsp _, h⟩
  · exact h.update

/-- No command writes `PARAM` (R31). -/
theorem BlockUpdate.param {i : Instr} {s u : State} (h : BlockUpdate s i u) : u.param = s.param := by
  cases h <;> rfl

theorem exec_param {i : Instr} {s t : State} (h : exec i s = .next t) : t.param = s.param := by
  obtain ⟨u, ts, hu, -, rfl⟩ := exec_update h
  exact hu.param

theorem runWord_param {w : Word} {s t : State} (h : runWord w s = .next t) : t.param = s.param := by
  rcases runWord_next h with ⟨e, -, rfl⟩ | ⟨i, -, h⟩
  · rfl
  · exact exec_param h

theorem clockEdge_param {e : HostPins} {s t : State} (h : clockEdge e s = .next t) : t.param = s.param := by
  rcases clockEdge_next h with ⟨-, rfl⟩ | ⟨-, -, -, h⟩ | ⟨-, x, xs, -, -, rfl⟩ | ⟨-, rfl⟩
  · rfl
  · exact runWord_param h
  · exact State.record_param _ x
  · rfl

/-- Settles O15: every edge keeps `PARAM`, be it a reset, a command transfer, an output transfer or none of them. -/
theorem instanceNeverChanges : Obligations.InstanceNeverChanges := by
  intro s t h
  obtain ⟨-, ⟨-, rfl⟩ | ⟨e, es, -, h⟩⟩ := step_next h
  · rfl
  · exact (clockEdge_param h :)

/-- Only `CLR`, and `CNT` and `BLD` in `PH_COUNT`, write the counts or the tree (R35, R151). -/
theorem BlockUpdate.counts_and_tree {i : Instr} {s u : State} (h : BlockUpdate s i u) (hi : i ≠ .clr)
    (hp : s.phase ≠ .count) : u.freq = s.freq ∧ u.total = s.total ∧ u.built = s.built := by
  cases h with
  | keep | error | derive | walk => exact ⟨rfl, rfl, rfl⟩
  | clear => exact absurd rfl hi
  | count _ hc | build hc => exact absurd hc hp

/-- Only `CLR`, and `DRV` in `PH_TREE`, write the code table (R35, R151). -/
theorem BlockUpdate.code_eq {i : Instr} {s u : State} (h : BlockUpdate s i u) (hi : i ≠ .clr)
    (hd : s.phase = .code ∨ i ≠ .drv) : u.code = s.code := by
  cases h with
  | keep | error | count | build | walk => rfl
  | clear => exact absurd rfl hi
  | derive hp => simp [hp] at hd

/-- Settles O23: the commands that write the counts, the tree or the table are admitted in one phase each. -/
theorem builtStructuresAreFrozen : Obligations.BuiltStructuresAreFrozen := by
  intro i s t h hi
  obtain ⟨u, ts, hu, -, rfl⟩ := exec_update h
  exact ⟨hu.counts_and_tree hi, hu.code_eq hi⟩

end Sys2Proof.Machine

/-! The invariant is kept: by each update of the block's elements, by the transfers, and so by every step (10_state.md
R32 to R36, 46_decoder.md R144). -/

namespace Sys2Proof.Machine

/-- With no transfer pending a command's output can be queued. -/
theorem Inv.send {s : State} (h : Inv s) (ho : s.out = []) {ts : List Transfer} (hts : OutOk ts) : Inv (s.send ts) :=
  { h with output := by simpa [ho] using hts }

/-- `ERR` plays no part in the invariant. -/
theorem Inv.setErr {s : State} (h : Inv s) (e : Fatal) : Inv (s.setErr e) := { h with }

/-- `CLR` gives the reset state with the channels kept. -/
theorem Inv.clear {s : State} (h : Inv s) : Inv s.clear := { Inv.resetOf h.legal with output := h.output }

/-- A reset gives the reset state with the histories kept. -/
theorem Inv.resetBlock {s : State} (h : Inv s) : Inv s.resetBlock := { Inv.resetOf h.legal with }

/-- Counting below `CNTMAX` in `PH_COUNT`: there is no tree to fall out of step with the counts. -/
theorem Inv.countSymbol {s : State} (h : Inv s) {x : Nat} (hx : x < s.param.nsym) (hp : s.phase = .count)
    (ht : s.total ≠ s.param.cntMax) : Inv (s.countSymbol x) :=
  { h with
    freqLength := by simp [h.freqLength]
    totalSum := by
      have := sum_set_succ s.freq x (h.freqLength ▸ hx)
      simp only [State.countSymbol_total, State.countSymbol_freq, h.totalSum, State.freqAt, this]
    totalBound := by
      have := h.totalBound
      simp only [State.countSymbol_total, State.countSymbol_param]
      omega
    afterBuild := fun hc => absurd hp hc }

/-- Where `BLD` puts `CUR`: at index 0 without a tree, else at a node that is there (R107, R108). -/
theorem buildTree_root (freq : List Nat) :
    ((buildTree freq).treev = false → (buildTree freq).root = 0) ∧
    ((buildTree freq).treev = true → ∃ rt, (buildTree freq).node[(buildTree freq).root]? = some rt) := by
  by_cases hl : leafList freq 0 = []
  · rw [buildTree_of_no_key hl]
    exact ⟨fun _ => rfl, nofun⟩
  · have t := buildTree_spec hl
    obtain ⟨rt, hrt, -⟩ := t.root_freq
    exact ⟨by simp [t.treev], fun _ => ⟨rt, hrt⟩⟩

/-- `BLD` leaves the tree of the counts and the decoder at its root, be it a leaf or an internal node (R101, R107). -/
theorem Inv.build {s : State} (h : Inv s) (hp : s.phase = .count) :
    Inv ((s.installTree (buildTree s.freq)).setPhase .tree) :=
  { h with
    beforeBuild := nofun
    afterBuild := fun _ => rfl
    beforeDerive := fun _ => h.beforeDerive (by simp [hp])
    afterDerive := nofun
    cursor := by
      refine ⟨(buildTree_root s.freq).1, fun ht => ?_⟩
      obtain ⟨rt, hrt⟩ := (buildTree_root s.freq).2 ht
      cases hk : rt.kind with
      | leaf => exact .inl ⟨rfl, rt, hrt, hk⟩
      | internal => exact .inr ⟨rt, hrt, hk⟩ }

/-- `DRV` finds the empty table, so what it leaves is the table of the tree (R34, R116). -/
theorem Inv.installCode {s : State} (h : Inv s) (hp : s.phase = .tree) {tbl : List (Option Code)}
    (hd : deriveTable s.node s.root s.treev s.code = .ok tbl) : Inv ((s.installCode tbl).setPhase .code) :=
  { h with
    beforeBuild := nofun
    afterBuild := fun _ => h.afterBuild (by simp [hp])
    beforeDerive := fun hc => absurd rfl hc
    afterDerive := fun _ => h.beforeDerive (by simp [hp]) ▸ hd }

/-- The decoder may stand at any internal node (R144). -/
theorem Inv.setCur {s : State} (h : Inv s) (ht : s.treev = true) {j : Nat} {nd : Node} (hn : s.node[j]? = some nd)
    (hk : nd.kind = .internal) : Inv (s.setCur j) :=
  { h with cursor := ⟨fun hf => (Bool.false_ne_true (hf.symm.trans ht)).elim, fun _ => .inr ⟨nd, hn, hk⟩⟩ }

/-- A transfer made leaves the rest of its command's transfers, and only its history changes (R44, R56). -/
theorem Inv.record {s : State} (h : Inv s) {x : Transfer} {xs : List Transfer} (ho : s.out = x :: xs) :
    Inv (State.record { s with out := xs } x) := by
  have hxs : OutOk xs := OutOk.tail (ho ▸ h.output)
  cases x with
  | bit | sym | rsp => exact { h with output := hxs }

/-- Every update of the block's elements keeps the invariant. -/
theorem BlockUpdate.inv {i : Instr} {s u : State} (hu : BlockUpdate s i u) (h : Inv s) : Inv u := by
  cases hu with
  | keep => exact h
  | error _ e => exact h.setErr e
  | clear => exact h.clear
  | count hx hp ht => exact h.countSymbol hx hp ht
  | build hp => exact h.build hp
  | derive hp hd => exact h.installCode hp hd
  | walk ht hn hk => exact h.setCur ht hn hk

/-- No update queues a transfer. -/
theorem BlockUpdate.out_eq {i : Instr} {s u : State} (hu : BlockUpdate s i u) : u.out = s.out := by
  cases hu <;> rfl

/-- A command keeps the invariant when the transfers of the one before have all been made. -/
theorem exec_keeps_inv {i : Instr} {s t : State} (hs : Inv s) (ho : s.out = []) (h : exec i s = .next t) :
    Inv t := by
  obtain ⟨u, ts, hu, hts, rfl⟩ := exec_update h
  exact (hu.inv hs).send (hu.out_eq.trans ho) hts

/-- So does a word, legal or not. -/
theorem runWord_keeps_inv {w : Word} {s t : State} (hs : Inv s) (ho : s.out = []) (h : runWord w s = .next t) :
    Inv t := by
  rcases runWord_next h with ⟨e, -, rfl⟩ | ⟨i, -, h⟩
  · exact hs.send ho (outOk_rsp _)
  · exact exec_keeps_inv hs ho h

/-- A rising edge keeps the invariant: a reset, a command transfer, an output transfer, or none. -/
theorem clockEdge_keeps_inv {e : HostPins} {s t : State} (hs : Inv s) (h : clockEdge e s = .next t) : Inv t := by
  rcases clockEdge_next h with ⟨-, rfl⟩ | ⟨-, ho, -, h⟩ | ⟨-, x, xs, ho, -, rfl⟩ | ⟨-, rfl⟩
  · exact hs.resetBlock
  · exact runWord_keeps_inv hs ho h
  · exact hs.record ho
  · exact hs

/-- Settles O57: the invariant is kept by every edge, and a step is one edge or none. -/
theorem stepKeepsTheInvariant : Obligations.StepKeepsTheInvariant := by
  intro s t hs h
  obtain ⟨-, ⟨-, rfl⟩ | ⟨e, es, -, h⟩⟩ := step_next h
  · exact hs
  · exact clockEdge_keeps_inv (hs.input es) h

end Sys2Proof.Machine

/-! One rising edge with `rst = 0`, said as an equation for each kind of edge, and the output signals (20_memory.md R44,
R51, R55, R56, 30_encoding.md R70). -/

namespace Sys2Proof.Machine

/-- A legal word runs the command it decodes to (R70). -/
theorem runWord_of_ok {w : Word} {s : State} {i : Instr} (hd : decode s.param.symw w = .ok i) :
    runWord w s = exec i s := by
  simp [runWord, hd]

/-- With no transfer pending an offered word is taken (R56). -/
theorem clockEdge_of_command {e : HostPins} {s : State} (hr : e.rst = false) (ho : s.out = [])
    (hv : e.cmdValid = true) : clockEdge e s = runWord e.cmdWord s := by
  simp [clockEdge, hr, ho, hv]

/-- A transfer the host is ready for is made; no word is looked at (R56). -/
theorem clockEdge_of_taken {e : HostPins} {s : State} {x : Transfer} {xs : List Transfer} (hr : e.rst = false)
    (ho : s.out = x :: xs) (ht : e.takes x = true) :
    clockEdge e s = .next (State.record { s with out := xs } x) := by
  simp [clockEdge, hr, ho, ht]

/-- A transfer the host is not ready for waits; no word is looked at (R56). -/
theorem clockEdge_of_held {e : HostPins} {s : State} {x : Transfer} {xs : List Transfer} (hr : e.rst = false)
    (ho : s.out = x :: xs) (ht : e.takes x = false) : clockEdge e s = .next s := by
  simp [clockEdge, hr, ho, ht]

/-- A step of an instance with an edge waiting is that edge. -/
theorem step_of_edge {s : State} {e : HostPins} {es : List HostPins} (hl : s.param.legal = true)
    (hi : s.input = e :: es) : step s = clockEdge e { s with input := es } := by
  simp [step, stepEdge, hl, hi]

/-- The step that makes the next pending transfer (R56). -/
theorem step_of_taken {s : State} {e : HostPins} {es : List HostPins} {x : Transfer} {xs : List Transfer}
    (hl : s.param.legal = true) (hi : s.input = e :: es) (hr : e.rst = false) (ho : s.out = x :: xs)
    (ht : e.takes x = true) : step s = .next (State.record { s with input := es, out := xs } x) :=
  (step_of_edge hl hi).trans (clockEdge_of_taken hr ho ht)

/-- The step at which the next pending transfer waits for the host (R56). -/
theorem step_of_held {s : State} {e : HostPins} {es : List HostPins} {x : Transfer} {xs : List Transfer}
    (hl : s.param.legal = true) (hi : s.input = e :: es) (hr : e.rst = false) (ho : s.out = x :: xs)
    (ht : e.takes x = false) : step s = .next { s with input := es } :=
  (step_of_edge hl hi).trans (clockEdge_of_held hr ho ht)

/-- Settles O6: the edge is a command transfer, and the word it takes decodes. -/
theorem stepRunsTheDecodedCommand : Obligations.StepRunsTheDecodedCommand := by
  intro s e es i hl hi hr hv ho hd
  calc step s = clockEdge e { s with input := es } := step_of_edge hl hi
    _ = runWord e.cmdWord { s with input := es } := clockEdge_of_command hr ho hv
    _ = exec i { s with input := es } := runWord_of_ok hd

theorem Transfer.asBit_eq_some {x : Transfer} {b : Bool} : x.asBit = some b ↔ x = .bit b := by
  cases x <;> simp [Transfer.asBit]

theorem Transfer.asSym_eq_some {x : Transfer} {y : Nat} : x.asSym = some y ↔ x = .sym y := by
  cases x <;> simp [Transfer.asSym]

theorem Transfer.asRsp_eq_some {x : Transfer} {r : Response} : x.asRsp = some r ↔ x = .rsp r := by
  cases x <;> simp [Transfer.asRsp]

/-- `cmd_ready`, and each channel with its datum, read off the next pending transfer (R55, log entry 9). -/
theorem State.outPins_eq (s : State) :
    s.outPins false =
      { cmdReady := s.out.isEmpty
        rsp := s.out.head?.bind Transfer.asRsp
        bit := s.out.head?.bind Transfer.asBit
        sym := s.out.head?.bind Transfer.asSym } := by
  rcases ho : s.out with _ | ⟨_ | _ | _, xs⟩ <;>
    simp [State.outPins, ho, Transfer.asBit, Transfer.asSym, Transfer.asRsp]

/-- Settles O12: each output signal is a function of the next pending transfer. -/
theorem outputPinsShowTheNextTransfer : Obligations.OutputPinsShowTheNextTransfer := by
  intro s
  refine ⟨rfl, ?_, fun r => ?_, fun b => ?_, fun y => ?_⟩ <;> rw [State.outPins_eq]
  · exact List.isEmpty_iff
  · simp [Option.bind_eq_some_iff, Transfer.asRsp_eq_some]
  · simp [Option.bind_eq_some_iff, Transfer.asBit_eq_some]
  · simp [Option.bind_eq_some_iff, Transfer.asSym_eq_some]

/-- Settles O10: the edge changes no element the output signals show, and with a transfer pending `cmd_ready` is 0. -/
theorem offeredTransferIsHeld : Obligations.OfferedTransferIsHeld := by
  intro s e es x xs hl hi hr ho ht
  exact ⟨step_of_held hl hi hr ho ht, rfl, by simp [State.outPins_eq, ho]⟩

/-- A transfer changes the histories alone (R44). -/
theorem State.record_eq (s : State) (x : Transfer) :
    s.record x =
      { s with bitout := (s.record x).bitout, symout := (s.record x).symout, rspout := (s.record x).rspout } := by
  cases x <;> rfl

/-- Settles O11: the step records the transfer, each kind in the history of its own channel. -/
theorem takenTransferJoinsItsHistory : Obligations.TakenTransferJoinsItsHistory := by
  intro s e es x xs hl hi hr ho ht
  refine ⟨_, step_of_taken hl hi hr ho ht, State.record_eq _ x, ?_, ?_, ?_⟩
  · rintro b rfl
    exact ⟨rfl, rfl, rfl⟩
  · rintro y rfl
    exact ⟨rfl, rfl, rfl⟩
  · rintro r rfl
    exact ⟨rfl, rfl, rfl⟩

end Sys2Proof.Machine

/-! Runs of output transfers, and the histories they are added to (20_memory.md R44, R52, R56). -/

namespace Sys2Proof.Machine

/-- A host ready on every channel takes any transfer (R55). -/
theorem HostPins.idle_takes (x : Transfer) : HostPins.idle.takes x = true := by
  cases x <;> rfl

/-- The next transfer, then the delivery of the rest, is the delivery of all (R56). -/
theorem State.deliver_record {s : State} {x : Transfer} {xs : List Transfer} (ho : s.out = x :: xs)
    (es : List HostPins) :
    (State.record { s with input := es, out := xs } x).deliver = { s.deliver with input := es } := by
  cases x <;> simp [State.deliver_eq, ho, State.record, List.filterMap_cons, Transfer.asBit, Transfer.asSym,
    Transfer.asRsp]

/-- At as many idle edges as transfers are pending, a run of the machine is their delivery (R52, log entry 9). -/
theorem run_idle_delivers {s : State} {es : List HostPins} (hl : s.param.legal = true)
    (hi : s.input = List.replicate s.out.length HostPins.idle ++ es) :
    Host.Core.run Sys2Proof.core s.out.length s = .next { s.deliver with input := es } := by
  induction ho : s.out generalizing s with
  | nil =>
    have hes : s.input = es := by simpa [ho] using hi
    rw [State.deliver_of_out_nil s ho, ← hes]
    rfl
  | cons x xs ih =>
    have hi' : s.input = HostPins.idle :: (List.replicate xs.length HostPins.idle ++ es) := by
      simpa [ho, List.replicate_succ] using hi
    have hstep := step_of_taken hl hi' rfl ho (HostPins.idle_takes x)
    rw [List.length_cons, run_succ hstep, ih (by simpa using hl) (by simp) (by simp), State.deliver_record ho]

/-- Settles O13: the run delivers, and delivery adds each channel's data to its history. -/
theorem readyHostDrainsAllTransfers : Obligations.ReadyHostDrainsAllTransfers := by
  intro s es hl hi
  refine ⟨run_idle_delivers hl hi, ?_⟩
  rw [State.deliver_eq]
  exact ⟨rfl, rfl, rfl⟩

/-- What was delivered before `s` is an initial part of what was delivered before `t` (R44). -/
def HistoriesExtend (s t : State) : Prop :=
  s.bitout <+: t.bitout ∧ s.symout <+: t.symout ∧ s.rspout <+: t.rspout

theorem HistoriesExtend.refl (s : State) : HistoriesExtend s s :=
  ⟨⟨[], List.append_nil _⟩, ⟨[], List.append_nil _⟩, ⟨[], List.append_nil _⟩⟩

/-- A transfer is added at the end of its history, and the other two stay. -/
theorem State.record_extends (s : State) (x : Transfer) : HistoriesExtend s (s.record x) := by
  obtain ⟨hbit, hsym, hrsp⟩ := HistoriesExtend.refl s
  cases x with
  | bit b => exact ⟨⟨[b], rfl⟩, hsym, hrsp⟩
  | sym y => exact ⟨hbit, ⟨[y], rfl⟩, hrsp⟩
  | rsp r => exact ⟨hbit, hsym, ⟨[r], rfl⟩⟩

/-- A command only queues its transfers; none is made yet (R56). -/
theorem exec_extends {i : Instr} {s t : State} (h : exec i s = .next t) : HistoriesExtend s t := by
  obtain ⟨u, ts, hu, -, rfl⟩ := exec_update h
  cases hu <;> exact HistoriesExtend.refl s

/-- No edge takes anything back: a reset keeps the histories, a word queues transfers, a transfer is added (R44). -/
theorem clockEdge_extends {e : HostPins} {s t : State} (h : clockEdge e s = .next t) : HistoriesExtend s t := by
  rcases clockEdge_next h with ⟨-, rfl⟩ | ⟨-, -, -, h⟩ | ⟨-, x, xs, -, -, rfl⟩ | ⟨-, rfl⟩
  · exact HistoriesExtend.refl s
  · rcases runWord_next h with ⟨_, -, rfl⟩ | ⟨i, -, h⟩
    · exact HistoriesExtend.refl s
    · exact exec_extends h
  · exact State.record_extends { s with out := xs } x
  · exact HistoriesExtend.refl t

/-- Settles O14: a step is one edge or none, and no edge takes anything back. -/
theorem historiesOnlyGrow : Obligations.HistoriesOnlyGrow := by
  intro s t h
  obtain ⟨-, ⟨-, rfl⟩ | ⟨e, es, -, h⟩⟩ := step_next h
  · exact HistoriesExtend.refl t
  · exact (clockEdge_extends h :)

end Sys2Proof.Machine

/-! The read-back commands: their answer does not depend on what is pending, so a second read answers the same
(20_memory.md R49, 60_exceptions.md R181). -/

namespace Sys2Proof.Machine

/-- Whatever is pending besides, `run` queues the response `r` on the elements of `s` and does nothing else. -/
def AnswersOnly (run : State → Outcome) (s : State) (r : Response) : Prop :=
  ∀ ts, run (s.send ts) = .next ((s.send ts).send [.rsp r])

@[simp] theorem State.send_nil (s : State) : s.send [] = s := by simp [State.send]

/-- Such a command leaves a state in which it answers the same again. -/
theorem AnswersOnly.repeatable {run : State → Outcome} {s t : State} {r : Response} (hr : AnswersOnly run s r)
    (h : run s = .next t) : t = s.send [.rsp r] ∧ run t = .next (t.send [.rsp r]) := by
  have h0 : run s = .next (s.send [.rsp r]) := by simpa using hr []
  cases h.symm.trans h0
  exact ⟨rfl, hr [.rsp r]⟩

@[simp] theorem State.send_statusReg (s : State) (ts : List Transfer) (x : Nat) :
    (s.send ts).statusReg x = s.statusReg x := rfl

/-- `RDS`: a status register shows elements of the block, and `out` is none of them (R30). -/
theorem execRds_answersOnly (x : Nat) (s : State) : ∃ r, AnswersOnly (execRds x) s r := by
  cases hv : s.statusReg x with
  | some v => exact ⟨⟨.ok, v⟩, fun ts => by simp [execRds, hv]⟩
  | none => exact ⟨⟨.refusal .range, 0⟩, fun ts => by simp [execRds, hv]⟩

@[simp] theorem State.send_codeAt (s : State) (ts : List Transfer) (x : Nat) :
    (s.send ts).codeAt x = s.codeAt x := rfl

/-- A read by symbol, of a datum that no transfer changes. -/
theorem withSymbol_answersOnly (x : Nat) (s : State) (d : Word) :
    ∃ r, AnswersOnly (fun u => withSymbol x u (respond .ok d u)) s r := by
  by_cases hx : x < s.param.nsym
  · exact ⟨_, fun _ => withSymbol_of_lt hx⟩
  · exact ⟨_, fun _ => withSymbol_of_not_lt hx⟩

/-- `RDL`: the datum is the code's length, or 0 without a code (R120). -/
theorem execRdl_answersOnly (x : Nat) (s : State) : ∃ r, AnswersOnly (execRdl x) s r := by
  cases hc : s.codeAt x with
  | some c =>
    obtain ⟨r, hr⟩ := withSymbol_answersOnly x s (zext32 c.clen)
    exact ⟨r, fun ts => by simpa [execRdl, hc] using hr ts⟩
  | none =>
    obtain ⟨r, hr⟩ := withSymbol_answersOnly x s 0
    exact ⟨r, fun ts => by simpa [execRdl, hc] using hr ts⟩

/-- A read of a node, where it answers: an entry that is there, or an index at or above `NNODE`. -/
theorem withNode_answersOnly {x : Nat} {s t : State} {d : Node → Word}
    (h : withNode x s (fun nd => respond .ok (d nd) s) = .next t) :
    ∃ r, AnswersOnly (fun u => withNode x u fun nd => respond .ok (d nd) u) s r := by
  rcases withNode_next h with ⟨hx, -⟩ | ⟨hx, nd, hn, -⟩
  · exact ⟨_, fun _ => if_neg (Nat.not_lt.2 hx)⟩
  · exact ⟨_, fun _ => (if_pos hx).trans (readNode_of_some hn)⟩

/-- Every read-back command that answers does nothing but answer (R49). -/
theorem exec_read_answersOnly {i : Instr} {s t : State} (hi : isRead i = true) (h : exec i s = .next t) :
    ∃ r, AnswersOnly (exec i) s r := by
  cases i with
  | clr | cnt | bld | drv | enc | dec | fin | abt => cases hi
  | rds x => exact execRds_answersOnly x s
  | rdf x => exact withSymbol_answersOnly x s (zext32 (s.freqAt x))
  | rdl x => exact execRdl_answersOnly x s
  | rdnk x | rdnf x | rdnl x | rdnr x => exact withNode_answersOnly h

/-- Settles O27: a read answers from elements that its own response leaves as they are. -/
theorem readsChangeNothing : Obligations.ReadsChangeNothing := by
  intro i s t hi h
  obtain ⟨r, hr⟩ := exec_read_answersOnly hi h
  exact ⟨r, hr.repeatable h⟩

end Sys2Proof.Machine

/-! Decoding as an equivalence: a word decodes to a command exactly when its fields are the command's and the operand
fits its form, that is, when it is the command's word (30_encoding.md R60, R61, R64, R65, R71). -/

namespace Sys2Proof

/-- Form `N` (R61). -/
theorem formN_eq_ok {i j : Instr} {arg : Nat} : formN i arg = .ok j ↔ arg = 0 ∧ i = j := by
  unfold formN
  split <;> simp [*]

/-- Form `S` (R61). -/
theorem formS_eq_ok {symw arg : Nat} {mk : Nat → Instr} {j : Instr} :
    formS symw mk arg = .ok j ↔ arg < 2 ^ symw ∧ mk arg = j := by
  unfold formS
  split <;> simp [*]

/-- Form `B`: the two arguments are the two bits (R61, R64). -/
theorem formB_eq_ok {arg : Nat} {mk : Bool → Instr} {j : Instr} :
    formB mk arg = .ok j ↔ ∃ b : Bool, arg = b.toNat ∧ mk b = j := by
  match arg with
  | 0 => simp [formB]
  | 1 => simp [formB]
  | n + 2 => simp [formB]

/-- The operand of `DEC` as a number (R71). -/
theorem Instr.dec_arg (b : Bool) : (Instr.dec b).arg = b.toNat := by cases b <;> rfl

/-- The opcode map backwards: one row for each command, whose operand fits its form (R61, R65). -/
theorem decodeFields_eq_ok {symw op sub arg : Nat} {i : Instr} (ha : arg < 2 ^ 17) :
    decodeFields symw op sub arg = .ok i ↔
      op = i.op ∧ sub = i.sub ∧ arg = i.arg ∧ i.wellFormed symw = true := by
  constructor
  · intro h
    unfold decodeFields at h
    split at h
    case h_1 | h_3 | h_4 | h_7 | h_8 =>
      obtain ⟨h0, rfl⟩ := formN_eq_ok.1 h
      exact ⟨rfl, rfl, h0, rfl⟩
    case h_2 | h_5 | h_10 | h_11 =>
      obtain ⟨hs, rfl⟩ := formS_eq_ok.1 h
      exact ⟨rfl, rfl, rfl, decide_eq_true hs⟩
    case h_6 =>
      obtain ⟨b, hb, rfl⟩ := formB_eq_ok.1 h
      exact ⟨rfl, rfl, hb.trans (Instr.dec_arg b).symm, rfl⟩
    case h_9 | h_12 | h_13 | h_14 | h_15 =>
      cases h
      exact ⟨rfl, rfl, rfl, decide_eq_true ha⟩
    case h_16 | h_17 => cases h
  · rintro ⟨rfl, rfl, rfl, hw⟩
    cases i with
    | clr | bld | drv | fin | abt => rfl
    | cnt s | enc s | rdf s | rdl s => exact formS_eq_ok.2 ⟨of_decide_eq_true hw, rfl⟩
    | dec b => exact formB_eq_ok.2 ⟨b, Instr.dec_arg b, rfl⟩
    | rds x | rdnk x | rdnf x | rdnl x | rdnr x => rfl

/-- The field `arg` has 17 bits (R60). -/
theorem argField_lt (w : Word) : argField w < 2 ^ 17 := by
  rw [argField_eq]
  exact Nat.mod_lt _ (by decide)

/-- A word decodes to `i` exactly when its fields are those of `i` and the operand fits (R60, R61, R65). -/
theorem decode_eq_ok {symw : Nat} {w : Word} {i : Instr} :
    decode symw w = .ok i ↔
      zField w = 0 ∧ opField w = i.op ∧ subField w = i.sub ∧ argField w = i.arg ∧ i.wellFormed symw = true := by
  unfold decode
  split
  · simp [*, decodeFields_eq_ok (argField_lt w)]
  · simp [*]

/-- Settles O1: the fields of an encoded command are the command's, and the opcode map finds it by them. -/
theorem decodeOfEncodeIsTheCommand : Obligations.DecodeOfEncodeIsTheCommand := by
  intro symw i hs hw
  obtain ⟨hop, hsub, hz, harg⟩ := fields_encode (arg_lt_of_wellFormed hs hw)
  exact decode_eq_ok.2 ⟨hz, hop, hsub, harg, hw⟩

/-- A word with the fields of a command, and 0 in the reserved one, is the command's word (R60, R71). -/
theorem encode_eq_of_fields {w : Word} {i : Instr} (hz : zField w = 0) (hop : opField w = i.op)
    (hsub : subField w = i.sub) (harg : argField w = i.arg) : encode i = w := by
  apply BitVec.eq_of_toNat_eq
  rw [encode_toNat (harg ▸ argField_lt w), toNat_fields w, hz, hop, hsub, harg]
  omega

/-- Settles O2: decoding reads the four fields, and they cover the word. -/
theorem encodeOfDecodeIsTheWord : Obligations.EncodeOfDecodeIsTheWord := by
  intro symw w i h
  obtain ⟨hz, hop, hsub, harg, hw⟩ := decode_eq_ok.1 h
  exact ⟨encode_eq_of_fields hz hop hsub harg, hw⟩

/-- The two directions of the round trip as one (R71). -/
theorem decode_eq_ok_iff_encode {symw : Nat} {w : Word} {i : Instr} (hs : symw ≤ 16) :
    decode symw w = .ok i ↔ w = encode i ∧ i.wellFormed symw = true := by
  constructor
  · intro h
    obtain ⟨he, hw⟩ := encodeOfDecodeIsTheWord symw w i h
    exact ⟨he.symm, hw⟩
  · rintro ⟨rfl, hw⟩
    exact decodeOfEncodeIsTheCommand symw i hs hw

/-- Settles O5: the words are those of the round trip, at `SYMW = 8`. -/
theorem specWordsDecode : Obligations.SpecWordsDecode := by
  have h (i : Instr) (hw : i.wellFormed 8 = true) : decode 8 (encode i) = .ok i :=
    decodeOfEncodeIsTheCommand 8 i (by decide) hw
  exact ⟨h .clr rfl, h (.cnt 0x61) rfl, h .bld rfl, h .drv rfl, h (.enc 0x62) rfl, h (.dec true) rfl, h .fin rfl,
    h .abt rfl, h (.rds 6) rfl, h (.rdf 0x7A) rfl, h (.rdl 0x63) rfl, h (.rdnk 4) rfl, h (.rdnf 4) rfl,
    h (.rdnl 4) rfl, h (.rdnr 4) rfl⟩

end Sys2Proof

/-! The words that decode to no command (30_encoding.md R66). -/

namespace Sys2Proof

theorem formN_error {i : Instr} {arg : Nat} : (∃ e, formN i arg = .error e) ↔ arg ≠ 0 := by
  unfold formN
  split <;> simp [*]

theorem formS_error {symw arg : Nat} {mk : Nat → Instr} :
    (∃ e, formS symw mk arg = .error e) ↔ 2 ^ symw ≤ arg := by
  unfold formS
  split <;> simp_all

theorem formB_error {arg : Nat} {mk : Bool → Instr} : (∃ e, formB mk arg = .error e) ↔ 1 < arg := by
  unfold formB
  split <;> simp_all

theorem formX_no_error {arg : Nat} {mk : Nat → Instr} : ¬ ∃ e, formX mk arg = .error e := by
  simp [formX]

/-- The five cases of R66 over the fields of a word, the last of them by form. -/
def IllegalFields (symw op sub z arg : Nat) : Prop :=
  (¬ (1 ≤ op ∧ op ≤ 8) ∧ ¬ (0x10 ≤ op ∧ op ≤ 0x13))
    ∨ z ≠ 0
    ∨ (sub ≠ 0 ∧ op ≠ 0x13)
    ∨ (op = 0x13 ∧ 4 ≤ sub)
    ∨ (op ∈ [0x01, 0x03, 0x04, 0x07, 0x08] ∧ arg ≠ 0)
    ∨ (op ∈ [0x02, 0x05, 0x11, 0x12] ∧ 2 ^ symw ≤ arg)
    ∨ (op = 0x06 ∧ 1 < arg)

/-- With `z = 0` the opcode map has no command exactly in the other cases: in an assigned row only the form's constraint
is left, and outside the rows `sub` or `op` is the reason (R61, R62, R66). -/
theorem decodeFields_error {symw op sub arg : Nat} :
    (∃ e, decodeFields symw op sub arg = .error e) ↔ IllegalFields symw op sub 0 arg := by
  unfold decodeFields
  split
  case h_1 | h_3 | h_4 | h_7 | h_8 => simp [formN_error, IllegalFields]
  case h_2 | h_5 | h_10 | h_11 => simp [formS_error, IllegalFields]
  case h_6 => simp [formB_error, IllegalFields]
  case h_9 | h_12 | h_13 | h_14 | h_15 => simp [formX_no_error, IllegalFields]
  case h_16 h0 h1 h2 h3 =>
    have hne : sub ≠ 0 ∧ sub ≠ 1 ∧ sub ≠ 2 ∧ sub ≠ 3 := ⟨h0, h1, h2, h3⟩
    have hsub : 4 ≤ sub := by omega
    exact iff_of_true ⟨_, rfl⟩ (.inr (.inr (.inr (.inl ⟨rfl, hsub⟩))))
  case h_17 =>
    refine iff_of_true ⟨_, rfl⟩ ?_
    by_cases hsub : sub = 0
    · simp only [hsub, forall_const, imp_false] at *
      exact .inl (by omega)
    · exact .inr (.inr (.inl ⟨hsub, ‹op = 0x13 → False›⟩))

/-- A word decodes to no command exactly when its fields are in one of the five cases (R66). -/
theorem decode_error {symw : Nat} {w : Word} :
    (∃ e, decode symw w = .error e) ↔
      IllegalFields symw (opField w) (subField w) (zField w) (argField w) := by
  unfold decode
  split
  next hz => rw [decodeFields_error, hz]
  next hz => exact iff_of_true ⟨_, rfl⟩ (.inr (.inl hz))

end Sys2Proof

namespace Sys2Proof.Machine

/-- An illegal word is refused before any other check (R66, R170). -/
theorem runWord_of_error {w : Word} {s : State} {e : Illegal} (hd : decode s.param.symw w = .error e) :
    runWord w s = .next (s.send [.rsp ⟨.refusal .illegal, 0⟩]) := by
  simp [runWord, hd]

/-- Settles O3: the cases are those in which the opcode map has no command; the all-zero word has `op = 0`, and the
all-ones word `z = 7`. -/
theorem illegalWordsAreExactlyThese : Obligations.IllegalWordsAreExactlyThese := by
  refine ⟨fun symw w => decode_error, fun w s e => runWord_of_error, fun symw => ⟨?_, ?_⟩⟩
  · exact decode_error.2 (.inl (by decide))
  · exact decode_error.2 (.inr (.inl (by decide)))

end Sys2Proof.Machine

/-! The opcode table's masks: fixed bits that name the command, and free bits that hold the operand (30_encoding.md
R65). -/

namespace Sys2Proof

/-- A word is its bits outside of `f` and its bits inside. -/
theorem and_not_or_and {n : Nat} (w f : BitVec n) : (w &&& ~~~f) ||| (w &&& f) = w := by
  rw [← BitVec.and_or_distrib_left]
  simp

/-- A word is `m ||| a`, where `f` marks the bits of `a` and `m` has none of them, exactly when `m` is found outside of
`f` and `a` inside. -/
theorem eq_or_iff_masked {n : Nat} {w m a f : BitVec n} (hm : m &&& f = 0#n) (ha : a &&& f = a) :
    w = m ||| a ↔ w &&& ~~~f = m ∧ w &&& f = a := by
  constructor
  · rintro rfl
    have hm' : m &&& ~~~f = m := by simpa [hm] using and_not_or_and m f
    have ha' : a &&& ~~~f = 0#n := by
      rw [← ha, BitVec.and_assoc]
      simp
    simp [BitVec.and_or_distrib_right, hm, ha, hm', ha']
  · rintro ⟨rfl, rfl⟩
    exact (and_not_or_and w f).symm

/-- The `k` low bits of a word: those a row's mask leaves free (R65). -/
def freeBits (k : Nat) : Word := BitVec.ofNat 32 (2 ^ k - 1)

/-- The `match` of a row: its `op` and `sub` in their fields, the operand 0 (R65). -/
def matchWord (op sub : Nat) : Word := (BitVec.ofNat 32 op <<< 24) ||| (BitVec.ofNat 32 sub <<< 20)

theorem encode_eq_matchWord_or (i : Instr) : encode i = matchWord i.op i.sub ||| BitVec.ofNat 32 i.arg := rfl

theorem freeBits_getElem (k : Nat) {j : Nat} (hj : j < 32) : (freeBits k)[j] = decide (j < k) := by
  rw [freeBits, BitVec.getElem_eq_testBit_toNat, BitVec.toNat_ofNat, Nat.testBit_mod_two_pow,
    Nat.testBit_two_pow_sub_one]
  simp [hj]

/-- `match` has no bit below the 20th, so none that a mask leaves free (R65). -/
theorem matchWord_and_freeBits (op sub : Nat) {k : Nat} (hk : k ≤ 17) : matchWord op sub &&& freeBits k = 0#32 := by
  ext j hj
  by_cases h : j < k
  · have h20 : j < 20 := by omega
    have h24 : j < 24 := by omega
    simp [matchWord, h20, h24]
  · simp [freeBits_getElem k hj, h]

theorem and_freeBits_toNat (w : Word) {k : Nat} (hk : k ≤ 17) : (w &&& freeBits k).toNat = w.toNat % 2 ^ k := by
  have : 2 ^ k ≤ 2 ^ 17 := Nat.pow_le_pow_right (by decide) hk
  rw [BitVec.toNat_and, freeBits, BitVec.toNat_ofNat, Nat.mod_eq_of_lt (by omega), Nat.and_two_pow_sub_one_eq_mod]

/-- An operand of at most `k` bits lies in the free bits. -/
theorem ofNat_and_freeBits {n k : Nat} (hk : k ≤ 17) (hn : n < 2 ^ k) :
    BitVec.ofNat 32 n &&& freeBits k = BitVec.ofNat 32 n := by
  have : 2 ^ k ≤ 2 ^ 17 := Nat.pow_le_pow_right (by decide) hk
  apply BitVec.eq_of_toNat_eq
  rw [and_freeBits_toNat _ hk, BitVec.toNat_ofNat]
  exact Nat.mod_eq_of_lt (by omega)

/-- A row whose mask leaves `k` bits free: fixed bits and operand decide whether a word is one of its command (R65). -/
theorem decode_eq_ok_iff_mask {symw k : Nat} {w : Word} {i : Instr} (hs : symw ≤ 16) (hk : k ≤ 17)
    (hw : i.wellFormed symw = true ↔ i.arg < 2 ^ k) :
    decode symw w = .ok i ↔ w &&& ~~~freeBits k = matchWord i.op i.sub ∧ i.arg = (w &&& freeBits k).toNat := by
  rw [decode_eq_ok_iff_encode hs, hw, encode_eq_matchWord_or]
  by_cases harg : i.arg < 2 ^ k
  · have h32 : i.arg < 2 ^ 32 := by
      have : 2 ^ k ≤ 2 ^ 17 := Nat.pow_le_pow_right (by decide) hk
      omega
    rw [eq_or_iff_masked (matchWord_and_freeBits i.op i.sub hk) (ofNat_and_freeBits hk harg), BitVec.toNat_eq,
      BitVec.toNat_eq (y := BitVec.ofNat 32 i.arg), BitVec.toNat_ofNat, Nat.mod_eq_of_lt h32]
    simp [harg, eq_comm]
  · have hne : i.arg ≠ (w &&& freeBits k).toNat := by
      rw [and_freeBits_toNat w hk]
      have := Nat.mod_lt w.toNat (Nat.two_pow_pos k)
      omega
    exact iff_of_false (fun h => harg h.2) (fun h => hne h.2)

/-- The rows of form `N`: no bit is free (R65). -/
theorem decode_default_formN {w : Word} (i : Instr) (op sub : Nat) (hop : i.op = op) (hsub : i.sub = sub)
    (ha : i.arg = 0) (hw : i.wellFormed 8 = true) :
    decode 8 w = .ok i ↔ w &&& 0xFFFFFFFF = matchWord op sub := by
  rw [decode_eq_ok_iff_mask (k := 0) (by decide) (by decide) (by simp [ha, hw]), hop, hsub]
  simp [ha, freeBits]

/-- The rows of form `S`: `SYMW = 8` bits are free (R65). -/
theorem decode_default_formS {w : Word} (i : Instr) (op sub : Nat) (hop : i.op = op) (hsub : i.sub = sub)
    (hw : i.wellFormed 8 = decide (i.arg < 2 ^ 8)) :
    decode 8 w = .ok i ↔ w &&& 0xFFFFFF00 = matchWord op sub ∧ i.arg = (w &&& 0xFF).toNat := by
  rw [decode_eq_ok_iff_mask (k := 8) (by decide) (by decide) (by simp [hw]), hop, hsub]
  rfl

/-- The row of form `B`: one bit is free, and it is the operand (R65). -/
theorem decode_default_formB {w : Word} (b : Bool) :
    decode 8 w = .ok (.dec b) ↔ w &&& 0xFFFFFFFE = matchWord 0x06 0 ∧ b = decide (w &&& 1 = 1) := by
  have hbit : (Instr.dec b).arg = (w &&& freeBits 1).toNat ↔ b = decide (w &&& 1 = 1) := by
    have hmod : (w &&& 1).toNat = w.toNat % 2 := and_freeBits_toNat w (k := 1) (by decide)
    have hone : w &&& 1 = 1 ↔ w.toNat % 2 = 1 := by rw [BitVec.toNat_eq, hmod]; rfl
    rw [Instr.dec_arg, and_freeBits_toNat w (by decide), Bool.eq_iff_iff, decide_eq_true_iff, hone]
    cases b <;> simp <;> omega
  rw [decode_eq_ok_iff_mask (k := 1) (by decide) (by decide) (by cases b <;> decide), hbit]
  rfl

/-- The rows of form `X`: the 17 bits of `arg` are free (R65). -/
theorem decode_default_formX {w : Word} (i : Instr) (op sub : Nat) (hop : i.op = op) (hsub : i.sub = sub)
    (hw : i.wellFormed 8 = decide (i.arg < 2 ^ 17)) :
    decode 8 w = .ok i ↔ w &&& 0xFFFE0000 = matchWord op sub ∧ i.arg = (w &&& 0x1FFFF).toNat := by
  rw [decode_eq_ok_iff_mask (k := 17) (by decide) (by decide) (by simp [hw]), hop, hsub]
  rfl

/-- Settles O4: every row is one of its form, with its `op` and `sub` as the fixed bits. -/
theorem defaultMasksDecideLegality : Obligations.DefaultMasksDecideLegality := fun _ =>
  ⟨decode_default_formN .clr 0x01 0 rfl rfl rfl rfl,
    fun s => decode_default_formS (.cnt s) 0x02 0 rfl rfl rfl,
    decode_default_formN .bld 0x03 0 rfl rfl rfl rfl,
    decode_default_formN .drv 0x04 0 rfl rfl rfl rfl,
    fun s => decode_default_formS (.enc s) 0x05 0 rfl rfl rfl,
    decode_default_formB,
    decode_default_formN .fin 0x07 0 rfl rfl rfl rfl,
    decode_default_formN .abt 0x08 0 rfl rfl rfl rfl,
    fun x => decode_default_formX (.rds x) 0x10 0 rfl rfl rfl,
    fun s => decode_default_formS (.rdf s) 0x11 0 rfl rfl rfl,
    fun s => decode_default_formS (.rdl s) 0x12 0 rfl rfl rfl,
    fun x => decode_default_formX (.rdnk x) 0x13 0 rfl rfl rfl,
    fun x => decode_default_formX (.rdnf x) 0x13 1 rfl rfl rfl,
    fun x => decode_default_formX (.rdnl x) 0x13 2 rfl rfl rfl,
    fun x => decode_default_formX (.rdnr x) 0x13 3 rfl rfl rfl⟩

end Sys2Proof

/-! The one response of a command: its code, and what comes before it (30_encoding.md R63, R69). -/

namespace Sys2Proof.Machine

/-- From `s` a command has queued emissions alone, then its one response, with the code `rc` (R63). -/
def Answers (s t : State) (rc : Rc) : Prop :=
  ∃ ems d, t.out = s.out ++ ems ++ [.rsp ⟨rc, d⟩] ∧ ∀ x ∈ ems, x.isRsp = false

/-- A command that emits nothing. -/
theorem answers_send_rsp {s u : State} (hu : u.out = s.out) (r : Response) : Answers s (u.send [.rsp r]) r.rc :=
  ⟨[], r.rdata, by simp [hu], nofun⟩

/-- A command that emits one symbol. -/
theorem answers_send_sym {s u : State} (hu : u.out = s.out) (x : Nat) (r : Response) :
    Answers s (u.send [.sym x, .rsp r]) r.rc :=
  ⟨[.sym x], r.rdata, by simp [hu], by simp [Transfer.isRsp]⟩

/-- A command that emits bits. -/
theorem answers_send_bits (s : State) (bs : List Bool) (r : Response) :
    Answers s (s.send (bs.map Transfer.bit ++ [.rsp r])) r.rc :=
  ⟨bs.map Transfer.bit, r.rdata, by simp, fun x hx => by
    obtain ⟨b, -, rfl⟩ := List.mem_map.1 hx
    rfl⟩

/-- The response is the last transfer queued. -/
theorem Answers.lastRc {s t : State} {rc : Rc} (h : Answers s t rc) : t.lastRc = some rc := by
  obtain ⟨ems, d, ho, -⟩ := h
  simp [State.lastRc, ho]

/-- A command's own effect is answered `OK` (R74). -/
theorem OkEffect.answers {i : Instr} {s t : State} (h : OkEffect s t i) : Answers s t .ok := by
  cases i with
  | clr =>
    cases h
    exact answers_send_rsp (State.clear_out s) _
  | cnt x =>
    obtain ⟨-, -, -, -, rfl⟩ := h
    exact answers_send_rsp rfl _
  | bld =>
    obtain ⟨-, -, rfl⟩ := h
    exact answers_send_rsp rfl _
  | drv =>
    obtain ⟨-, -, tbl, -, rfl⟩ := h
    exact answers_send_rsp rfl _
  | enc x =>
    obtain ⟨-, -, -, c, -, rfl⟩ := h
    exact answers_send_bits s _ _
  | dec b =>
    obtain ⟨-, -, ⟨-, rfl⟩ | ⟨-, rt, -, ⟨-, rfl⟩ | ⟨-, nd, c, -, -, ⟨-, rfl⟩ | ⟨-, rfl⟩⟩⟩⟩ := h
    · exact answers_send_rsp rfl _
    · exact answers_send_sym rfl _ _
    · exact answers_send_sym (State.setCur_out s _) _ _
    · exact answers_send_rsp (State.setCur_out s _) _
  | fin =>
    obtain ⟨-, -, -, rfl⟩ := h
    exact answers_send_rsp rfl _
  | abt => exact h.elim
  | rds x =>
    obtain ⟨v, -, rfl⟩ := h
    exact answers_send_rsp rfl _
  | rdf x | rdl x =>
    obtain ⟨-, rfl⟩ := h
    exact answers_send_rsp rfl _
  | rdnk x | rdnf x | rdnl x | rdnr x =>
    obtain ⟨-, nd, -, rfl⟩ := h
    exact answers_send_rsp rfl _

/-- What a command answers: a refusal, its fatal error, or `OK` (R69). -/
theorem exec_answers {i : Instr} {s t : State} (h : exec i s = .next t) :
    (∃ r, RefusedWith s i r ∧ Answers s t (.refusal r)) ∨ (∃ e, RaisesError s i e ∧ Answers s t (.error e)) ∨
      Answers s t .ok := by
  rcases exec_cases h with ⟨r, hr, rfl⟩ | ⟨e, he, rfl⟩ | h
  · exact .inl ⟨r, hr, answers_send_rsp rfl _⟩
  · exact .inr (.inl ⟨e, he, answers_send_rsp (State.setErr_out s e) _⟩)
  · exact .inr (.inr h.answers)

/-- A command answered with a refusal is one that is refused. -/
theorem refusedWith_of_lastRc {i : Instr} {s t : State} {r : Reason} (h : exec i s = .next t)
    (hr : t.lastRc = some (.refusal r)) : RefusedWith s i r := by
  rcases exec_answers h with ⟨r', hr', ha⟩ | ⟨e, -, ha⟩ | ha <;> cases hr.symm.trans ha.lastRc
  exact hr'

/-- A command answered with a fatal error is one that raises it. -/
theorem raisesError_of_lastRc {i : Instr} {s t : State} {e : Fatal} (h : exec i s = .next t)
    (he : t.lastRc = some (.error e)) : RaisesError s i e := by
  rcases exec_answers h with ⟨r, -, ha⟩ | ⟨e', he', ha⟩ | ha <;> cases he.symm.trans ha.lastRc
  exact he'

/-- Which commands raise a fatal error: the column "raised by" of R69. -/
def Fatal.raisedBy (i : Instr) : Fatal → Prop
  | .io => i = .abt
  | .consist => ∃ x, i = .enc x
  | .trunc => i = .fin
  | .cap => ∃ x, i = .cnt x

/-- Which commands a reason can turn away: the column "raised by" of R69. -/
def Reason.answeredBy (i : Instr) : Reason → Prop
  | .illegal => True
  | .order => i = .bld ∨ i = .drv ∨ i = .fin ∨ (∃ x, i = .cnt x) ∨ (∃ x, i = .enc x) ∨ ∃ b, i = .dec b
  | .range => (∃ x, i = .rds x) ∨ (∃ x, i = .rdnk x) ∨ (∃ x, i = .rdnf x) ∨ (∃ x, i = .rdnl x) ∨ ∃ x, i = .rdnr x
  | .halted => i = .bld ∨ i = .drv ∨ i = .fin ∨ i = .abt ∨ (∃ x, i = .cnt x) ∨ (∃ x, i = .enc x) ∨ ∃ b, i = .dec b

/-- Each fatal condition is that of one command (R166 to R169). -/
theorem RaisesError.raisedBy {s : State} {i : Instr} {e : Fatal} (h : RaisesError s i e) : e.raisedBy i := by
  obtain ⟨-, -, -, hf⟩ := h
  cases i with
  | clr | bld | drv | dec | rds | rdf | rdl | rdnk | rdnf | rdnl | rdnr => cases hf
  | cnt x | enc x =>
    obtain ⟨-, hf⟩ := Option.ite_none_right_eq_some.1 hf
    cases hf
    exact ⟨x, rfl⟩
  | fin =>
    obtain ⟨-, hf⟩ := Option.ite_none_right_eq_some.1 hf
    cases hf
    rfl
  | abt =>
    cases hf
    rfl

/-- The working commands are those the halted block turns away (R155). -/
theorem isWork_iff {i : Instr} : isWork i = true ↔ Reason.halted.answeredBy i := by
  cases i <;> simp [isWork, isRead, Reason.answeredBy]

/-- The halted check and the phase check are made of working commands, of which `ABT` passes the latter in every phase;
the range check is made of the reads by index (R170 to R172, R182). -/
theorem RefusedWith.answeredBy {s : State} {i : Instr} {r : Reason} (h : RefusedWith s i r) : r.answeredBy i := by
  cases r with
  | illegal => trivial
  | order =>
    obtain ⟨hw, -, ha⟩ := h
    obtain hi | hi | hi | rfl | hi := isWork_iff.1 hw
    · exact .inl hi
    · exact .inr (.inl hi)
    · exact .inr (.inr (.inl hi))
    · cases ha
    · exact .inr (.inr (.inr hi))
  | range =>
    cases i with
    | clr | cnt | bld | drv | enc | dec | fin | abt | rdf | rdl => cases h
    | rds x | rdnk x | rdnf x | rdnl x | rdnr x => simp [Reason.answeredBy]
  | halted => exact isWork_iff.1 h.1

/-- The nine codes are all there are (R69). -/
theorem Rc.code_mem (rc : Rc) : rc.code.toNat ∈ [0, 1, 2, 3, 4, 8, 9, 10, 11] := by
  cases rc with
  | ok => decide
  | error e => cases e <;> decide
  | refusal r => cases r <;> decide

/-- Settles O18: a code other than `OK` comes from a refusal or a fatal error, and each of them names its commands. -/
theorem responseCodesAndWhoAnswersThem : Obligations.ResponseCodesAndWhoAnswersThem := by
  refine ⟨rfl, rfl, rfl, rfl, rfl, rfl, rfl, rfl, rfl, Rc.code_mem, fun i s t h => ?_⟩
  have herr (e : Fatal) (he : t.lastRc = some (.error e)) : e.raisedBy i := (raisesError_of_lastRc h he).raisedBy
  have href (r : Reason) (hr : t.lastRc = some (.refusal r)) : r.answeredBy i := (refusedWith_of_lastRc h hr).answeredBy
  exact ⟨herr .io, herr .consist, herr .trunc, herr .cap, href .order, href .range, href .halted⟩

end Sys2Proof.Machine

/-! In every state of the block every command and every edge answers a next state: what the rules read is there
(30_encoding.md R70, 10_state.md R32). -/

namespace Sys2Proof.Machine

/-- The checks before a command answer, so it is enough that the admitted command does. -/
theorem ifAdmitted_total {adm : Phase → Bool} {s : State} {run : Outcome}
    (h : adm s.phase = true → ∃ t, run = .next t) : ∃ t, ifAdmitted adm s run = .next t := by
  by_cases he : s.err = none
  · cases hp : adm s.phase with
    | true =>
      obtain ⟨t, ht⟩ := h hp
      exact ⟨t, (ifAdmitted_of_ok he hp).trans ht⟩
    | false => exact ⟨_, ifAdmitted_of_order he hp⟩
  · exact ⟨_, ifAdmitted_of_halted he⟩

theorem withSymbol_total {x : Nat} {s : State} {run : Outcome} (h : ∃ t, run = .next t) :
    ∃ t, withSymbol x s run = .next t := by
  obtain ⟨t, ht⟩ := h
  by_cases hx : x < s.param.nsym
  · exact ⟨t, (withSymbol_of_lt hx).trans ht⟩
  · exact ⟨_, withSymbol_of_not_lt hx⟩

/-- `NNODE` is the number of arena entries that hold values (R18). -/
theorem Inv.nnode_eq {s : State} (h : Inv s) : s.nnode = s.node.length := by
  cases ht : s.treev with
  | true => exact (h.tree ht).nnode
  | false =>
    have hb := h.no_tree ht
    calc s.nnode = noBuilt.nnode := congrArg Built.nnode hb
      _ = s.node.length := (congrArg (List.length ∘ Built.node) hb).symm

/-- The node reads find every entry below `NNODE` (R109 to R112). -/
theorem Inv.withNode_total {s : State} (h : Inv s) (x : Nat) (d : Node → Word) :
    ∃ t, withNode x s (fun nd => respond .ok (d nd) s) = .next t := by
  by_cases hx : x < s.nnode
  · have hn := List.getElem?_eq_getElem (h.nnode_eq ▸ hx)
    exact ⟨_, (if_pos hx).trans (readNode_of_some hn)⟩
  · exact ⟨_, if_neg hx⟩

/-- The walk of `DRV` ends (R116). -/
theorem Inv.execDrv_total {s : State} (h : Inv s) : ∃ t, execDrv s = .next t :=
  ifAdmitted_total fun hp => by
    have hc : s.phase ≠ .code := fun hc => by simp [hc, admDrv] at hp
    obtain ⟨tbl, hd⟩ := h.derive
    rw [h.beforeDerive hc, hd]
    exact ⟨_, rfl⟩

/-- Where the root is internal, so is the node the decoder stands on (R144). -/
theorem Inv.cur_internal {s : State} (h : Inv s) (ht : s.treev = true) {rt : Node} (hrt : s.node[s.root]? = some rt)
    (hk : rt.kind = .internal) : ∃ nd, s.node[s.cur]? = some nd ∧ nd.kind = .internal := by
  obtain ⟨-, rt', hrt', hk'⟩ | hcur := h.cursor.2 ht
  · cases hrt.symm.trans hrt'
    cases hk.symm.trans hk'
  · exact hcur

/-- The descent finds both nodes it reads (R137). -/
theorem Inv.descend_total {s : State} (h : Inv s) (ht : s.treev = true) {rt : Node}
    (hrt : s.node[s.root]? = some rt) (hk : rt.kind = .internal) (b : Bool) : ∃ t, descend b s = .next t := by
  obtain ⟨nd, hnd, hkd⟩ := h.cur_internal ht hrt hk
  obtain ⟨c, hc⟩ := h.child ht hnd hkd b
  rw [descend, readNode_of_some hnd, readNode_of_some hc]
  cases c.kind with
  | leaf | internal => exact ⟨_, rfl⟩

/-- `DEC` reads the root while `TREEV = 1`, and descends where it is internal (R136). -/
theorem Inv.execDec_total {s : State} (h : Inv s) (b : Bool) : ∃ t, execDec b s = .next t :=
  ifAdmitted_total fun _ => by
    cases ht : s.treev with
    | false => exact ⟨_, rfl⟩
    | true =>
      obtain ⟨rt, hrt, -⟩ := h.root ht
      rw [if_pos rfl, readNode_of_some hrt]
      cases hk : rt.kind with
      | leaf => exact ⟨_, rfl⟩
      | internal => exact h.descend_total ht hrt hk b

/-- Every command answers in every state of the block (R70). -/
theorem Inv.exec_total {s : State} (h : Inv s) (i : Instr) : ∃ t, exec i s = .next t := by
  cases i with
  | clr => exact ⟨_, rfl⟩
  | cnt x =>
    refine withSymbol_total (ifAdmitted_total fun _ => ?_)
    split <;> exact ⟨_, rfl⟩
  | bld => exact ifAdmitted_total fun _ => ⟨_, rfl⟩
  | drv => exact h.execDrv_total
  | enc x =>
    refine withSymbol_total (ifAdmitted_total fun _ => ?_)
    split <;> exact ⟨_, rfl⟩
  | dec b => exact h.execDec_total b
  | fin =>
    refine ifAdmitted_total fun _ => ?_
    split <;> exact ⟨_, rfl⟩
  | abt => exact ifAdmitted_total fun _ => ⟨_, rfl⟩
  | rds x =>
    obtain ⟨r, hr⟩ := execRds_answersOnly x s
    exact ⟨_, s.send_nil ▸ hr []⟩
  | rdf x => exact withSymbol_total ⟨_, rfl⟩
  | rdl x =>
    refine withSymbol_total ?_
    split <;> exact ⟨_, rfl⟩
  | rdnk x | rdnf x | rdnl x | rdnr x => exact h.withNode_total x _

/-- So does every word, legal or not. -/
theorem Inv.runWord_total {s : State} (h : Inv s) (w : Word) : ∃ t, runWord w s = .next t := by
  cases hd : decode s.param.symw w with
  | error e => exact ⟨_, runWord_of_error hd⟩
  | ok i =>
    rw [runWord_of_ok hd]
    exact h.exec_total i

/-- So does every rising edge (R55, R56). -/
theorem Inv.clockEdge_total {s : State} (h : Inv s) (e : HostPins) : ∃ t, clockEdge e s = .next t := by
  unfold clockEdge
  split
  · exact ⟨_, rfl⟩
  · split
    · split
      · exact h.runWord_total e.cmdWord
      · exact ⟨_, rfl⟩
    · split <;> exact ⟨_, rfl⟩

/-- Settles O58: a step is one edge or none, and edge and command find all they read. -/
theorem everyStepAnswers : Obligations.EveryStepAnswers := by
  refine fun s h => ⟨?_, h.exec_total⟩
  cases hi : s.input with
  | nil => exact ⟨s, by simp [step, stepEdge, h.legal, hi]⟩
  | cons e es =>
    rw [step_of_edge h.legal hi]
    exact (h.input es).clockEdge_total e

/-- A word that is answered has exactly one response (R63). -/
theorem runWord_one_response {w : Word} {s t : State} (h : runWord w s = .next t) : ∃ rc, Answers s t rc := by
  rcases runWord_next h with ⟨e, -, rfl⟩ | ⟨i, -, h⟩
  · exact ⟨_, answers_send_rsp rfl _⟩
  · rcases exec_answers h with ⟨r, -, ha⟩ | ⟨e, -, ha⟩ | ha
    · exact ⟨_, ha⟩
    · exact ⟨_, ha⟩
    · exact ⟨_, ha⟩

/-- Settles O17: in a state of the block every word is answered, and an answer holds one response. -/
theorem oneResponsePerCommand : Obligations.OneResponsePerCommand := by
  intro w s h
  obtain ⟨t, ht⟩ := h.runWord_total w
  obtain ⟨rc, ems, d, ho, hems⟩ := runWord_one_response ht
  exact ⟨t, ems, ⟨rc, d⟩, ht, ho, hems⟩

end Sys2Proof.Machine

/-! The frequency accumulator: what counting and reading a symbol do to the counts, and why none wraps
(41_frequency_counter.md R81 to R85). -/

namespace Sys2Proof.Machine

/-- Counting a symbol of the instance adds 1 to its frequency (R81). -/
theorem State.countSymbol_freqAt_self {s : State} {x : Nat} (hx : x < s.freq.length) :
    (s.countSymbol x).freqAt x = s.freqAt x + 1 := by
  simp [State.freqAt, hx]

/-- Counting a symbol leaves the other frequencies alone (R81). -/
theorem State.countSymbol_freqAt_of_ne {s : State} {x y : Nat} (hy : y ≠ x) :
    (s.countSymbol x).freqAt y = s.freqAt y := by
  simp [State.freqAt, List.getElem?_set_ne hy.symm]

/-- `CNT` is admitted in `PH_COUNT` alone (R151). -/
theorem admCnt_eq_true_iff {p : Phase} : admCnt p = true ↔ p = .count := by
  cases p <;> simp [admCnt]

/-- Past its checks `CNT` raises `E_CAP` at `CNTMAX`, and counts below it (R81, R82). -/
theorem exec_cnt_of_admitted {s : State} {x : Nat} (hx : x < s.param.nsym) (he : s.err = none)
    (hp : s.phase = .count) :
    exec (.cnt x) s =
      if s.total = s.param.cntMax then raise .cap s else respond .ok 0 (s.countSymbol x) := by
  rw [exec, execCnt, withSymbol_of_lt hx, ifAdmitted_of_ok he (admCnt_eq_true_iff.2 hp)]

/-- Settles O28: the checks in their order, then the two cases of an admitted `CNT`. -/
theorem cntCountsOneOccurrence : Obligations.CntCountsOneOccurrence := by
  refine fun s x => ⟨fun hx => ?_, fun hx he => ?_, fun hx he hp => ?_, fun hx he hp ht => ?_,
    fun hx he hp ht hl => ⟨(s.countSymbol x).send [.rsp ⟨.ok, 0⟩], ?_, ?_, fun y hy => ?_, ?_, rfl⟩⟩
  · rw [exec, execCnt, withSymbol_of_not_lt hx, refuse_eq]
  · rw [exec, execCnt, withSymbol_of_lt hx, ifAdmitted_of_halted he, refuse_eq]
  · have ha : admCnt s.phase = false := Bool.eq_false_iff.2 (mt admCnt_eq_true_iff.1 hp)
    rw [exec, execCnt, withSymbol_of_lt hx, ifAdmitted_of_order he ha, refuse_eq]
  · rw [exec_cnt_of_admitted hx he hp, if_pos ht, raise_eq, State.setErr, State.send]
  · rw [exec_cnt_of_admitted hx he hp, if_neg ht, respond_eq]
  · exact State.countSymbol_freqAt_self (hl ▸ hx)
  · exact State.countSymbol_freqAt_of_ne hy
  · exact List.length_set

/-- Settles O30: `RDF` has the symbol check and no other. -/
theorem rdfReadsTheCount : Obligations.RdfReadsTheCount := by
  refine fun s x => ⟨fun hx => ?_, fun hx => ?_⟩
  · rw [exec, execRdf, withSymbol_of_not_lt hx, refuse_eq]
  · rw [exec, execRdf, withSymbol_of_lt hx, respond_eq, zext32]

/-- A frequency is at most the sum of all; where there is no entry it is read as 0 (R15). -/
theorem State.freqAt_le_sum (s : State) (x : Nat) : s.freqAt x ≤ s.freq.sum := by
  by_cases hx : x < s.freq.length
  · calc s.freqAt x = s.freq[x] := List.getD_eq_getElem _ _ hx
      _ ≤ s.freq.sum := List.le_sum_of_mem (List.getElem_mem hx)
  · calc s.freqAt x = 0 := List.getD_eq_default _ _ (Nat.not_lt.1 hx)
      _ ≤ s.freq.sum := Nat.zero_le _

/-- `CNTMAX` is the largest number of `CNTW` bits (R5). -/
theorem Param.cntMax_lt (p : Param) : p.cntMax < 2 ^ p.cntw :=
  Nat.sub_one_lt_of_lt (Nat.two_pow_pos p.cntw)

/-- Settles O29: the invariant holds after the step, and it bounds `TOTAL`, the sum of the counts, by `CNTMAX`. -/
theorem countsNeverWrap : Obligations.CountsNeverWrap := by
  intro s t hs h
  have ht : Inv t := stepKeepsTheInvariant s t hs h
  refine ⟨ht.totalSum, ht.totalBound.trans_lt (Param.cntMax_lt t.param), fun x => ?_⟩
  calc t.freqAt x ≤ t.freq.sum := t.freqAt_le_sum x
    _ = t.total := ht.totalSum.symm

end Sys2Proof.Machine

/-! The priority queue: what a run of insertions leaves in it, and the member `extractMin` then takes
(42_priority_queue.md R92 to R94). -/

namespace Sys2Proof.Machine

theorem pqExtractMin_eq_none_iff {q : List Key} : pqExtractMin q = none ↔ q = [] := by
  cases q <;> simp [pqExtractMin]

/-- A member still to be inserted may as well have been inserted already (R92). -/
theorem append_pqInsert_perm (ks : List Key) (k : Key) (q : List Key) :
    (ks ++ pqInsert k q).Perm (k :: (ks ++ q)) :=
  ((pqInsert_perm k q).append_left ks).trans List.perm_middle

/-- A run of insertions adds exactly the members inserted (R92). -/
theorem foldl_pqInsert_perm (ks q : List Key) : (ks.foldl (fun acc k => pqInsert k acc) q).Perm (ks ++ q) := by
  induction ks generalizing q with
  | nil => exact .refl q
  | cons k ks ih => exact (ih (pqInsert k q)).trans (append_pqInsert_perm ks k q)

/-- A run of insertions of distinct members keeps the canonical form. -/
theorem foldl_pqInsert_sorted {ks q : List Key} (hq : PqSorted q) (hn : (ks ++ q).Nodup) :
    PqSorted (ks.foldl (fun acc k => pqInsert k acc) q) := by
  induction ks generalizing q with
  | nil => exact hq
  | cons k ks ih =>
    have hk : k ∉ ks ++ q := (List.nodup_cons.1 hn).1
    refine ih (pqInsert_sorted hq fun a ha hak => ?_) ((append_pqInsert_perm ks k q).nodup_iff.2 hn)
    exact hk (hak ▸ List.mem_append_right ks ha)

/-- Settles O31: the insertions leave exactly the members, in ascending order, and `extractMin` takes the first. -/
theorem extractMinTakesTheLeastKey : Obligations.ExtractMinTakesTheLeastKey := by
  intro ks hn q
  have hp : q.Perm ks := ks.append_nil ▸ foldl_pqInsert_perm ks pqClear
  have hs : PqSorted q := foldl_pqInsert_sorted pqClear_sorted (ks.append_nil.symm ▸ hn)
  refine ⟨hp.length_eq, ?_, fun m rest hm => ?_⟩
  · rw [pqExtractMin_eq_none_iff, ← List.length_eq_zero_iff, hp.length_eq, List.length_eq_zero_iff]
  · obtain ⟨hq, -, hfirst⟩ := pqExtractMin_spec hs hm
    have hks : (m :: rest).Perm ks := hq ▸ hp
    obtain ⟨hmem, hrest⟩ := List.cons_perm_iff_perm_erase.1 hks
    refine ⟨hmem, hrest, fun k hk hne => (Key.before_iff m k).1 (hfirst k ?_)⟩
    exact List.mem_of_ne_of_mem hne (hks.mem_iff.2 hk)

end Sys2Proof.Machine

/-! What `BLD` builds for every map: the two cases of the result, the leaves of step 1 and the facts of R108
(43_tree_builder.md R101 to R108). -/

namespace Sys2Proof.Machine

/-- A map without a key has no leaf, and only such a map (R102). -/
theorem leafList_eq_nil_iff {freq : List Nat} {sym : Nat} : leafList freq sym = [] ↔ ∀ c ∈ freq, c = 0 := by
  rw [← List.length_eq_zero_iff, leafList_length, List.length_eq_zero_iff, List.filter_eq_nil_iff]
  simp

/-- The two results of `BLD`: no tree over a map without a key, else the tree of R108. -/
theorem buildTree_cases (freq : List Nat) :
    (leafList freq 0 = [] ∧ buildTree freq = noBuilt) ∨ TreeOf freq (buildTree freq) := by
  by_cases h : leafList freq 0 = []
  · exact .inl ⟨h, buildTree_of_no_key h⟩
  · exact .inr (buildTree_spec h)

/-- `NLEAF` is the number of keys (R102). -/
theorem buildTree_nleaf (freq : List Nat) : (buildTree freq).nleaf = (leafList freq 0).length := by
  rcases buildTree_cases freq with ⟨hl, hb⟩ | t
  · rw [hb, hl]
    rfl
  · exact t.nleaf

/-- The leaves of step 1 stay in front of the nodes that the merges add (R102). -/
theorem TreeOf.take_leaves {freq : List Nat} {t : Built} (h : TreeOf freq t) :
    t.node.take t.nleaf = leafList freq 0 := by
  obtain ⟨rest, hr, -⟩ := h.forest.leaves
  exact (congrArg (List.take _) hr).trans (List.take_left' h.nleaf.symm)

/-- Whatever `BLD` leaves that is not at its reset value belongs to the tree. -/
theorem TreeOf.of_ne_noBuilt {freq : List Nat} (h : buildTree freq ≠ noBuilt) : TreeOf freq (buildTree freq) :=
  (buildTree_cases freq).resolve_left fun hb => h hb.2

/-- Where there is a node there is the tree. -/
theorem TreeOf.of_node {freq : List Nat} {i : Nat} {nd : Node} (hn : (buildTree freq).node[i]? = some nd) :
    TreeOf freq (buildTree freq) :=
  .of_ne_noBuilt fun hb => by simp [hb, noBuilt] at hn

/-- Settles O33: the leaves of step 1 come first and the merges add internal nodes only. -/
theorem leavesAreTheKeysInOrder : Obligations.LeavesAreTheKeysInOrder := by
  refine fun freq => ⟨?_, ?_, fun i nd hn => (TreeOf.of_node hn).leaf_iff hn⟩
  · rcases buildTree_cases freq with ⟨hl, hb⟩ | t
    · rw [hb]
      exact hl.symm
    · exact t.take_leaves
  · rw [buildTree_nleaf, leafList_length]

/-- Settles O34: every internal node of the finished arena is a merge of the two least, as the invariant of the loop
says. -/
theorem mergeTakesTheTwoLeast : Obligations.MergeTakesTheTwoLeast := by
  intro freq i nd hn hk
  have hm := (TreeOf.of_node hn).forest.merged i nd hn hk
  refine ⟨hm.leftLt, hm.rightLt, hm.symZero, hm.leftFree, hm.rightFree, hm.order, hm.least, fun a b ha hb => ?_⟩
  obtain ⟨a', b', ha', hb', hs⟩ := hm.sum
  cases ha.symm.trans ha'
  cases hb.symm.trans hb'
  exact hs

/-- The leaves stand in ascending symbol order (R102). -/
theorem TreeOf.leaf_sym_lt {freq : List Nat} {t : Built} (h : TreeOf freq t) {i j : Nat} {a b : Node} (hij : i < j)
    (hj : j < t.nleaf) (ha : t.node[i]? = some a) (hb : t.node[j]? = some b) : a.sym < b.sym := by
  rw [h.leaf_get (hij.trans hj)] at ha
  rw [h.leaf_get hj] at hb
  obtain ⟨hi, rfl⟩ := List.getElem?_eq_some_iff.1 ha
  obtain ⟨hj, rfl⟩ := List.getElem?_eq_some_iff.1 hb
  exact List.pairwise_iff_getElem.1 (leafList_ascending freq 0).1 i j hi hj hij

/-- Settles O35: the sizes and the root come from the loop's count of nodes and members, parents and order from its
merges, and a path loses at least one index per edge until it meets a leaf. -/
theorem builtTreeHasTheShape : Obligations.BuiltTreeHasTheShape := by
  rintro p freq k hp rfl hk
  have t : TreeOf freq (buildTree freq) := .of_ne_noBuilt fun hb => by simp [hb, noBuilt] at hk
  have hsize := t.size
  have hroot := t.root
  refine ⟨t.treev, t.nnode.trans hsize, t.nnode.symm, t.nnode ▸ hroot, fun i nd => t.leaf_iff,
    fun i j a b => t.leaf_sym_lt, fun i nd hn hki => ?_, fun j hj hr => ?_,
    fun i nd hn hki => (t.forest.merged i nd hn hki).left_ne_right, t.root_free, fun rt hrt => ?_,
    fun path j hw => ?_, ?_⟩
  · have hm := t.forest.merged i nd hn hki
    exact ⟨hm.leftLt, hm.rightLt⟩
  · obtain ⟨m, hm, -⟩ := t.parent (t.nnode ▸ hj) hr
    exact ⟨m, hm, fun m' hm' => t.forest.oneParent j m' m hm' hm⟩
  · obtain ⟨rt', hrt', hs⟩ := t.root_freq
    cases hrt.symm.trans hrt'
    exact hs
  · rcases t.path_length hw with rfl | hl
    · exact Nat.zero_le _
    · omega
  · have hle : (buildTree freq).nleaf ≤ p.nsym := by
      rw [buildTree_nleaf, leafList_length, ← hp]
      exact List.length_filter_le _ _
    exact Nat.sub_le_sub_right hle 1

end Sys2Proof.Machine

/-! The command `BLD`: its checks, its effect, and the two smallest results (43_tree_builder.md R101, R106, R107). -/

namespace Sys2Proof.Machine

/-- `BLD` is admitted in `PH_COUNT` alone (R151). -/
theorem admBld_eq_true_iff {p : Phase} : admBld p = true ↔ p = .count := by
  cases p <;> simp [admBld]

/-- Past its checks `BLD` installs the tree of the counts (R101). -/
theorem exec_bld_of_admitted {s : State} (he : s.err = none) (hp : s.phase = .count) :
    exec .bld s = .next (((s.installTree (buildTree s.freq)).setPhase .tree).send
      [.rsp ⟨.ok, zext32 (buildTree s.freq).nleaf⟩]) := by
  rw [exec, execBld, ifAdmitted_of_ok he (admBld_eq_true_iff.2 hp), respond_eq]

/-- Settles O32: the two checks in their order, then the effect. -/
theorem bldWritesTheTree : Obligations.BldWritesTheTree := by
  refine fun s => ⟨fun he => ?_, fun he hp => ?_, fun he hp => ⟨_, exec_bld_of_admitted he hp, rfl, rfl, rfl⟩⟩
  · rw [exec, execBld, ifAdmitted_of_halted he, refuse_eq]
  · have ha : admBld s.phase = false := Bool.eq_false_iff.2 (mt admBld_eq_true_iff.1 hp)
    rw [exec, execBld, ifAdmitted_of_order he ha, refuse_eq]

theorem leafList_append (xs ys : List Nat) (sym : Nat) :
    leafList (xs ++ ys) sym = leafList xs sym ++ leafList ys (sym + xs.length) := by
  simp [leafList, List.zipIdx_append]

/-- The one leaf of a map with one key, in whatever place (R106). -/
theorem leafList_of_one_key (a b : Nat) {c : Nat} (hc : c ≠ 0) :
    leafList (List.replicate a 0 ++ c :: List.replicate b 0) 0 = [leafNode c a] := by
  have hz : ∀ n sym, leafList (List.replicate n 0) sym = [] := fun n _ =>
    leafList_eq_nil_iff.2 fun _ h => List.eq_of_mem_replicate h
  rw [leafList_append, leafList_cons, if_pos hc, hz, hz, List.length_replicate, Nat.zero_add, List.nil_append]

/-- The tree over one leaf: the leaf is the root and stays in the queue (R106). -/
theorem TreeOf.eq_of_one_leaf {freq : List Nat} {t : Built} {nd : Node} (h : TreeOf freq t)
    (hl : leafList freq 0 = [nd]) :
    t = { node := [nd], nleaf := 1, nnode := 1, root := 0, treev := true, pq := [⟨nd.freq, 0⟩] } := by
  have hleaf : t.nleaf = 1 := by rw [h.nleaf, hl, List.length_singleton]
  have hlen : t.node.length = 1 := by rw [h.size, hleaf]
  have hnode : t.node = [nd] := by rw [← hl, ← h.take_leaves, List.take_of_length_le (by omega)]
  have hroot : t.root = 0 := by rw [h.root, hlen]
  obtain ⟨⟨f, i⟩, hk, rfl⟩ := h.single
  obtain ⟨⟨nk, hnk, hf⟩, -⟩ := (h.forest.members ⟨f, t.root⟩).1 (by simp [hk])
  have hfreq : nd.freq = f := by
    simp only [hnode, hroot, List.getElem?_cons_zero, Option.some.injEq] at hnk
    exact hnk ▸ hf
  have hpq : t.pq = [⟨nd.freq, 0⟩] := by rw [hk, hroot, hfreq]
  obtain ⟨node, nleaf, nnode, root, treev, pq⟩ := t
  rw [Built.mk.injEq]
  exact ⟨hnode, hleaf, h.nnode.trans hlen, hroot, h.treev, hpq⟩

/-- Settles O37: the leaves of the two maps are written out, and with them the tree that `BLD` installs. -/
theorem smallMapsBuild : Obligations.SmallMapsBuild := by
  refine ⟨fun s he hp hz => ?_, fun s a b c he hp hc hf => ?_⟩
  · rw [exec_bld_of_admitted he hp, buildTree_of_no_key (leafList_eq_nil_iff.2 hz)]
    rfl
  · have hl : leafList s.freq 0 = [leafNode c a] := hf ▸ leafList_of_one_key a b hc
    rw [exec_bld_of_admitted he hp, (buildTree_spec (hl ▸ List.cons_ne_nil _ _)).eq_of_one_leaf hl]
    rfl

end Sys2Proof.Machine

/-! The node reads (43_tree_builder.md R109 to R112). -/

namespace Sys2Proof.Machine

/-- An index at or above `NNODE` is refused (R109). -/
theorem withNode_of_le {x : Nat} {s : State} {use : Node → Outcome} (h : s.nnode ≤ x) :
    withNode x s use = refuse .range s := if_neg (Nat.not_lt.2 h)

/-- An index below `NNODE` reads its node (R109). -/
theorem withNode_of_some {x : Nat} {s : State} {nd : Node} {use : Node → Outcome} (hx : x < s.nnode)
    (hn : s.node[x]? = some nd) : withNode x s use = use nd := (if_pos hx).trans (readNode_of_some hn)

/-- Bit 31 of the datum of `RDNK` is the kind (R109). -/
theorem Node.kindSym_eq (nd : Node) :
    nd.kindSym = (if nd.kind = .internal then 0x80000000 else 0) ||| BitVec.ofNat 32 nd.sym := by
  rw [Node.kindSym, zext32]
  cases nd.kind <;> rfl

/-- Settles O39: each read is the check of the index and the one field. -/
theorem nodeReadsAnswerTheField : Obligations.NodeReadsAnswerTheField := by
  refine fun s x => ⟨fun hx => ?_, fun nd hx hn => ?_⟩
  · exact ⟨withNode_of_le hx, withNode_of_le hx, withNode_of_le hx, withNode_of_le hx⟩
  · rw [← nd.kindSym_eq]
    exact ⟨withNode_of_some hx hn, withNode_of_some hx hn, withNode_of_some hx hn, withNode_of_some hx hn⟩

end Sys2Proof.Machine

/-! Sessions up to `BLD`: `CLR`, the count pass and `BLD` as transactions, and why the order of the symbols is lost in
the counts (20_memory.md R51, 43_tree_builder.md R113). -/

namespace Sys2Proof.Machine

/-- The counts after one symbol more (R81). -/
def countIn (freq : List Nat) (x : Nat) : List Nat := freq.set x (freq.getD x 0 + 1)

/-- Two symbols may be counted in either order. -/
theorem countIn_comm (freq : List Nat) (x y : Nat) : countIn (countIn freq x) y = countIn (countIn freq y) x := by
  by_cases h : x = y
  · rw [h]
  · simp only [countIn, List.getD_eq_getElem?_getD, List.getElem?_set_ne h, List.getElem?_set_ne (Ne.symm h)]
    exact List.set_comm _ _ h

/-- The counts are those of the multiset of the symbols (R113). -/
theorem foldl_countIn_perm {xs ys : List Nat} (h : xs.Perm ys) (freq : List Nat) :
    xs.foldl countIn freq = ys.foldl countIn freq := by
  have : RightCommutative countIn := ⟨countIn_comm⟩
  exact h.foldl_eq freq

/-- What a count pass that runs to its end leaves: the counts, their sum, and one `OK` for each symbol. -/
def State.countAll (xs : List Nat) (s : State) : State :=
  { s with
    freq := xs.foldl countIn s.freq
    total := s.total + xs.length
    rspout := s.rspout ++ List.replicate xs.length ⟨.ok, 0⟩ }

/-- A pass over one symbol more starts with the `CNT` of it (R81). -/
theorem State.countAll_cons (s : State) (x : Nat) (xs : List Nat) :
    s.countAll (x :: xs) = State.countAll xs { s.countSymbol x with rspout := s.rspout ++ [⟨.ok, 0⟩] } := by
  simp [State.countAll, State.countSymbol, State.freqAt, countIn, List.replicate_succ, Nat.add_comm,
    Nat.add_left_comm]

/-- In an instance the word of a well-formed command decodes to the command (R60, R61). -/
theorem decode_encode_of_legal {p : Param} {i : Instr} (hl : p.legal = true) (hw : i.wellFormed p.symw = true) :
    decode p.symw (encode i) = .ok i :=
  decodeOfEncodeIsTheCommand p.symw i (Param.legal_iff.1 hl).2.1 hw

/-- The count pass: below `CNTMAX` every `CNT` counts its symbol (R81). -/
theorem runWords_countPass {xs : List Nat} {s : State} (hl : s.param.legal = true) (ho : s.out = [])
    (he : s.err = none) (hp : s.phase = .count) (hx : ∀ x ∈ xs, x < s.param.nsym)
    (hn : s.total + xs.length ≤ s.param.cntMax) :
    runWords (wordsOf (countPass xs)) s = .next (s.countAll xs) := by
  induction xs generalizing s with
  | nil => simp [countPass, wordsOf, runWords, State.countAll]
  | cons x xs ih =>
    obtain ⟨hx, hxs⟩ := List.forall_mem_cons.1 hx
    rw [List.length_cons] at hn
    obtain ⟨t, ht, hd⟩ := exec_cnt_ok ho hx he hp (by omega)
    have hw : (Instr.cnt x).wellFormed s.param.symw = true := decide_eq_true hx
    rw [countPass, List.map_cons, runWords_command (decode_encode_of_legal hl hw) ht hd, ← countPass,
      ih (s := { s.countSymbol x with rspout := s.rspout ++ [⟨.ok, 0⟩] }) hl ho he hp hxs
        (by simp only [State.countSymbol_total, State.countSymbol_param]; omega), State.countAll_cons]

/-- `CLR` as the first command of a run (R152). -/
theorem runWords_clr {s : State} {is : List Instr} (hl : s.param.legal = true) (ho : s.out = []) :
    runWords (wordsOf (.clr :: is)) s = runWords (wordsOf is) { s.clear with rspout := s.rspout ++ [⟨.ok, 0⟩] } :=
  runWords_command (decode_encode_of_legal hl rfl) rfl (State.deliver_rsp (s := s.clear) ho ⟨.ok, 0⟩)

/-- `BLD` as the first command of a run (R101). -/
theorem runWords_bld {s : State} {is : List Instr} (hl : s.param.legal = true) (ho : s.out = [])
    (he : s.err = none) (hp : s.phase = .count) :
    runWords (wordsOf (.bld :: is)) s = runWords (wordsOf is)
      { (s.installTree (buildTree s.freq)).setPhase .tree with
        rspout := s.rspout ++ [⟨.ok, zext32 (buildTree s.freq).nleaf⟩] } :=
  runWords_command (decode_encode_of_legal hl rfl) (exec_bld_of_admitted he hp)
    (State.deliver_rsp (s := (s.installTree (buildTree s.freq)).setPhase .tree) ho _)

/-- The counts of a session's count pass, in an instance (R81). -/
def countsOf (p : Param) (xs : List Nat) : List Nat := xs.foldl countIn (List.replicate p.nsym 0)

/-- A session up to `BLD`, from any state between commands, counts its symbols and builds the tree of the counts. -/
theorem session_builds {s : State} {xs : List Nat} (hl : s.param.legal = true) (ho : s.out = [])
    (hx : ∀ x ∈ xs, x < s.param.nsym) (hn : xs.length ≤ s.param.cntMax) :
    ∃ t, runWords (wordsOf ([.clr] ++ countPass xs ++ [.bld])) s = .next t ∧
      t.freq = countsOf s.param xs ∧ t.built = buildTree (countsOf s.param xs) := by
  have hcount := runWords_countPass (s := { s.clear with rspout := s.rspout ++ [⟨.ok, 0⟩] }) hl ho rfl rfl hx
    (by simpa using hn)
  rw [List.append_assoc, List.singleton_append, runWords_clr hl ho, runWords_commands hcount]
  exact ⟨_, runWords_bld hl ho rfl rfl, rfl, rfl⟩

/-- Settles O38: `BLD` installs a tree that takes nothing but `FREQ`, and permuted symbols leave the same `FREQ`. -/
theorem treeDependsOnlyOnTheCounts : Obligations.TreeDependsOnlyOnTheCounts := by
  refine ⟨fun s u t v hes heu hps hpu hf ht hv => ?_, fun s u xs ys hl hpar hos hou hx hn hperm => ?_⟩
  · cases ht.symm.trans (exec_bld_of_admitted hes hps)
    cases hv.symm.trans (exec_bld_of_admitted heu hpu)
    rw [hf]
    exact ⟨rfl, rfl⟩
  · have hcounts : countsOf u.param ys = countsOf s.param xs := by
      rw [hpar]
      exact foldl_countIn_perm hperm.symm _
    obtain ⟨t, ht, htf, htb⟩ := session_builds hl hos hx hn
    obtain ⟨v, hv, hvf, hvb⟩ := session_builds (s := u) (xs := ys) (hpar ▸ hl) hou
      (fun y hy => hpar ▸ hx y (hperm.mem_iff.2 hy)) (hpar ▸ hperm.length_eq ▸ hn)
    exact ⟨t, v, ht, hv, by rw [htf, hvf, hcounts], by rw [htb, hvb, hcounts]⟩

end Sys2Proof.Machine

/-! The commands `DRV` and `RDL`: their checks, their effect, and `DRV` on the two smallest trees (44_code_table.md R116
to R120). -/

namespace Sys2Proof.Machine

/-- `DRV` is admitted in `PH_TREE` alone (R151). -/
theorem admDrv_eq_true_iff {p : Phase} : admDrv p = true ↔ p = .tree := by
  cases p <;> simp [admDrv]

/-- Past its checks `DRV` installs the table it derives (R116). -/
theorem exec_drv_of_admitted {s : State} (he : s.err = none) (hp : s.phase = .tree) {tbl : List (Option Code)}
    (hd : deriveTable s.node s.root s.treev s.code = .ok tbl) :
    exec .drv s = .next (((s.installCode tbl).setPhase .code).send [.rsp ⟨.ok, zext32 s.nleaf⟩]) := by
  rw [exec, execDrv, ifAdmitted_of_ok he (admDrv_eq_true_iff.2 hp), hd]
  rfl

/-- Settles O42: the two checks in their order. -/
theorem drvIsRefusedOutsideItsPhase : Obligations.DrvIsRefusedOutsideItsPhase := by
  refine fun s => ⟨fun he => ?_, fun he hp => ?_⟩
  · rw [exec, execDrv, ifAdmitted_of_halted he, refuse_eq]
  · have ha : admDrv s.phase = false := Bool.eq_false_iff.2 (mt admDrv_eq_true_iff.1 hp)
    rw [exec, execDrv, ifAdmitted_of_order he ha, refuse_eq]

/-- With no tree `DRV` leaves the table it finds (R118). -/
theorem deriveTable_of_no_tree (node : List Node) (root : Nat) (tbl : List (Option Code)) :
    deriveTable node root false tbl = .ok tbl := rfl

/-- On a tree whose root is a leaf `DRV` writes the one code `1` (R117). -/
theorem deriveTable_of_leaf {node : List Node} {root : Nat} {rt : Node} (hn : node[root]? = some rt)
    (hk : rt.kind = .leaf) (tbl : List (Option Code)) :
    deriveTable node root true tbl = .ok (writeCode rt.sym [true] tbl) := by
  rw [deriveTable, if_pos rfl, hn]
  simp only [hk]

/-- A code written is the symbol's code (R116). -/
theorem writeCode_getD_self {x : Nat} {p : List Bool} {tbl : List (Option Code)} (hx : x < tbl.length) :
    (writeCode x p tbl).getD x none = some { clen := p.length, cbits := p } := by
  simp [writeCode, hx]

/-- It leaves the other symbols' codes alone (R116). -/
theorem writeCode_getD_of_ne {x y : Nat} {p : List Bool} {tbl : List (Option Code)} (hy : y ≠ x) :
    (writeCode x p tbl).getD y none = tbl.getD y none := by
  simp [writeCode, List.getElem?_set_ne hy.symm]

/-- Settles O41: with no tree the table found is installed again; the single leaf's code is the one entry written. -/
theorem drvOnSmallTrees : Obligations.DrvOnSmallTrees := by
  refine ⟨fun s he hp ht hl => ?_, fun s rt he hp ht hn hk hx => ?_⟩
  · have hd : deriveTable s.node s.root s.treev s.code = .ok s.code := ht ▸ deriveTable_of_no_tree _ _ _
    have hz : zext32 s.nleaf = 0 := congrArg zext32 hl
    rw [exec_drv_of_admitted he hp hd, hz]
    rfl
  · have hd : deriveTable s.node s.root s.treev s.code = .ok (writeCode rt.sym [true] s.code) :=
      ht ▸ deriveTable_of_leaf hn hk _
    exact ⟨_, exec_drv_of_admitted he hp hd, rfl, writeCode_getD_self hx, fun y hy => writeCode_getD_of_ne hy⟩

/-- Settles O45: `RDL` has the symbol check and no other, and reads one entry of the table. -/
theorem rdlReadsTheLength : Obligations.RdlReadsTheLength := by
  refine fun s x => ⟨fun hx => ?_, fun hx hc => ?_, fun c hx hc => ?_⟩
  · rw [exec, execRdl, withSymbol_of_not_lt hx, refuse_eq]
  · rw [exec, execRdl, withSymbol_of_lt hx, hc]
    rfl
  · rw [exec, execRdl, withSymbol_of_lt hx, hc]
    rfl

end Sys2Proof.Machine

/-! The derived table in the states of the block: which symbols have a code, why no code is the beginning of another, and
how long a code can be (44_code_table.md R116 to R123). -/

namespace Sys2Proof.Machine

/-- Below a leaf there is no path but the empty one. -/
theorem walkPath_of_leafAt {node : List Node} {i j x : Nat} {p : List Bool} (hl : LeafAt node i x)
    (hp : walkPath node i p = some j) : p = [] ∧ j = i := by
  cases p with
  | nil => exact ⟨rfl, by simpa [eq_comm] using hp⟩
  | cons b p =>
    obtain ⟨nd, hn, hk, -⟩ := hl
    obtain ⟨nd', hn', hk', -⟩ := walkPath_cons_some.1 hp
    cases hn.symm.trans hn'
    cases hk.symm.trans hk'

/-- A leaf has one symbol. -/
theorem LeafAt.sym_unique {node : List Node} {j x y : Nat} (hx : LeafAt node j x) (hy : LeafAt node j y) : x = y := by
  obtain ⟨nd, hn, -, rfl⟩ := hx
  obtain ⟨nd', hn', -, rfl⟩ := hy
  cases hn.symm.trans hn'
  rfl

/-- The symbols with a leaf are the keys of the map (R102). -/
theorem Inv.leafAt_iff {s : State} (h : Inv s) (ht : s.treev = true) (x : Nat) :
    (∃ j, LeafAt s.node j x) ↔ s.freqAt x ≠ 0 := (h.tree ht).leafAt_iff x

/-- The leaf of a single-leaf tree is its root (R106). -/
theorem Inv.leafAt_of_single {s : State} (h : Inv s) (ht : s.treev = true) (h1 : s.nleaf = 1) {j x : Nat}
    (hl : LeafAt s.node j x) : j = s.root := by
  have t := h.tree ht
  obtain ⟨nd, hn, hk, -⟩ := hl
  have hj : j < s.nleaf := (t.leaf_iff hn).1 hk
  have hsize : s.node.length = 2 * s.nleaf - 1 := t.size
  have hroot : s.root = s.node.length - 1 := t.root
  omega

/-- A derived table gives a code to exactly the symbols with a leaf (R116). -/
theorem Inv.has_code_iff {s : State} (h : Inv s) (ht : s.treev = true) {tbl : List (Option Code)}
    (hd : deriveTable s.node s.root s.treev (emptyTable s.param) = .ok tbl) (x : Nat) :
    (∃ c, tbl.getD x none = some c) ↔ ∃ j, LeafAt s.node j x := by
  rcases (h.codes (h.phase_of_treev ht) hd).resolve_left (by simp [ht]) with
    ⟨-, h1, rt, hrt, hk, hc⟩ | ⟨-, -, hc⟩
  · constructor
    · rintro ⟨c, hx⟩
      exact ⟨s.root, rt, hrt, hk, ((hc x c).1 hx).1.symm⟩
    · rintro ⟨j, hl⟩
      have hroot : LeafAt s.node s.root x := h.leafAt_of_single ht h1 hl ▸ hl
      exact ⟨_, (hc x _).2 ⟨hroot.sym_unique ⟨rt, hrt, hk, rfl⟩, rfl⟩⟩
  · constructor
    · rintro ⟨c, hx⟩
      obtain ⟨j, -, -, hl, -⟩ := (hc x c).1 hx
      exact ⟨j, hl⟩
    · rintro ⟨j, hl⟩
      have ⟨nd, hn, _⟩ := hl
      obtain ⟨q, hq⟩ := (h.tree ht).reach _ j (List.getElem?_eq_some_iff.1 hn).1 le_rfl
      exact ⟨_, (hc x _).2 ⟨j, q, hq, hl, rfl⟩⟩

/-- The symbols without a code are those that are no key of the map (R34). -/
theorem Inv.code_none_iff {s : State} (h : Inv s) (hp : s.phase ≠ .count) {tbl : List (Option Code)}
    (hd : deriveTable s.node s.root s.treev (emptyTable s.param) = .ok tbl) (x : Nat) :
    tbl.getD x none = none ↔ s.freqAt x = 0 := by
  cases ht : s.treev with
  | false =>
    obtain ⟨-, hno⟩ := (h.codes hp hd).resolve_right (by simp [ht])
    exact iff_of_true (hno x).1 (hno x).2
  | true =>
    rw [← not_iff_not, ← ne_eq, Option.ne_none_iff_exists', h.has_code_iff ht hd, h.leafAt_iff ht]

/-- Settles O40: `DRV` finds the empty table and leaves the derived one, in the shape its tree gives it. -/
theorem drvWritesEveryPath : Obligations.DrvWritesEveryPath := by
  intro s h he hp
  have hcount : s.phase ≠ .count := by simp [hp]
  obtain ⟨tbl, hd⟩ := h.derive
  have hexec := exec_drv_of_admitted he hp (h.beforeDerive (by simp [hp]) ▸ hd)
  refine ⟨_, hexec, rfl, fun x _ => h.code_none_iff hcount hd x, fun x c hx => ?_⟩
  change tbl.getD x none = some c at hx
  rcases h.codes hcount hd with ⟨-, hno⟩ | ⟨-, h1, rt, -, -, hc⟩ | ⟨-, h2, hc⟩
  · rw [(hno x).1] at hx
    cases hx
  · obtain ⟨-, rfl⟩ := (hc x c).1 hx
    exact ⟨rfl, fun _ => rfl, fun h2 => by omega⟩
  · obtain ⟨j, q, hq, ⟨nd, hl⟩, rfl⟩ := (hc x c).1 hx
    exact ⟨rfl, fun h1 => by omega, fun _ => ⟨j, nd, hq, hl⟩⟩

/-- Settles O43: the single leaf has the one code; else a code that goes on after another would be a path that goes on
below a leaf. -/
theorem codeTableIsPrefixFree : Obligations.CodeTableIsPrefixFree := by
  rintro s x y c d h hp hxy hx hy ⟨r, hr⟩
  rcases h.codes (by simp [hp]) (h.afterDerive hp) with ⟨-, hno⟩ | ⟨-, -, rt, -, -, hc⟩ | ⟨-, -, hc⟩
  · cases hx.symm.trans (hno x).1
  · exact hxy (((hc x c).1 hx).1.trans ((hc y d).1 hy).1.symm)
  · obtain ⟨i, p, hp, hi, rfl⟩ := (hc x c).1 hx
    obtain ⟨j, q, hq, hj, rfl⟩ := (hc y d).1 hy
    obtain rfl : p ++ r = q := hr
    obtain ⟨m, hm, hrest⟩ := walkPath_append.1 hq
    cases hp.symm.trans hm
    obtain ⟨-, rfl⟩ := walkPath_of_leafAt hi hrest
    exact hxy (hi.sym_unique hj)

/-- There are no more leaves than symbols (R102). -/
theorem Inv.nleaf_le {s : State} (h : Inv s) (hp : s.phase ≠ .count) : s.nleaf ≤ s.param.nsym := by
  calc s.nleaf = (buildTree s.freq).nleaf := congrArg Built.nleaf (h.afterBuild hp)
    _ = (s.freq.filter fun c => decide (c ≠ 0)).length := by rw [buildTree_nleaf, leafList_length]
    _ ≤ s.freq.length := List.length_filter_le _ _
    _ = s.param.nsym := h.freqLength

/-- The path from the root to a leaf, with two leaves or more, has at least one edge and passes at most the `NLEAF - 1`
internal nodes (R108). -/
theorem TreeOf.leaf_path_length {freq : List Nat} {t : Built} (h : TreeOf freq t) (h2 : 2 ≤ t.nleaf) {j x : Nat}
    {q : List Bool} (hq : walkPath t.node t.root q = some j) (hl : LeafAt t.node j x) :
    1 ≤ q.length ∧ q.length ≤ t.nleaf - 1 := by
  have hsize := h.size
  have hroot := h.root
  have hne : q ≠ [] := by
    rintro rfl
    obtain ⟨nd, hn, hk, -⟩ := hl
    have hj : j < t.nleaf := (h.leaf_iff hn).1 hk
    obtain rfl : t.root = j := by simpa using hq
    omega
  have hlen : q.length + t.nleaf ≤ t.root + 1 := (h.path_length hq).resolve_left hne
  exact ⟨List.length_pos_iff.2 hne, by omega⟩

/-- The bounds on a code length in a derived table (R123). -/
theorem Inv.clen_bounds {s : State} (h : Inv s) (hp : s.phase = .code) {x : Nat} {c : Code}
    (hx : s.codeAt x = some c) : 1 ≤ c.clen ∧ c.clen ≤ max 1 (s.nleaf - 1) := by
  rcases h.codes (by simp [hp]) (h.afterDerive hp) with ⟨-, hno⟩ | ⟨-, -, rt, -, -, hc⟩ | ⟨ht, h2, hc⟩
  · cases hx.symm.trans (hno x).1
  · obtain ⟨-, rfl⟩ := (hc x c).1 hx
    exact ⟨le_rfl, le_max_left _ _⟩
  · obtain ⟨j, q, hq, hl, rfl⟩ := (hc x c).1 hx
    obtain ⟨hlow, hhigh⟩ := (h.tree ht).leaf_path_length h2 hq hl
    exact ⟨hlow, le_max_of_le_right hhigh⟩

/-- From 1, 1, 2, 4 comes the tree whose internal nodes all have a leaf as one child (R123). -/
theorem deriveTable_of_degenerate_tree :
    deriveTable (buildTree [1, 1, 2, 4]).node (buildTree [1, 1, 2, 4]).root true [none, none, none, none] =
      .ok [some ⟨3, [true, true, false]⟩, some ⟨3, [true, true, true]⟩, some ⟨2, [true, false]⟩,
        some ⟨1, [false]⟩] := rfl

/-- Settles O44: paths are bounded by the number of leaves, and that by the number of symbols, at least 2 in an instance;
the tree of 1, 1, 2, 4 meets the bound. -/
theorem codeLengthsAreBounded : Obligations.CodeLengthsAreBounded := by
  refine ⟨fun s x c h hp hx => ?_, _, _, deriveTable_of_degenerate_tree, rfl, rfl, rfl⟩
  obtain ⟨hlow, hhigh⟩ := h.clen_bounds hp hx
  have hsymw : s.param.symw ≠ 0 := Nat.one_le_iff_ne_zero.1 (Param.legal_iff.1 h.legal).1
  have hnsym : 1 < s.param.nsym := Nat.one_lt_two_pow hsymw
  refine ⟨hlow, hhigh, max_le (Nat.le_sub_one_of_lt hnsym) ?_, Nat.sub_one_lt_of_lt (Nat.two_pow_pos _)⟩
  exact Nat.sub_le_sub_right (h.nleaf_le (by simp [hp])) 1

end Sys2Proof.Machine

/-! The encoder: what `ENC` answers, and the encode pass as transactions (45_encoder.md R126 to R130). -/

namespace Sys2Proof.Machine

/-- `ENC` is admitted in `PH_CODE` alone (R151). -/
theorem admEnc_eq_true_iff {p : Phase} : admEnc p = true ↔ p = .code := by
  cases p <;> simp [admEnc]

/-- Past its checks `ENC` raises `E_CONSIST` when the symbol has no code (R128). -/
theorem exec_enc_of_no_code {s : State} {x : Nat} (hx : x < s.param.nsym) (he : s.err = none)
    (hp : s.phase = .code) (hc : s.codeAt x = none) : exec (.enc x) s = raise .consist s := by
  rw [exec, execEnc, withSymbol_of_lt hx, ifAdmitted_of_ok he (admEnc_eq_true_iff.2 hp), hc]

/-- Past its checks `ENC` queues the bits of the symbol's code and answers their number (R126). -/
theorem exec_enc_of_code {s : State} {x : Nat} {c : Code} (hx : x < s.param.nsym) (he : s.err = none)
    (hp : s.phase = .code) (hc : s.codeAt x = some c) :
    exec (.enc x) s = .next (s.send (c.cbits.map Transfer.bit ++ [.rsp ⟨.ok, zext32 c.clen⟩])) := by
  rw [exec, execEnc, withSymbol_of_lt hx, ifAdmitted_of_ok he (admEnc_eq_true_iff.2 hp), hc]
  simp only [respond_eq, State.emitBits, send_send]

/-- Settles O46: the checks in their order, then the two cases of an admitted `ENC`. -/
theorem encEmitsTheCode : Obligations.EncEmitsTheCode := by
  refine fun s x => ⟨fun hx => ?_, fun hx he => ?_, fun hx he hp => ?_, fun hx he hp hc => ?_,
    fun c hx he hp hc => ?_⟩
  · rw [exec, execEnc, withSymbol_of_not_lt hx, refuse_eq]
  · rw [exec, execEnc, withSymbol_of_lt hx, ifAdmitted_of_halted he, refuse_eq]
  · have ha : admEnc s.phase = false := Bool.eq_false_iff.2 (mt admEnc_eq_true_iff.1 hp)
    rw [exec, execEnc, withSymbol_of_lt hx, ifAdmitted_of_order he ha, refuse_eq]
  · rw [exec_enc_of_no_code hx he hp hc, raise_eq, State.setErr, State.send]
  · rw [exec_enc_of_code hx he hp hc, State.send, List.append_assoc, zext32]

/-- `ENC` of a symbol with a code as the first command of a run: the host takes the code and the response (R51, R126). -/
theorem runWords_enc {s : State} {x : Nat} {c : Code} {is : List Instr} (hl : s.param.legal = true) (ho : s.out = [])
    (he : s.err = none) (hp : s.phase = .code) (hx : x < s.param.nsym) (hc : s.codeAt x = some c) :
    runWords (wordsOf (.enc x :: is)) s = runWords (wordsOf is)
      { s with bitout := s.bitout ++ c.cbits, rspout := s.rspout ++ [⟨.ok, zext32 c.clen⟩] } :=
  have hw : (Instr.enc x).wellFormed s.param.symw = true := decide_eq_true hx
  runWords_command (decode_encode_of_legal hl hw) (exec_enc_of_code hx he hp hc) (State.deliver_bits_rsp ho _ _)

/-- Settles O47, by induction on the symbols: each `ENC` adds to the two histories alone, so the rest of the pass meets
the same code table and the same phase. -/
theorem encodePassConcatenatesTheCodes : Obligations.EncodePassConcatenatesTheCodes := by
  intro s xs hl ho he hp hx
  induction xs generalizing s with
  | nil => simp [encodePass, wordsOf, runWords]
  | cons x xs ih =>
    obtain ⟨⟨hx, hcode⟩, hxs⟩ := List.forall_mem_cons.1 hx
    obtain ⟨c, hc⟩ := Option.ne_none_iff_exists'.1 hcode
    have hrest := ih { s with bitout := s.bitout ++ c.cbits, rspout := s.rspout ++ [⟨.ok, zext32 c.clen⟩] }
      hl ho he hp hxs
    rw [List.flatMap_cons, List.map_cons, hc, ← List.append_assoc, List.append_cons]
    exact (runWords_enc hl ho he hp hx hc).trans hrest

end Sys2Proof.Machine

/-! The decoder: what `DEC` and `FIN` answer (46_decoder.md R136 to R142). -/

namespace Sys2Proof.Machine

/-- `DEC` is admitted outside `PH_COUNT` (R151). -/
theorem admDec_eq_true_iff {p : Phase} : admDec p = true ↔ p ≠ .count := by
  cases p <;> simp [admDec]

/-- So is `FIN` (R151). -/
theorem admFin_eq_true_iff {p : Phase} : admFin p = true ↔ p ≠ .count := by
  cases p <;> simp [admFin]

/-- Settles O48: the two checks in their order. -/
theorem decIsRefusedOutsideItsPhases : Obligations.DecIsRefusedOutsideItsPhases := by
  refine fun s b => ⟨fun he => ?_, fun he hp => ?_⟩
  · rw [exec, execDec, ifAdmitted_of_halted he, refuse_eq]
  · have ha : admDec s.phase = false := Bool.eq_false_iff.2 fun h => admDec_eq_true_iff.1 h hp
    rw [exec, execDec, ifAdmitted_of_order he ha, refuse_eq]

/-- With no tree `DEC` answers `OK` and does nothing else (R140). -/
theorem exec_dec_of_no_tree {s : State} (b : Bool) (he : s.err = none) (hp : s.phase ≠ .count)
    (ht : s.treev = false) : exec (.dec b) s = .next (s.send [.rsp ⟨.ok, 0⟩]) := by
  rw [exec, execDec, ifAdmitted_of_ok he (admDec_eq_true_iff.2 hp), if_neg (Bool.eq_false_iff.1 ht), respond_eq]

/-- On a tree whose root is a leaf `DEC` emits that leaf's symbol (R139). -/
theorem exec_dec_of_leaf {s : State} {rt : Node} (b : Bool) (he : s.err = none) (hp : s.phase ≠ .count)
    (ht : s.treev = true) (hr : s.node[s.root]? = some rt) (hk : rt.kind = .leaf) :
    exec (.dec b) s = .next (s.send [.sym rt.sym, .rsp ⟨.ok, symbolData rt.sym⟩]) := by
  rw [exec, execDec, ifAdmitted_of_ok he (admDec_eq_true_iff.2 hp), if_pos ht, readNode_of_some hr, hk]
  simp only [respond_eq, State.emitSym, send_send, List.singleton_append]

/-- On a tree whose root is internal `DEC` descends (R136). -/
theorem exec_dec_of_internal {s : State} {rt : Node} (b : Bool) (he : s.err = none) (hp : s.phase ≠ .count)
    (ht : s.treev = true) (hr : s.node[s.root]? = some rt) (hk : rt.kind = .internal) :
    exec (.dec b) s = descend b s := by
  rw [exec, execDec, ifAdmitted_of_ok he (admDec_eq_true_iff.2 hp), if_pos ht, readNode_of_some hr, hk]

/-- A descent that lands on a leaf emits its symbol and is back at the root (R138). -/
theorem descend_of_leaf {s : State} {nd c : Node} {b : Bool} (hn : s.node[s.cur]? = some nd)
    (hc : s.node[nd.child b]? = some c) (hk : c.kind = .leaf) :
    descend b s = .next ((s.setCur s.root).send [.sym c.sym, .rsp ⟨.ok, symbolData c.sym⟩]) := by
  rw [descend, readNode_of_some hn, readNode_of_some hc, hk, State.send, List.append_cons]
  rfl

/-- A descent that lands on an internal node stays there (R137). -/
theorem descend_of_internal {s : State} {nd c : Node} {b : Bool} (hn : s.node[s.cur]? = some nd)
    (hc : s.node[nd.child b]? = some c) (hk : c.kind = .internal) :
    descend b s = .next ((s.setCur (nd.child b)).send [.rsp ⟨.ok, 0⟩]) := by
  rw [descend, readNode_of_some hn, readNode_of_some hc, hk]
  rfl

/-- Settles O49: no tree, and a root that is a leaf, are the two cases in which `DEC` does not descend. -/
theorem decOnSmallTrees : Obligations.DecOnSmallTrees := fun _ b he hp =>
  ⟨exec_dec_of_no_tree b he hp, fun _ => exec_dec_of_leaf b he hp⟩

/-- Settles O50: the two kinds of node a descent can land on. -/
theorem decDescendsOneEdge : Obligations.DecDescendsOneEdge := by
  intro s b rt nd c nxt he hp ht hr hkr hn hnxt hc
  obtain rfl : nxt = nd.child b := by
    cases b with
    | false | true => exact hnxt
  rw [exec_dec_of_internal b he hp ht hr hkr]
  exact ⟨descend_of_leaf hn hc, descend_of_internal hn hc⟩

/-- The decoder is mid-code when there is a tree and it is not at its root (R26). -/
theorem State.mid_eq_true_iff {s : State} : s.mid = true ↔ s.treev = true ∧ s.cur ≠ s.root := by
  simp [State.mid]

/-- Past its checks `FIN` answers `OK` unless the decoder is mid-code (R142). -/
theorem exec_fin_of_not_mid {s : State} (he : s.err = none) (hp : s.phase ≠ .count) (hm : ¬ s.mid = true) :
    exec .fin s = .next (s.send [.rsp ⟨.ok, 0⟩]) := by
  rw [exec, execFin, ifAdmitted_of_ok he (admFin_eq_true_iff.2 hp), if_neg hm, respond_eq]

/-- Settles O51: the two checks in their order, then the two cases of an admitted `FIN`. -/
theorem finDetectsTruncation : Obligations.FinDetectsTruncation := by
  refine fun s => ⟨fun he => ?_, fun he hp => ?_, fun he hp hm => ?_, fun he hp hm => ?_⟩
  · rw [exec, execFin, ifAdmitted_of_halted he, refuse_eq]
  · have ha : admFin s.phase = false := Bool.eq_false_iff.2 fun h => admFin_eq_true_iff.1 h hp
    rw [exec, execFin, ifAdmitted_of_order he ha, refuse_eq]
  · rw [exec, execFin, ifAdmitted_of_ok he (admFin_eq_true_iff.2 hp), if_pos (State.mid_eq_true_iff.2 hm), raise_eq]
    rfl
  · exact exec_fin_of_not_mid he hp (mt State.mid_eq_true_iff.1 hm)

end Sys2Proof.Machine

/-! Runs of commands that answer `OK` throughout, one response each, and a decode pass in a tree with an internal root
(20_memory.md R51, 46_decoder.md R145). -/

namespace Sys2Proof.Machine

/-- The commands run to the end, and each of them adds one `OK` response to the history. -/
def OkRun (is : List Instr) (s t : State) : Prop :=
  ∃ rs, runWords (wordsOf is) s = .next t ∧ t.rspout = s.rspout ++ rs ∧ rs.length = is.length ∧ allOk rs = true

theorem OkRun.nil (s : State) : OkRun [] s s := ⟨[], rfl, (List.append_nil _).symm, rfl, rfl⟩

theorem allOk_append (rs rs' : List Response) : allOk (rs ++ rs') = (allOk rs && allOk rs') := List.all_append

/-- A run goes on with a second run. -/
theorem OkRun.append {is js : List Instr} {s t u : State} (h : OkRun is s t) (h' : OkRun js t u) :
    OkRun (is ++ js) s u := by
  obtain ⟨rs, hr, ht, hlen, hok⟩ := h
  obtain ⟨rs', hr', hu, hlen', hok'⟩ := h'
  refine ⟨rs ++ rs', (runWords_commands hr).trans hr', ?_, ?_, ?_⟩
  · rw [hu, ht, List.append_assoc]
  · rw [List.length_append, List.length_append, hlen, hlen']
  · rw [allOk_append, hok, hok', Bool.and_self]

/-- One command that answers `OK`, with the delivery of its transfers (R51). -/
theorem OkRun.command {i : Instr} {s t u : State} {d : Word} (hl : s.param.legal = true)
    (hw : i.wellFormed s.param.symw = true) (hx : exec i s = .next t) (hu : t.deliver = u)
    (hr : u.rspout = s.rspout ++ [⟨.ok, d⟩]) : OkRun [i] s u :=
  ⟨[⟨.ok, d⟩], runWords_command (is := []) (decode_encode_of_legal hl hw) hx hu, hr, rfl, rfl⟩

/-- Delivery keeps the invariant and leaves no transfer pending. -/
theorem Inv.deliver {s : State} (h : Inv s) : Inv s.deliver ∧ s.deliver.out = [] := by
  rw [State.deliver_eq]
  exact ⟨{ h with output := .inl rfl }, rfl⟩

/-- So does a run of words, legal or not. -/
theorem runWords_keeps_inv {ws : List Word} {s t : State} (hs : Inv s) (ho : s.out = [])
    (h : runWords ws s = .next t) : Inv t ∧ t.out = [] := by
  induction ws generalizing s with
  | nil =>
    cases h
    exact ⟨hs, ho⟩
  | cons w ws ih =>
    obtain ⟨u, hu⟩ := hs.runWord_total w
    obtain ⟨hinv, hout⟩ := (runWord_keeps_inv hs ho hu).deliver
    have htrans : transact w s = .next u.deliver := by rw [transact, hu]
    exact ih hinv hout (runWords_cons htrans ▸ h)

theorem OkRun.inv {is : List Instr} {s t : State} (h : OkRun is s t) (hs : Inv s) (ho : s.out = []) : Inv t := by
  obtain ⟨-, hr, -⟩ := h
  exact (runWords_keeps_inv hs ho hr).1

/-- `DEC` and `FIN` pass their checks, and no transfer is pending (R151). -/
structure DecReady (s : State) : Prop where
  legal : s.param.legal = true
  out : s.out = []
  err : s.err = none
  phase : s.phase ≠ .count

/-- There is a tree, and its root is no leaf. -/
def InternalRoot (s : State) : Prop := s.treev = true ∧ ∃ rt, s.node[s.root]? = some rt ∧ rt.kind = .internal

/-- `CUR` and the histories play no part in the checks. -/
theorem DecReady.moved {s : State} (h : DecReady s) (j : Nat) (ys : List Nat) (rs : List Response) :
    DecReady { s with cur := j, symout := ys, rspout := rs } := { h with }

/-- One `DEC` with the delivery of its transfers, for the two kinds of node it can land on (R137, R138). -/
theorem DecReady.okRun_edge {s : State} (h : DecReady s) (hr : InternalRoot s) {nd c : Node} {b : Bool}
    (hn : s.node[s.cur]? = some nd) (hc : s.node[nd.child b]? = some c) :
    (c.kind = .leaf → OkRun [.dec b] s { s with
      cur := s.root, symout := s.symout ++ [c.sym], rspout := s.rspout ++ [⟨.ok, symbolData c.sym⟩] }) ∧
    (c.kind = .internal → OkRun [.dec b] s { s with
      cur := nd.child b, rspout := s.rspout ++ [⟨.ok, 0⟩] }) := by
  obtain ⟨ht, rt, hrt, hk⟩ := hr
  obtain ⟨t, hx, hleaf, hinternal⟩ := exec_dec_edge h.out h.err h.phase ht hrt hk hn hc
  exact ⟨fun hck => .command h.legal rfl hx (hleaf hck) rfl, fun hck => .command h.legal rfl hx (hinternal hck) rfl⟩

/-- In a state of the block whose tree has an internal root, `DEC` finds the edge it follows (R32, R136). -/
theorem DecReady.okRun_dec {s : State} (h : DecReady s) (hr : InternalRoot s) (hi : Inv s) (b : Bool) :
    ∃ j ys rs, OkRun [.dec b] s { s with cur := j, symout := ys, rspout := rs } := by
  have ⟨ht, _, hrt, hk⟩ := hr
  obtain ⟨nd, hn, hkn⟩ := hi.cur_internal ht hrt hk
  obtain ⟨c, hc⟩ := hi.child ht hn hkn b
  obtain ⟨hleaf, hinternal⟩ := h.okRun_edge hr hn hc
  cases hck : c.kind with
  | leaf => exact ⟨_, _, _, hleaf hck⟩
  | internal => exact ⟨_, _, _, hinternal hck⟩

/-- So it does for every bit of a stream, since each `DEC` leaves such a state again. -/
theorem DecReady.okRun_bits {s : State} (h : DecReady s) (hr : InternalRoot s) (hi : Inv s) (bits : List Bool) :
    ∃ j ys rs, OkRun (decodePass bits) s { s with cur := j, symout := ys, rspout := rs } := by
  induction bits generalizing s with
  | nil => exact ⟨_, _, _, .nil s⟩
  | cons b bits ih =>
    obtain ⟨j, ys, rs, hrun⟩ := h.okRun_dec hr hi b
    obtain ⟨j', ys', rs', hrest⟩ := ih (h.moved j ys rs) hr (hrun.inv hi h.out)
    exact ⟨j', ys', rs', hrun.append hrest⟩

/-- Settles O52: every bit names an edge, and after it the next one does. -/
theorem everyBitStringDecodes : Obligations.EveryBitStringDecodes := by
  intro s rt bits hi ho he ht hrt hk
  have hready : DecReady s := ⟨hi.legal, ho, he, hi.phase_of_treev ht⟩
  obtain ⟨j, ys, _, rs, hrun, rfl, hlen, hok⟩ := hready.okRun_bits ⟨ht, rt, hrt, hk⟩ hi bits
  exact ⟨_, rs, hrun, rfl, hlen.trans (List.length_map _), hok⟩

end Sys2Proof.Machine

/-! The decoder on the codes of the table: the path to a leaf gives the leaf's symbol and ends at the root, so the
concatenated codes of a stream give the stream (46_decoder.md R137 to R139, R146). -/

namespace Sys2Proof.Machine

/-- The path from `CUR` to a leaf, bit by bit: the edges above the last keep the rest of the path ahead of `CUR`, the
last one lands on the leaf (R138). -/
theorem DecReady.okRun_path {s : State} (h : DecReady s) (hr : InternalRoot s) {b : Bool} {q : List Bool} {j x : Nat}
    (hq : walkPath s.node s.cur (b :: q) = some j) (hl : LeafAt s.node j x) :
    ∃ rs, OkRun (decodePass (b :: q)) s { s with cur := s.root, symout := s.symout ++ [x], rspout := rs } := by
  induction q generalizing s b with
  | nil =>
    obtain ⟨nd, hn, -, hrest⟩ := walkPath_cons_some.1 hq
    obtain rfl : nd.child b = j := Option.some.inj hrest
    obtain ⟨c, hc, hck, rfl⟩ := hl
    exact ⟨_, (h.okRun_edge hr hn hc).1 hck⟩
  | cons b' q ih =>
    obtain ⟨nd, hn, -, hrest⟩ := walkPath_cons_some.1 hq
    obtain ⟨c, hc, hck, -⟩ := walkPath_cons_some.1 hrest
    obtain ⟨rs, hpath⟩ := ih (h.moved (nd.child b) s.symout (s.rspout ++ [⟨.ok, 0⟩])) hr hrest hl
    exact ⟨rs, ((h.okRun_edge hr hn hc).2 hck).append hpath⟩

/-- A state of the block that is ready for `DEC` and has the decoder at the root. -/
structure AtRoot (s : State) : Prop extends DecReady s where
  inv : Inv s
  cur : s.cur = s.root

/-- The histories play no part in it. -/
theorem AtRoot.histories {s : State} (h : AtRoot s) (bs : List Bool) (ys : List Nat) (rs : List Response) :
    AtRoot { s with bitout := bs, symout := ys, rspout := rs } := { h with inv := { h.inv with } }

/-- The code of a symbol, given to the decoder at the root, gives the symbol and ends at the root: the path to the leaf,
or the one bit of a single-leaf tree (R117, R139). -/
theorem AtRoot.okRun_code {s : State} (h : AtRoot s) {tbl : List (Option Code)}
    (hd : deriveTable s.node s.root s.treev (emptyTable s.param) = .ok tbl) {x : Nat} {c : Code}
    (hx : tbl.getD x none = some c) :
    ∃ rs, OkRun (decodePass c.cbits) s { s with symout := s.symout ++ [x], rspout := rs } := by
  rcases h.inv.codes h.phase hd with ⟨-, hno⟩ | ⟨ht, -, rt, hrt, hk, hc⟩ | ⟨ht, h2, hc⟩
  · cases hx.symm.trans (hno x).1
  · obtain ⟨rfl, rfl⟩ := (hc x c).1 hx
    exact ⟨_, .command h.legal rfl (exec_dec_of_leaf true h.err h.phase ht hrt hk)
      (State.deliver_sym_rsp h.out _ _) rfl⟩
  · obtain ⟨j, q, hq, hl, rfl⟩ := (hc x c).1 hx
    obtain ⟨hpos, -⟩ := (h.inv.tree ht).leaf_path_length h2 hq hl
    obtain ⟨b, q, rfl⟩ := List.exists_cons_of_length_pos hpos
    obtain ⟨rt, hrt, hk, -⟩ := walkPath_cons_some.1 hq
    obtain ⟨rs, hrun⟩ := h.okRun_path ⟨ht, rt, hrt, hk⟩ (h.cur ▸ hq) hl
    exact ⟨rs, by simpa only [h.cur] using hrun⟩

/-- The codes of a stream of symbols, one after the other (R127). -/
def streamBits (tbl : List (Option Code)) (xs : List Nat) : List Bool :=
  xs.flatMap fun x => ((tbl.getD x none).map Code.cbits).getD []

/-- The codes of a stream give the stream. -/
theorem AtRoot.okRun_stream {s : State} (h : AtRoot s) {tbl : List (Option Code)}
    (hd : deriveTable s.node s.root s.treev (emptyTable s.param) = .ok tbl) {xs : List Nat}
    (hxs : ∀ x ∈ xs, tbl.getD x none ≠ none) :
    ∃ rs, OkRun (decodePass (streamBits tbl xs)) s { s with symout := s.symout ++ xs, rspout := rs } := by
  induction xs generalizing s with
  | nil =>
    refine ⟨s.rspout, ?_⟩
    rw [List.append_nil]
    exact .nil s
  | cons x xs ih =>
    obtain ⟨hx, hxs⟩ := List.forall_mem_cons.1 hxs
    obtain ⟨c, hc⟩ := Option.ne_none_iff_exists'.1 hx
    obtain ⟨rs, hcode⟩ := h.okRun_code hd hc
    obtain ⟨rs', hrest⟩ := ih (h.histories s.bitout (s.symout ++ [x]) rs) hd hxs
    refine ⟨rs', ?_⟩
    rw [streamBits, List.flatMap_cons, hc, decodePass, List.map_append, List.append_cons]
    exact hcode.append hrest

/-- At the root `FIN` answers `OK` (R142). -/
theorem AtRoot.okRun_fin {s : State} (h : AtRoot s) :
    OkRun [.fin] s { s with rspout := s.rspout ++ [⟨.ok, 0⟩] } :=
  have hmid : ¬ s.mid = true := fun hm => (State.mid_eq_true_iff.1 hm).2 h.cur
  .command h.legal rfl (exec_fin_of_not_mid h.err h.phase hmid) (State.deliver_rsp h.out _) rfl

/-- The codes of a stream, then `FIN`. -/
theorem AtRoot.okRun_decode {s : State} (h : AtRoot s) {tbl : List (Option Code)}
    (hd : deriveTable s.node s.root s.treev (emptyTable s.param) = .ok tbl) {xs : List Nat}
    (hxs : ∀ x ∈ xs, tbl.getD x none ≠ none) :
    ∃ rs, OkRun (decodePass (streamBits tbl xs) ++ [.fin]) s { s with symout := s.symout ++ xs, rspout := rs } := by
  obtain ⟨rs, hrun⟩ := h.okRun_stream hd hxs
  exact ⟨_, hrun.append (h.histories s.bitout (s.symout ++ xs) rs).okRun_fin⟩

end Sys2Proof.Machine

/-! The round trip: what the compress sequence leaves, why an equal count gives the same code table, and the decode of
the bits in either session (70_reset_and_hazards.md R192, R193, 46_decoder.md R146). -/

namespace Sys2Proof.Machine

/-- Counting one symbol adds one to its own count alone (R81). -/
theorem getD_countIn {freq : List Nat} {x : Nat} (hx : x < freq.length) (y : Nat) :
    (countIn freq y).getD x 0 = freq.getD x 0 + if y == x then 1 else 0 := by
  by_cases hy : y = x
  · simp [countIn, hy, hx]
  · simp [countIn, hy]

/-- Counting a stream adds to a symbol's count the number of times the symbol stands in the stream. -/
theorem getD_foldl_countIn {freq : List Nat} {x : Nat} (hx : x < freq.length) (xs : List Nat) :
    (xs.foldl countIn freq).getD x 0 = freq.getD x 0 + xs.count x := by
  induction xs generalizing freq with
  | nil => rfl
  | cons y xs ih =>
    rw [List.foldl_cons, ih (by rwa [countIn, List.length_set]), getD_countIn hx y, List.count_cons]
    omega

/-- The decoder is at the root in a session begun in `s` that has counted `xs` and built its tree, and no symbol has
been emitted since. -/
structure SessionAtRoot (s : State) (xs : List Nat) (t : State) : Prop extends AtRoot t where
  param : t.param = s.param
  freq : t.freq = countsOf s.param xs
  symout : t.symout = s.symout

/-- Every symbol that was counted has a code (R34, R195). -/
theorem SessionAtRoot.has_code {s t : State} {xs : List Nat} (h : SessionAtRoot s xs t) {tbl : List (Option Code)}
    (hd : deriveTable t.node t.root t.treev (emptyTable t.param) = .ok tbl) {x : Nat} (hx : x ∈ xs)
    (hlt : x < s.param.nsym) : tbl.getD x none ≠ none := by
  have hcount : 0 < xs.count x := List.count_pos_iff.2 hx
  rw [ne_eq, h.inv.code_none_iff h.phase hd, State.freqAt, h.freq, countsOf,
    getD_foldl_countIn (by rwa [List.length_replicate])]
  omega

/-- Sessions of the same instance that counted the same multiset have the same code table (R113, R196). -/
theorem SessionAtRoot.deriveTable_eq {s t u v : State} {xs ys : List Nat} (h : SessionAtRoot s xs t)
    (h' : SessionAtRoot u ys v) (hp : u.param = s.param) (hperm : SameCounts xs ys) :
    deriveTable v.node v.root v.treev (emptyTable v.param) =
      deriveTable t.node t.root t.treev (emptyTable t.param) := by
  have hparam : v.param = t.param := (h'.param.trans hp).trans h.param.symm
  have hcounts : countsOf u.param ys = countsOf s.param xs := hp ▸ (foldl_countIn_perm hperm _).symm
  have hfreq : v.freq = t.freq := (h'.freq.trans hcounts).trans h.freq.symm
  have hbuilt : v.built = t.built := by
    rw [h'.inv.afterBuild h'.phase, h.inv.afterBuild h.phase, hfreq]
  change deriveTable v.built.node v.built.root v.built.treev _ = deriveTable t.built.node t.built.root t.built.treev _
  rw [hbuilt, hparam]

/-- `CLR` answers `OK` and leaves one of the block's states, whatever it found (R152). -/
theorem okRun_clr {s : State} (hl : s.param.legal = true) (ho : s.out = []) :
    OkRun [.clr] s { s.clear with rspout := s.rspout ++ [⟨.ok, 0⟩] } ∧
      Inv { s.clear with rspout := s.rspout ++ [⟨.ok, 0⟩] } :=
  ⟨.command hl rfl rfl (State.deliver_rsp (s := s.clear) ho _) rfl, { Inv.resetOf hl with output := .inl ho }⟩

theorem okRun_countPass {s : State} {xs : List Nat} (hl : s.param.legal = true) (ho : s.out = [])
    (he : s.err = none) (hp : s.phase = .count) (hx : ∀ x ∈ xs, x < s.param.nsym)
    (hn : s.total + xs.length ≤ s.param.cntMax) : OkRun (countPass xs) s (s.countAll xs) :=
  ⟨_, runWords_countPass hl ho he hp hx hn, rfl, by simp [countPass], by simp [allOk]⟩

theorem okRun_bld {s : State} (hl : s.param.legal = true) (ho : s.out = []) (he : s.err = none)
    (hp : s.phase = .count) :
    OkRun [.bld] s { (s.installTree (buildTree s.freq)).setPhase .tree with
      rspout := s.rspout ++ [⟨.ok, zext32 (buildTree s.freq).nleaf⟩] } :=
  ⟨_, runWords_bld (is := []) hl ho he hp, rfl, rfl, rfl⟩

/-- A session up to `BLD` from any state between commands. -/
theorem okRun_session {s : State} {xs : List Nat} (hl : s.param.legal = true) (ho : s.out = [])
    (hx : ∀ x ∈ xs, x < s.param.nsym) (hn : xs.length ≤ s.param.cntMax) :
    ∃ t, OkRun ([.clr] ++ countPass xs ++ [.bld]) s t ∧ SessionAtRoot s xs t ∧ t.phase = .tree ∧
      t.bitout = s.bitout := by
  obtain ⟨hclr, hinv⟩ := okRun_clr hl ho
  have hcount := okRun_countPass (s := { s.clear with rspout := s.rspout ++ [⟨.ok, 0⟩] }) hl ho rfl rfl hx
    ((Nat.zero_add _).trans_le hn)
  have hbld := okRun_bld (s := State.countAll xs { s.clear with rspout := s.rspout ++ [⟨.ok, 0⟩] }) hl ho rfl rfl
  have hbuilt := (hcount.append hbld).inv hinv ho
  exact ⟨_, (hclr.append hcount).append hbld, ⟨⟨⟨hl, ho, rfl, nofun⟩, hbuilt, rfl⟩, rfl, rfl, rfl⟩, rfl, rfl⟩

/-- `DRV` then writes the code table and moves to `PH_CODE` (R116). -/
theorem SessionAtRoot.okRun_drv {s t : State} {xs : List Nat} (h : SessionAtRoot s xs t) (hp : t.phase = .tree) :
    ∃ d, OkRun [.drv] t d ∧ SessionAtRoot s xs d ∧ d.phase = .code ∧ d.bitout = t.bitout := by
  obtain ⟨tbl, hd⟩ := h.inv.derive
  have hrun := OkRun.command h.legal rfl
    (exec_drv_of_admitted h.err hp (h.inv.beforeDerive (by simp [hp]) ▸ hd))
    (State.deliver_rsp (s := (t.installCode tbl).setPhase .code) h.out _) rfl
  have hderived := hrun.inv h.inv h.out
  exact ⟨_, hrun, ⟨⟨⟨h.legal, h.out, h.err, nofun⟩, hderived, h.cur⟩, h.param, h.freq, h.symout⟩, rfl, rfl⟩

/-- The encode pass over the stream that was counted, and `FIN`, deliver the codes of the stream (R127, R142). -/
theorem SessionAtRoot.okRun_encode {s d : State} {xs : List Nat} (h : SessionAtRoot s xs d) (hp : d.phase = .code)
    (hx : ∀ x ∈ xs, x < s.param.nsym) :
    ∃ t, OkRun (encodePass xs ++ [.fin]) d t ∧ SessionAtRoot s xs t ∧ t.phase = .code ∧
      t.bitout = d.bitout ++ streamBits t.code xs := by
  have hcodes : ∀ x ∈ xs, x < d.param.nsym ∧ d.codeAt x ≠ none := fun x hmem =>
    ⟨h.param ▸ hx x hmem, h.has_code (h.inv.afterDerive hp) hmem (hx x hmem)⟩
  have hrun : OkRun (encodePass xs) d _ :=
    ⟨_, encodePassConcatenatesTheCodes d xs h.legal h.out h.err hp hcodes, rfl, by simp [encodePass], by simp [allOk]⟩
  have hroot := h.histories (d.bitout ++ streamBits d.code xs) d.symout
  exact ⟨_, hrun.append (hroot _).okRun_fin, ⟨hroot _, h.param, h.freq, h.symout⟩, hp, rfl⟩

/-- The compress sequence from any state between commands (R192). -/
theorem okRun_compress {s : State} {xs : List Nat} (hl : s.param.legal = true) (ho : s.out = [])
    (hx : ∀ x ∈ xs, x < s.param.nsym) (hn : xs.length ≤ s.param.cntMax) :
    ∃ t, OkRun (compressSeq xs) s t ∧ SessionAtRoot s xs t ∧ t.phase = .code ∧
      t.bitout = s.bitout ++ streamBits t.code xs := by
  obtain ⟨b, hsession, hb, hphase, hbits⟩ := okRun_session hl ho hx hn
  obtain ⟨d, hdrv, hd, hphase, hbits'⟩ := hb.okRun_drv hphase
  obtain ⟨t, hencode, ht, hphase, hbits''⟩ := hd.okRun_encode hphase hx
  have hseq : compressSeq xs = [.clr] ++ countPass xs ++ [.bld] ++ [.drv] ++ (encodePass xs ++ [.fin]) := by
    simp [compressSeq]
  exact ⟨t, hseq ▸ (hsession.append hdrv).append hencode, ht, hphase, by rw [hbits'', hbits', hbits]⟩

/-- A run that answers `OK` throughout and ends with a `FIN` is over, and good (00_scope.md R12). -/
theorem OkRun.goodEnd {is : List Instr} {s t : State} (h : OkRun (is ++ [.fin]) s t) :
    GoodEnd (wordsOf (is ++ [.fin])) s t := by
  obtain ⟨rs, hr, ht, hlen, hok⟩ := h
  have hne : rs ≠ [] := by
    rintro rfl
    simp at hlen
  have hlast := List.all_eq_true.1 hok _ (List.getLast_mem hne)
  refine ⟨hr, by simp [wordsOf], ?_⟩
  rw [ht, List.getLast?_append_of_ne_nil _ hne, List.getLast?_eq_some_getLast hne, Option.map_some,
    of_decide_eq_true hlast]

/-- Settles O53: both decoders stand at the root of a tree with the code table the bits were written with. -/
theorem decodeOfEncodeIsTheStream : Obligations.DecodeOfEncodeIsTheStream := by
  intro s u xs ref hl hpar hos hou hx hn hperm
  obtain ⟨t, hcompress, ht, hphase, hbits⟩ := okRun_compress hl hos hx hn
  obtain ⟨b, hsession, hb, -⟩ := okRun_session (s := u) (xs := ref) (hpar ▸ hl) hou
    (fun x hmem => hpar ▸ hx x (hperm.mem_iff.2 hmem)) (hpar ▸ hperm.length_eq ▸ hn)
  have hd := ht.inv.afterDerive hphase
  have hcodes : ∀ x ∈ xs, t.code.getD x none ≠ none := fun x hmem => ht.has_code hd hmem (hx x hmem)
  obtain ⟨_, hdecode⟩ := hb.okRun_decode ((ht.deriveTable_eq hb hpar hperm).trans hd) hcodes
  obtain ⟨_, hagain⟩ := ht.okRun_decode hd hcodes
  have hexpand := hsession.append hdecode
  rw [← List.append_assoc] at hexpand
  have ⟨rs, _, hrs, _, hok⟩ := hcompress
  have ⟨rs', _, hrs', _, hok'⟩ := hexpand
  have ⟨rs'', _, hrs'', _, hok''⟩ := hagain
  exact ⟨t, _, _, _, rs, rs', rs'', hcompress.goodEnd, hbits, ht.symout, hrs, hok,
    hexpand.goodEnd, congrArg (· ++ xs) hb.symout, hrs', hok', hagain.goodEnd, rfl, hrs'', hok''⟩

end Sys2Proof.Machine

/-! `ABT` and `RDS`: the status word and the parameter word as sums, and what the two commands answer (47_system.md
R153, R154, 10_state.md R29 to R31). -/

namespace Sys2Proof.Machine

/-- Settles O54: the halted check turns `ABT` away, and no phase does. -/
theorem abtRaisesIo : Obligations.AbtRaisesIo := by
  refine fun s => ⟨fun he => ?_, fun he => ?_⟩
  · have ha : admAbt s.phase = true := by cases s.phase <;> rfl
    rw [exec, execAbt, ifAdmitted_of_ok he ha, raise_eq]
    rfl
  · rw [exec, execAbt, ifAdmitted_of_halted he, refuse_eq]

/-- Joining a number below `2 ^ k` to a number shifted by `k` places is their sum. -/
theorem shiftLeft_or_ofNat {k b : Nat} (hb : b < 2 ^ k) (a : Nat) :
    (BitVec.ofNat 32 a <<< k) ||| BitVec.ofNat 32 b = BitVec.ofNat 32 (2 ^ k * a + b) := by
  have hshift : BitVec.ofNat 32 a <<< k = BitVec.ofNat 32 (a <<< k) := by
    apply BitVec.eq_of_toNat_eq
    simp [Nat.shiftLeft_eq]
  rw [hshift, ← BitVec.ofNat_or, ← Nat.shiftLeft_add_eq_or_of_lt hb, Nat.shiftLeft_eq, Nat.mul_comm]

/-- The fields of `STATUS` do not overlap, so the word is their weighted sum (R29). -/
theorem State.status_eq (s : State) :
    s.status = BitVec.ofNat 32
      (16 * (errBits s.err).toNat + 8 * s.mid.toNat + 4 * s.treev.toNat + s.phase.bits.toNat) := by
  have hphase : s.phase.bits.toNat < 4 := s.phase.bits.isLt
  have htreev := Bool.toNat_lt s.treev
  have hmid := Bool.toNat_lt s.mid
  simp only [State.status, ← BitVec.ofNat_toNat, BitVec.toNat_ofBool, BitVec.or_assoc]
  rw [shiftLeft_or_ofNat (k := 2) hphase, shiftLeft_or_ofNat (k := 3) (by omega),
    shiftLeft_or_ofNat (k := 4) (by omega)]
  simp only [Nat.reducePow, Nat.add_assoc]

/-- `SYMW` is at most 16 and so stays below `CNTW` in `PARAM` (R31). -/
theorem State.paramWord_eq {s : State} (h : s.param.legal = true) :
    s.paramWord = BitVec.ofNat 32 (256 * s.param.cntw + s.param.symw) := by
  obtain ⟨-, hsymw, -⟩ := Param.legal_iff.1 h
  exact shiftLeft_or_ofNat (k := 8) (by omega) s.param.cntw

/-- `RDS 0` answers the weighted sum of the fields of `STATUS`, whatever way their values are written (R29, R154). -/
theorem exec_rds_zero {s : State} {e m t p : Nat} (he : (errBits s.err).toNat = e) (hm : s.mid.toNat = m)
    (ht : s.treev.toNat = t) (hp : s.phase.bits.toNat = p) :
    exec (.rds 0) s = .next (s.send [.rsp ⟨.ok, BitVec.ofNat 32 (16 * e + 8 * m + 4 * t + p)⟩]) := by
  subst he hm ht hp
  rw [← State.status_eq]
  rfl

/-- `RDS` above 6 names no register (R154). -/
theorem exec_rds_of_gt {s : State} {x : Nat} (hx : 6 < x) :
    exec (.rds x) s = .next (s.send [.rsp ⟨.refusal .range, 0⟩]) := by
  rw [exec, execRds, (statusReg_none_iff s x).2 hx]
  rfl

/-- Settles O55: registers 1 to 5 are elements of the state, and the words of registers 0 and 6 are the sums above. -/
theorem rdsReadsTheStatusRegisters : Obligations.RdsReadsTheStatusRegisters := by
  refine fun s => ⟨exec_rds_zero ?_ ?_ (Bool.cond_eq_ite _ 1 0) ?_, rfl, rfl, rfl, rfl, rfl, fun hl => ?_,
    fun x hx => exec_rds_of_gt hx⟩
  · rcases s.err with _ | _ | _ | _ | _ <;> rfl
  · rw [Bool.toNat, Bool.cond_eq_ite, if_congr State.mid_eq_true_iff rfl rfl]
  · cases s.phase <;> rfl
  · rw [← State.paramWord_eq hl]
    rfl

end Sys2Proof.Machine

/-! The admission rules: which command moves `PHASE`, which phase turns a command away, and what a halted block still
does (47_system.md R150, R151, R155). -/

namespace Sys2Proof.Machine

/-- `PHASE` is written by `BLD`, `DRV` and `CLR` alone (R150). -/
theorem BlockUpdate.phase_moves {i : Instr} {s u : State} (h : BlockUpdate s i u) (hp : u.phase ≠ s.phase) :
    (i = .bld ∧ s.phase = .count ∧ u.phase = .tree) ∨ (i = .drv ∧ s.phase = .tree ∧ u.phase = .code) ∨
      (i = .clr ∧ u.phase = .count) := by
  cases h with
  | keep | error | count | walk => exact absurd rfl hp
  | clear => exact .inr (.inr ⟨rfl, rfl⟩)
  | build hc => exact .inl ⟨rfl, hc, rfl⟩
  | derive ht => exact .inr (.inl ⟨rfl, ht, rfl⟩)

/-- A command that moves `PHASE` answers `OK`: a refusal and a fatal error leave it alone (R175, R176). -/
theorem exec_ok_of_phase_ne {i : Instr} {s t : State} (h : exec i s = .next t) (hp : t.phase ≠ s.phase) :
    t.lastRc = some .ok := by
  rcases exec_cases h with ⟨r, -, rfl⟩ | ⟨e, -, rfl⟩ | h
  · exact absurd rfl hp
  · exact absurd rfl hp
  · exact h.answers.lastRc

/-- Settles O22: the update says which command moves `PHASE` and from where, and each fatal error names the command
that raises it. -/
theorem phaseMovesOnlyForward : Obligations.PhaseMovesOnlyForward := by
  refine fun i s t h => ⟨fun hp => ?_, fun hi e he => ?_⟩
  · have hok := exec_ok_of_phase_ne h hp
    obtain ⟨u, ts, hu, -, rfl⟩ := exec_update h
    rcases hu.phase_moves hp with ⟨hi, hs, ht⟩ | ⟨hi, hs, ht⟩ | ⟨hi, ht⟩
    · exact .inl ⟨hi, hs, ht, hok⟩
    · exact .inr (.inl ⟨hi, hs, ht, hok⟩)
    · exact .inr (.inr ⟨hi, ht, hok⟩)
  · have hraised := (raisesError_of_lastRc h he).raisedBy
    rcases hi with rfl | rfl <;> cases e <;> simp [Fatal.raisedBy] at hraised

/-- A command behind a phase check that is its row of the table. -/
theorem exec_of_row {i : Instr} {s : State} {adm : Phase → Bool} {run : Outcome}
    (hrow : ∀ p, adm p = admissionTable i p) (hx : exec i s = ifAdmitted adm s run) :
    ∃ run, exec i s = ifAdmitted (admissionTable i) s run :=
  ⟨run, funext hrow ▸ hx⟩

/-- A legal working command is its operation behind the halted check and its row of the table (R151, R155). -/
theorem exec_of_work {i : Instr} {s : State} (hi : isWork i = true) (hw : i.wellFormed s.param.symw = true) :
    ∃ run, exec i s = ifAdmitted (admissionTable i) s run := by
  cases i with
  | clr | rds | rdf | rdl | rdnk | rdnf | rdnl | rdnr => cases hi
  | cnt x => exact exec_of_row (adm := admCnt) (by rintro (_ | _ | _) <;> rfl) (withSymbol_of_lt (of_decide_eq_true hw))
  | enc x => exact exec_of_row (adm := admEnc) (by rintro (_ | _ | _) <;> rfl) (withSymbol_of_lt (of_decide_eq_true hw))
  | bld | drv | dec | fin | abt => exact exec_of_row (by rintro (_ | _ | _) <;> rfl) rfl

/-- The table turns away working commands alone (R151). -/
theorem isWork_of_not_admitted {i : Instr} {p : Phase} (h : admissionTable i p = false) : isWork i = true := by
  cases i with
  | clr | rds | rdf | rdl | rdnk | rdnf | rdnl | rdnr => cases h
  | cnt | bld | drv | enc | dec | fin | abt => rfl

/-- Only reads have an index that can name nothing (R172). -/
theorem isRead_of_outOfRange {s : State} {i : Instr} (h : outOfRange s i = true) : isRead i = true := by
  cases i with
  | clr | cnt | bld | drv | enc | dec | fin | abt | rdf | rdl => cases h
  | rds | rdnk | rdnf | rdnl | rdnr => rfl

/-- Settles O24: the phase check is the table, and past it the range check of the reads is the one check left. -/
theorem admissionTableHolds : Obligations.AdmissionTableHolds := by
  refine fun i s hw he => ⟨fun ha => ?_, fun ha t r h hr => ?_⟩
  · obtain ⟨run, hrun⟩ := exec_of_work (isWork_of_not_admitted ha) hw
    rw [hrun, ifAdmitted_of_order he ha, refuse_eq]
  · have hrefused := refusedWith_of_lastRc h hr
    cases r with
    | illegal => exact absurd (hw.symm.trans hrefused) nofun
    | order =>
      obtain ⟨-, -, hrow⟩ := hrefused
      exact absurd (ha.symm.trans hrow) nofun
    | halted =>
      obtain ⟨-, hhalted⟩ := hrefused
      exact absurd he hhalted
    | range => exact ⟨rfl, isRead_of_outOfRange hrefused⟩

/-- A read by symbol answers the same datum whatever `ERR` is. -/
theorem withSymbol_with_err {x : Nat} {s t : State} {d : Word} (e : Option Fatal)
    (h : withSymbol x s (respond .ok d s) = .next t) :
    withSymbol x { s with err := e } (respond .ok d { s with err := e }) = .next { t with err := e } := by
  rcases withSymbol_next h with ⟨hx, rfl⟩ | ⟨hx, h⟩
  · exact withSymbol_of_not_lt hx
  · cases h
    exact withSymbol_of_lt hx

/-- So does a read of a node. -/
theorem withNode_with_err {x : Nat} {s t : State} {d : Node → Word} (e : Option Fatal)
    (h : withNode x s (fun nd => respond .ok (d nd) s) = .next t) :
    withNode x { s with err := e } (fun nd => respond .ok (d nd) { s with err := e }) =
      .next { t with err := e } := by
  rcases withNode_next h with ⟨hx, rfl⟩ | ⟨hx, nd, hn, h⟩
  · exact withNode_of_le hx
  · cases h
    exact withNode_of_some hx hn

/-- Of the status registers `STATUS` alone shows `ERR` (R30). -/
theorem statusReg_with_err (s : State) (e : Option Fatal) {x : Nat} (hx : x ≠ 0) :
    State.statusReg { s with err := e } x = s.statusReg x := by
  unfold State.statusReg
  split
  · exact absurd rfl hx
  all_goals rfl

/-- `RDS` of another register answers the same too. -/
theorem exec_rds_with_err {x : Nat} {s t : State} (e : Option Fatal) (hx : x ≠ 0) (h : exec (.rds x) s = .next t) :
    exec (.rds x) { s with err := e } = .next { t with err := e } := by
  rw [exec, execRds] at h ⊢
  rw [statusReg_with_err s e hx]
  cases hv : s.statusReg x with
  | some v | none =>
    rw [hv] at h
    cases h
    rfl

/-- `RDL` has the symbol check, and its datum is read from the table alone (R120). -/
theorem exec_rdl_eq (x : Nat) (s : State) :
    exec (.rdl x) s = withSymbol x s (respond .ok ((s.codeAt x).elim 0 fun c => zext32 c.clen) s) := by
  rw [exec, execRdl]
  cases s.codeAt x <;> rfl

/-- Every read but `RDS 0` answers the same whatever `ERR` is, and leaves it alone (R155). -/
theorem exec_read_with_err {i : Instr} {s t : State} (e : Option Fatal) (hi : isRead i = true) (h0 : i ≠ .rds 0)
    (h : exec i s = .next t) : exec i { s with err := e } = .next { t with err := e } := by
  cases i with
  | clr | cnt | bld | drv | enc | dec | fin | abt => cases hi
  | rds x => exact exec_rds_with_err e (mt (congrArg Instr.rds) h0) h
  | rdf x => exact withSymbol_with_err e h
  | rdl x =>
    rw [exec_rdl_eq] at h ⊢
    exact withSymbol_with_err e h
  | rdnk x | rdnf x | rdnl x | rdnr x => exact withNode_with_err e h

/-- Settles O25: the halted check stands before the phase check of the working commands, and no other command has it. -/
theorem haltedAdmission : Obligations.HaltedAdmission := by
  refine fun i s hw he => ⟨fun hi => ?_, fun hi t h hr => ?_, ?_, fun hi h0 t h => ?_⟩
  · obtain ⟨run, hrun⟩ := exec_of_work hi hw
    rw [hrun, ifAdmitted_of_halted he, refuse_eq]
  · obtain ⟨hwork, -⟩ := refusedWith_of_lastRc h hr
    exact absurd (hi.symm.trans hwork) nofun
  · rintro rfl
    rfl
  · exact exec_read_with_err (s := { s with err := none }) s.err hi h0 h

end Sys2Proof.Machine

/-! What a refusal and a fatal error leave unchanged, and what a halted block keeps (60_exceptions.md R175, R176,
R178). -/

namespace Sys2Proof.Machine

/-- Settles O19: of the three kinds of answer only a refusal carries a reason, and it only queues its response. -/
theorem refusalChangesNothing : Obligations.RefusalChangesNothing := by
  intro i s t r h hr
  rcases exec_cases h with ⟨r', -, rfl⟩ | ⟨e, -, rfl⟩ | hok
  · cases (lastRc_send_rsp s _).symm.trans hr
    rfl
  · cases (lastRc_send_rsp _ _).symm.trans hr
  · cases hok.answers.lastRc.symm.trans hr

/-- Settles O20: of the three kinds of answer only a fatal error carries an error, and it only writes `ERR` and queues
its response. -/
theorem fatalErrorChangesOnlyErr : Obligations.FatalErrorChangesOnlyErr := by
  intro i s t e h he
  rcases exec_cases h with ⟨r, -, rfl⟩ | ⟨e', -, rfl⟩ | hok
  · cases (lastRc_send_rsp s _).symm.trans he
  · cases (lastRc_send_rsp _ _).symm.trans he
    exact ⟨rfl, rfl⟩
  · cases hok.answers.lastRc.symm.trans he

/-- No check of R174 after that of the word applies to the command. -/
structure PassesChecks (s : State) (i : Instr) : Prop where
  notHalted : isWork i = true → s.err = none
  inOrder : admissionTable i s.phase = true
  inRange : outOfRange s i = false
  noFatal : fatalCondition s i = none

/-- A command has its own effect only where every check passes (R174). -/
theorem OkEffect.passesChecks {i : Instr} {s t : State} (h : OkEffect s t i) : PassesChecks s i := by
  have hdecoding (hp : s.phase ≠ .count) : decide (s.phase = .tree ∨ s.phase = .code) = true := by
    cases hs : s.phase <;> simp_all
  cases i with
  | clr => exact ⟨nofun, rfl, rfl, rfl⟩
  | cnt x =>
    obtain ⟨-, he, hp, ht, -⟩ := h
    exact ⟨fun _ => he, decide_eq_true hp, rfl, if_neg ht⟩
  | bld | drv =>
    obtain ⟨he, hp, -⟩ := h
    exact ⟨fun _ => he, decide_eq_true hp, rfl, rfl⟩
  | enc x =>
    obtain ⟨-, he, hp, c, hc, -⟩ := h
    exact ⟨fun _ => he, decide_eq_true hp, rfl, if_neg (by simp [hc])⟩
  | dec b =>
    obtain ⟨he, hp, -⟩ := h
    exact ⟨fun _ => he, hdecoding hp, rfl, rfl⟩
  | fin =>
    obtain ⟨he, hp, hm, -⟩ := h
    exact ⟨fun _ => he, hdecoding hp, rfl, if_neg (mt State.mid_eq_true_iff.2 (by simp [hm]))⟩
  | abt => exact h.elim
  | rds x =>
    obtain ⟨v, hv, -⟩ := h
    exact ⟨nofun, rfl, decide_eq_false (mt (statusReg_none_iff s x).2 (by simp [hv])), rfl⟩
  | rdf x | rdl x => exact ⟨nofun, rfl, rfl, rfl⟩
  | rdnk x | rdnf x | rdnl x | rdnr x => exact ⟨nofun, rfl, decide_eq_false (Nat.not_le.2 h.1), rfl⟩

/-- The commands are the working ones, the reads, and `CLR` (R155, R181). -/
theorem isRead_of_not_isWork {i : Instr} (hw : ¬ isWork i = true) (hc : i ≠ .clr) : isRead i = true := by
  simpa [isWork, hc] using hw

/-- No command but `CLR` writes `ERR` while the block is halted: a working one is turned away, and a read changes
nothing (R155, R181). -/
theorem exec_err_of_halted {i : Instr} {s t : State} (he : s.err ≠ none) (hc : i ≠ .clr) (h : exec i s = .next t) :
    t.err = s.err := by
  rcases exec_cases h with ⟨r, -, rfl⟩ | ⟨e, ⟨-, hnone, -⟩, -⟩ | hok
  · rfl
  · exact absurd hnone he
  · have hread : isRead i = true := isRead_of_not_isWork (fun hw => he (hok.passesChecks.notHalted hw)) hc
    obtain ⟨r, rfl, -⟩ := readsChangeNothing i s t hread h
    rfl

/-- Settles O21: a fatal error is raised with `ERR = 0` only, and the halted check turns the working commands away. -/
theorem firstErrorIsKept : Obligations.FirstErrorIsKept := by
  refine fun i s t he hc h => ⟨exec_err_of_halted he hc h, fun e hr => ?_, fun hi hw => ?_,
    fun r => refusalChangesNothing i s t r h⟩
  · obtain ⟨-, hnone, -⟩ := raisesError_of_lastRc h hr
    exact he hnone
  · obtain ⟨hhalted, -⟩ := haltedAdmission i s hw he
    cases h.symm.trans (hhalted hi)
    exact lastRc_send_rsp s _

end Sys2Proof.Machine

/-! The fixed order of the checks: a command answers the first that applies (60_exceptions.md R174). -/

namespace Sys2Proof.Machine

/-- The code of the first check of a decoded command that applies, in the order of R174, or `OK`. -/
def firstCheck (s : State) (i : Instr) : Rc :=
  if isWork i = true ∧ s.err ≠ none then .refusal .halted
  else if admissionTable i s.phase = false then .refusal .order
  else if outOfRange s i = true then .refusal .range
  else match fatalCondition s i with
    | some e => .error e
    | none => .ok

/-- Past the halted check, the phase check and the range check a command answers its fatal condition, or `OK`. -/
theorem firstCheck_of_admitted {s : State} {i : Instr} (he : isWork i = true → s.err = none)
    (ha : admissionTable i s.phase = true) (hr : outOfRange s i = false) :
    firstCheck s i = (fatalCondition s i).elim .ok .error := by
  have hnot : ¬ (isWork i = true ∧ s.err ≠ none) := fun ⟨hw, hne⟩ => hne (he hw)
  rw [firstCheck, if_neg hnot, if_neg (by simp [ha]), if_neg (by simp [hr])]
  cases fatalCondition s i <;> rfl

/-- The working commands have no range check (R171, R172). -/
theorem not_isWork_of_outOfRange {s : State} {i : Instr} (h : outOfRange s i = true) : ¬ isWork i = true := by
  simp [isWork, isRead_of_outOfRange h]

/-- A legal command is refused with the reason of the first check that applies. -/
theorem RefusedWith.firstCheck_eq {s : State} {i : Instr} {r : Reason} (hw : i.wellFormed s.param.symw = true)
    (h : RefusedWith s i r) : firstCheck s i = .refusal r := by
  cases r with
  | illegal => exact absurd (hw.symm.trans h) nofun
  | halted => exact if_pos h
  | order =>
    obtain ⟨-, he, ha⟩ := h
    rw [firstCheck, if_neg (fun hhalted => hhalted.2 he), if_pos ha]
  | range =>
    have hwork : ¬ isWork i = true := not_isWork_of_outOfRange h
    have hadm : ¬ admissionTable i s.phase = false := mt isWork_of_not_admitted hwork
    rw [firstCheck, if_neg (fun hhalted => hwork hhalted.1), if_neg hadm]
    exact if_pos h

/-- A fatal error is raised where no check before it applies. -/
theorem RaisesError.firstCheck_eq {s : State} {i : Instr} {e : Fatal} (h : RaisesError s i e) :
    firstCheck s i = .error e := by
  obtain ⟨hw, he, ha, hf⟩ := h
  have hr : outOfRange s i = false := Bool.eq_false_iff.2 fun hr => not_isWork_of_outOfRange hr hw
  rw [firstCheck_of_admitted (fun _ => he) ha hr, hf, Option.elim_some]

/-- Where no check applies the code is `OK`. -/
theorem PassesChecks.firstCheck_eq {s : State} {i : Instr} (h : PassesChecks s i) : firstCheck s i = .ok := by
  rw [firstCheck_of_admitted h.notHalted h.inOrder h.inRange, h.noFatal, Option.elim_none]

/-- A legal command answers the code of the first check that applies (R174). -/
theorem exec_lastRc {i : Instr} {s t : State} (hw : i.wellFormed s.param.symw = true) (h : exec i s = .next t) :
    t.lastRc = some (firstCheck s i) := by
  rcases exec_cases h with ⟨r, hr, rfl⟩ | ⟨e, he, rfl⟩ | hok
  · rw [hr.firstCheck_eq hw, lastRc_send_rsp]
  · rw [he.firstCheck_eq, lastRc_send_rsp]
  · rw [hok.passesChecks.firstCheck_eq, hok.answers.lastRc]

/-- Settles O26: an illegal word fails the first check, and a decoded command is legal. -/
theorem firstFailingCheckAnswers : Obligations.FirstFailingCheckAnswers := by
  refine fun w s t h => ⟨fun e hd => ?_, fun i hd => ?_⟩
  · cases h.symm.trans (runWord_of_error hd)
    exact lastRc_send_rsp s _
  · obtain ⟨-, hw⟩ := encodeOfDecodeIsTheWord s.param.symw w i hd
    exact exec_lastRc hw ((runWord_of_ok hd).symm.trans h)

end Sys2Proof.Machine

/-! Two edges with one outcome in every state: an illegal word is taken, and a reset (60_exceptions.md R170,
70_reset_and_hazards.md R190). -/

namespace Sys2Proof.Machine

/-- Settles O7: the edge is a command transfer, and the word it takes does not decode. -/
theorem illegalWordStepIsRefused : Obligations.IllegalWordStepIsRefused := by
  refine fun s e es r hl hi hr hv ho hd => ⟨?_, rfl⟩
  calc step s = clockEdge e { s with input := es } := step_of_edge hl hi
    _ = runWord e.cmdWord { s with input := es } := clockEdge_of_command hr ho hv
    _ = .next (State.send [.rsp ⟨.refusal .illegal, 0⟩] { s with input := es }) := runWord_of_error hd
    _ = .next { s with input := es, out := [.rsp ⟨.refusal .illegal, 0⟩] } := by rw [State.send, ho, List.nil_append]

/-- Settles O9: a reset empties the channels and touches no history. -/
theorem resetDropsPendingTransfers : Obligations.ResetDropsPendingTransfers :=
  fun _ _ _ hl hi hr => ⟨_, step_of_rst hl hi hr, rfl, rfl, rfl, rfl⟩

end Sys2Proof.Machine
